-- ==== Sys2Proof/Word.lean ====
section
/-! DEFINITION. The widths of the block's values: bytes, 32-bit registers, the 64-bit result. -/

namespace Sys2Proof

/-- A byte: 8 bits, unsigned (R9, R13). -/
abbrev Byte := BitVec 8

/-- A host-visible register, `XLEN` = 32 (R8, R22). -/
abbrev Word := BitVec 32

/-- The result RESULT, `RLEN` = 64 (R8, R32). -/
abbrev DWord := BitVec 64

end Sys2Proof
end

