-- ==== Sys2Proof/Syntax.lean ====
section
/-! DEFINITION. The instructions of the block: its eight commands, and the operations of the two byte-stream languages
that YAY0, VARU and VARS interpret (R2). One constructor for each row of spec/opcode_table.json. -/

namespace Sys2Proof

/-- The three byte memories; a command selects one with its BUF field (R91). -/
inductive Buf where
  /-- the source buffer, BUF = 0 (R35) -/
  | src
  /-- the patch buffer, BUF = 1 (R36) -/
  | pat
  /-- the output buffer, BUF = 2 (R37) -/
  | out
deriving DecidableEq, Repr

/-- The instructions. An operand is a field of the encoding (R91, R97, R100); the other operands of a command are
registers. -/
inductive Instr where
  /-- NOP (R126) -/
  | nop
  /-- CRC of a byte range of `b` (R145) -/
  | crc (b : Buf)
  /-- CRCCHK: CRC of a byte range of `b` compared with EXPECT; `ign` is the field IGN (R146) -/
  | crcchk (b : Buf) (ign : Bool)
  /-- YAY0: decompress the Yay0 stream in `b` into OUT (R160) -/
  | yay0 (b : Buf)
  /-- VARU: decode one unsigned varint of `b` (R194) -/
  | varu (b : Buf)
  /-- VARS: decode one signed varint of `b` (R195) -/
  | vars (b : Buf)
  /-- SWAP16: copy a byte range of `b` into OUT, the bytes of each pair exchanged (R210) -/
  | swap16 (b : Buf)
  /-- RD: read an `n`-byte field of `b`, big-endian when `be` (R214) -/
  | rd (b : Buf) (be : Bool) (n : BitVec 4)
  /-- LIT: Yay0 control bit 1 with its literal byte (R98, R166) -/
  | lit (k : Byte)
  /-- COPY: Yay0 control bit 0 with a pair whose length field `f` is not 0; `d` is the distance less 1 (R98, R167) -/
  | copy (f : BitVec 4) (d : BitVec 12)
  /-- LCOPY: Yay0 control bit 0 with a pair whose length field is 0, and the extended-length byte `e` (R98, R167) -/
  | lcopy (d : BitVec 12) (e : Byte)
  /-- VB.CONT: a varint byte that another byte follows, with its 7 value bits (R100, R193) -/
  | vbCont (v : BitVec 7)
  /-- VB.END: the last byte of a varint, with its 7 value bits (R100, R193) -/
  | vbEnd (v : BitVec 7)
deriving DecidableEq, Repr

/-- The instruction is one of the eight commands a host writes to CMD (R90), not a stream operation. -/
def Instr.isCommand : Instr → Bool
  | .nop | .crc _ | .crcchk _ _ | .yay0 _ | .varu _ | .vars _ | .swap16 _ | .rd _ _ _ => true
  | .lit _ | .copy _ _ | .lcopy _ _ | .vbCont _ | .vbEnd _ => false

/-- What an instruction is read from. A command is one 32-bit word (R90). The parts of a Yay0 operation lie in three
streams: its control bit, the bytes it takes from the pair stream and the bytes it takes from the chunk stream (R98).
A varint form is one byte (R100). -/
inductive Code where
  | command (w : Word)
  | yay0Op (bit : Bool) (pair chunk : List Byte)
  | varintByte (x : Byte)
deriving DecidableEq, Repr

end Sys2Proof
end

