-- ==== Sys2Proof/WellFormed.lean ====
section
/-! DEFINITION. Which instructions have an encoding (R92, R98): the side conditions of the opcode table. -/

namespace Sys2Proof

/-- YAY0 and SWAP16 may not read OUT (R94). -/
def Buf.isInput (b : Buf) : Bool := b != .out

/-- RD reads 1 to 8 bytes (R91). -/
def countLegal (n : BitVec 4) : Bool := decide (1 ≤ n.toNat) && decide (n.toNat ≤ 8)

/-- The side conditions of R92 and R98. -/
def Instr.wellFormed : Instr → Bool
  | .nop => true
  | .crc _ => true
  | .crcchk _ _ => true
  | .yay0 b => b.isInput
  | .varu _ => true
  | .vars _ => true
  | .swap16 b => b.isInput
  | .rd _ _ n => countLegal n
  | .lit _ => true
  | .copy f _ => f != 0
  | .lcopy _ _ => true
  | .vbCont _ => true
  | .vbEnd _ => true

end Sys2Proof
end

