-- ==== Sys2Proof/Decode.lean ====
section
/-! DEFINITION. Decoding and encoding (R90 to R101). Decoding is total; what it rejects it rejects by name. -/

namespace Sys2Proof

/-- Why a code is no instruction (R93, R98). -/
inductive Reject where
  /-- one of bits 31:12 of a command word is set -/
  | reservedBits
  /-- OP is 8 to 15 -/
  | reservedOpcode
  /-- BUF = 3 -/
  | reservedBuffer
  /-- BUF = 2 in YAY0 or SWAP16 (R94) -/
  | outputAsInput
  /-- BUF, IGN, BE or N is not 0 in a command that does not use it -/
  | unusedField
  /-- N = 0 or N > 8 in RD -/
  | badCount
  /-- the streams did not supply exactly the bytes the Yay0 operation consists of (R99) -/
  | wrongExtent
deriving DecidableEq, Repr

/-! ### The command word (R91, R92) -/

def fieldOP (w : Word) : BitVec 4 := w.extractLsb' 0 4
def fieldBUF (w : Word) : BitVec 2 := w.extractLsb' 4 2
def fieldIGN (w : Word) : Bool := w.getLsbD 6
def fieldBE (w : Word) : Bool := w.getLsbD 7
def fieldN (w : Word) : BitVec 4 := w.extractLsb' 8 4
def fieldZero (w : Word) : BitVec 20 := w.extractLsb' 12 20

/-- The buffer a BUF field names; 3 is reserved (R91). -/
def bufOfField (f : BitVec 2) : Option Buf :=
  if f = 0 then some .src else if f = 1 then some .pat else if f = 2 then some .out else none

/-- A command with a BUF field that may name any of the three buffers. -/
def withBuf (f : BitVec 2) (k : Buf → Instr) : Except Reject Instr :=
  match bufOfField f with
  | some b => .ok (k b)
  | none => .error .reservedBuffer

/-- A command with a BUF field that names an input buffer (R94). -/
def withInput (f : BitVec 2) (k : Buf → Instr) : Except Reject Instr :=
  match bufOfField f with
  | some b => if b.isInput then .ok (k b) else .error .outputAsInput
  | none => .error .reservedBuffer

/-- Go on when the fields that the command does not use are 0 (R93). -/
def ifUnused (clear : Bool) (k : Except Reject Instr) : Except Reject Instr :=
  if clear then k else .error .unusedField

/-- Decoding a command word: the row of R92 it matches, or why it matches none. -/
def decodeCommand (w : Word) : Except Reject Instr :=
  if fieldZero w ≠ 0 then .error .reservedBits
  else
    let buf := fieldBUF w
    let ign := fieldIGN w
    let be := fieldBE w
    let n := fieldN w
    match (fieldOP w).toNat with
    | 0 => ifUnused (decide (buf = 0) && !ign && !be && decide (n = 0)) (.ok .nop)
    | 1 => ifUnused (!ign && !be && decide (n = 0)) (withBuf buf .crc)
    | 2 => ifUnused (!be && decide (n = 0)) (withBuf buf (.crcchk · ign))
    | 3 => ifUnused (!ign && !be && decide (n = 0)) (withInput buf .yay0)
    | 4 => ifUnused (!ign && !be && decide (n = 0)) (withBuf buf .varu)
    | 5 => ifUnused (!ign && !be && decide (n = 0)) (withBuf buf .vars)
    | 6 => ifUnused (!ign && !be && decide (n = 0)) (withInput buf .swap16)
    | 7 => ifUnused (!ign) (if countLegal n then withBuf buf (.rd · be n) else .error .badCount)
    | _ => .error .reservedOpcode

/-! ### The stream languages (R97, R98, R100) -/

/-- The pair of two bytes, big-endian: `256 * b[PP] + b[PP+1]` (R97, R170). -/
def pairOf (p0 p1 : Byte) : Nat := 256 * p0.toNat + p1.toNat

/-- F = pair[15:12] = pair div 4096, the length field (R97, R170). -/
def pairF (pair : Nat) : BitVec 4 := BitVec.ofNat 4 (pair / 4096)

/-- D = pair[11:0] = pair mod 4096, the back-reference distance less 1 (R97, R170). -/
def pairD (pair : Nat) : BitVec 12 := BitVec.ofNat 12 (pair % 4096)

/-- R98: control bit 1 with a chunk byte is LIT; control bit 0 with a pair is COPY when F is not 0, and with one more
chunk byte LCOPY when F is 0. -/
def decodeYay0Op (bit : Bool) (pair chunk : List Byte) : Except Reject Instr :=
  match bit, pair, chunk with
  | true, [], [k] => .ok (.lit k)
  | false, [p0, p1], [] =>
    let p := pairOf p0 p1
    if pairF p ≠ 0 then .ok (.copy (pairF p) (pairD p)) else .error .wrongExtent
  | false, [p0, p1], [e] =>
    let p := pairOf p0 p1
    if pairF p = 0 then .ok (.lcopy (pairD p) e) else .error .wrongExtent
  | _, _, _ => .error .wrongExtent

/-- R100: bit 7 = 1 is VB.END, bit 7 = 0 is VB.CONT; bits 6:0 are the value bits. -/
def decodeVarintByte (x : Byte) : Instr :=
  if x.getLsbD 7 then .vbEnd (x.extractLsb' 0 7) else .vbCont (x.extractLsb' 0 7)

/-- Decoding, total. -/
def decode : Code → Except Reject Instr
  | .command w => decodeCommand w
  | .yay0Op bit pair chunk => decodeYay0Op bit pair chunk
  | .varintByte x => .ok (decodeVarintByte x)

/-! ### The encoder, from the same tables (R92, R98, R100, R106) -/

/-- The BUF field of a buffer (R91). -/
def Buf.field : Buf → BitVec 2
  | .src => 0
  | .pat => 1
  | .out => 2

/-- A command word from its fields: `OP + 16 * BUF + 64 * IGN + 128 * BE + 256 * N` (R106). -/
def commandWord (op : BitVec 4) (buf : BitVec 2) (ign be : Bool) (n : BitVec 4) : Word :=
  BitVec.ofNat 32 (op.toNat + 16 * buf.toNat + 64 * ign.toNat + 128 * be.toNat + 256 * n.toNat)

/-- The two bytes of a pair, the byte of the pair stream's lower offset first (R97). -/
def pairBytes (f : BitVec 4) (d : BitVec 12) : List Byte :=
  let p := 4096 * f.toNat + d.toNat
  [BitVec.ofNat 8 (p / 256), BitVec.ofNat 8 (p % 256)]

/-- The code of an instruction. Its inverse on well-formed instructions is `decode`. -/
def encode : Instr → Code
  | .nop => .command (commandWord 0 0 false false 0)
  | .crc b => .command (commandWord 1 b.field false false 0)
  | .crcchk b ign => .command (commandWord 2 b.field ign false 0)
  | .yay0 b => .command (commandWord 3 b.field false false 0)
  | .varu b => .command (commandWord 4 b.field false false 0)
  | .vars b => .command (commandWord 5 b.field false false 0)
  | .swap16 b => .command (commandWord 6 b.field false false 0)
  | .rd b be n => .command (commandWord 7 b.field false be n)
  | .lit k => .yay0Op true [] [k]
  | .copy f d => .yay0Op false (pairBytes f d) []
  | .lcopy d e => .yay0Op false (pairBytes 0 d) [e]
  | .vbCont v => .varintByte (BitVec.ofNat 8 v.toNat)
  | .vbEnd v => .varintByte (BitVec.ofNat 8 (128 + v.toNat))

/-! ### The opcode table's numbering -/

/-- The code whose bits are `w`, numbered as spec/opcode_table.json numbers a row of `nbits` bits. 32 bits are a command
word and 8 bits a varint byte. The Yay0 operations have no single contiguous encoding (R98); their patterns
"1 kkkkkkkk", "0 ffffdddddddddddd" and "0 0000dddddddddddd eeeeeeee" are read as one number of 9, 17 or 25 bits, the control
bit its most significant bit; 9 and 17 bits may be given as 16 and 24 (log 14). -/
def tableCode (nbits w : Nat) : Option Code :=
  let byteAt (k : Nat) : Byte := BitVec.ofNat 8 (w >>> k)
  if nbits = 32 then some (.command (BitVec.ofNat 32 w))
  else if nbits = 8 then some (.varintByte (BitVec.ofNat 8 w))
  else if nbits = 9 ∨ nbits = 16 then
    if w >>> 8 = 1 then some (.yay0Op true [] [byteAt 0]) else none
  else if nbits = 17 ∨ nbits = 24 then
    if w >>> 16 = 0 then some (.yay0Op false [byteAt 8, byteAt 0] []) else none
  else if nbits = 25 then
    if w >>> 24 = 0 then some (.yay0Op false [byteAt 16, byteAt 8] [byteAt 0]) else none
  else none

/-- The instruction the decoder reads from an opcode-table row's word. -/
def decodeTableWord (nbits w : Nat) : Option Instr :=
  match tableCode nbits w with
  | some c => (decode c).toOption
  | none => none

end Sys2Proof
end

