-- ==== Sys2Proof/Config.lean ====
section
/-! DEFINITION. The free values: what the spec leaves unspecified and no claim may depend on. Each is a constant without
a body, so nothing can be proved of its value. -/

namespace Sys2Proof

/-- U1 of 93_implementation_defined.md, R38: the byte at an offset of a buffer that nothing has written since power-on.
"A launch argument of the model, and no claim may depend on their value" (log 1). -/
opaque Config.powerOnByte : Buf → Nat → Byte

/-- U2 and U5, R233, R271: the byte at an offset of OUT after the `n`-th event that left OUT[0 .. OUT_CAP-1] with
unspecified content (log 4). The arguments are the number of the event and the offset. -/
opaque Config.voidByte : Nat → Nat → Byte

end Sys2Proof
end

