-- ==== Sys2Proof/Machine/State.lean ====
section
/-! DEFINITION. The state of the machine as plain data (R20), and its value after reset (R46). The reasons for which a
step can stop. -/

namespace Sys2Proof.Machine

/-- The error kinds (R231). Code 0, None, is the absence of a kind. -/
inductive ErrKind where
  | malformedHeader
  | unsupportedFeature
  | checksumMismatch
  | boundsViolation
  | truncatedInput
  | unsupportedFormat
  | illegalCommand
  | badReference
  | varintOverflow
deriving DecidableEq, Repr

/-- The thirteen host-visible registers (R22). -/
inductive RegName where
  | cmd | status | errcode | ctrl | srcLen | patLen | outCap | outLen | pos | len | expect | resultLo | resultHi
deriving DecidableEq, Repr

/-- A range of offsets whose content became unspecified in one event: `lo ≤ a < hi` (R233, R271; log 4). -/
structure StaleRange where
  lo : Nat
  hi : Nat
  epoch : Nat
deriving DecidableEq, Repr

/-- A byte memory. `cells` lists the bytes whose value is known, by rising offset; `stale` the ranges that became
unspecified since. A byte in neither has what the buffer held at power-on (log 1). -/
structure Memory where
  cells : List Host.Cell
  stale : List StaleRange
deriving DecidableEq, Repr

/-- The YAY0 sequencer (R41). -/
structure Yay0Seq where
  /-- SIZE: declared uncompressed size -/
  size : Nat
  /-- CP: offset of the next control word -/
  cp : Nat
  /-- CW: the control word being consumed -/
  cw : Word
  /-- CB: number of unconsumed bits in CW -/
  cb : Nat
  /-- PP: offset of the next pair -/
  pp : Nat
  /-- KP: offset of the next chunk byte -/
  kp : Nat
  /-- OP: output position -/
  op : Nat
deriving DecidableEq, Repr

/-- The varint sequencer (R42). -/
structure VarintSeq where
  /-- p: byte cursor -/
  p : Nat
  data : Nat
  shift : Nat
deriving DecidableEq, Repr

/-- What the block is doing (R20 d, R257). -/
inductive Sequencer where
  /-- no command in flight -/
  | idle
  /-- a command is issued and has not begun (R120) -/
  | issued
  /-- a YAY0 command reads `b` (R41) -/
  | yay0 (b : Buf) (q : Yay0Seq)
  /-- a VARU command, or a VARS command when `signed`, reads `b` (R42) -/
  | varint (signed : Bool) (b : Buf) (q : VarintSeq)
deriving DecidableEq, Repr

/-- What the outside does to the block between its steps (R16, R107, R270). -/
inductive HostOp where
  /-- read `width` bytes of the register space at byte offset `off` from BASE -/
  | regRead (off width : Nat)
  /-- write `v` to `width` bytes of the register space at byte offset `off` from BASE -/
  | regWrite (off width : Nat) (v : Word)
  /-- read one byte of a buffer -/
  | bufRead (b : Buf) (a : Nat)
  /-- write one byte of a buffer -/
  | bufWrite (b : Buf) (a : Nat) (v : Byte)
  /-- give the block one step -/
  | run
  /-- read STATUS until BUSY = 0 (R107, WAIT) -/
  | wait
  /-- the reset input `rst` takes a level: asserted when true, released when false (R270, log 13) -/
  | rst (level : Bool)
deriving DecidableEq, Repr

/-- The whole state (R20), the parameters of the instance (R8), and the model's own fields. -/
structure State where
  /-- CMD (R23) -/
  cmd : Word
  /-- STATUS.BUSY (R25) -/
  busy : Bool
  /-- STATUS.DONE (R26) -/
  done : Bool
  /-- STATUS.ERR (R27) -/
  err : Bool
  /-- STATUS.MATCH (R28) -/
  matched : Bool
  /-- ERRCODE (R29): the kind whose code bits 3:0 hold, none for code 0 -/
  errcode : Option ErrKind
  /-- CTRL.IE (R30) -/
  ie : Bool
  /-- SRC_LEN (R31) -/
  srcLen : Word
  /-- PAT_LEN (R31) -/
  patLen : Word
  /-- OUT_CAP (R31) -/
  outCap : Word
  /-- OUT_LEN (R31) -/
  outLen : Word
  /-- POS (R31) -/
  pos : Word
  /-- LEN (R31) -/
  len : Word
  /-- EXPECT (R31) -/
  expect : Word
  /-- RESULT = RESULT_HI || RESULT_LO (R32) -/
  result : DWord
  /-- SRC (R35) -/
  src : Memory
  /-- PAT (R36) -/
  pat : Memory
  /-- OUT (R37) -/
  out : Memory
  /-- the sequencer (R39 to R43) -/
  seq : Sequencer
  /-- SRC_MAX, a parameter (R8): no step changes it -/
  srcMax : Word
  /-- PAT_MAX, a parameter (R8): no step changes it -/
  patMax : Word
  /-- OUT_MAX, a parameter (R8): no step changes it -/
  outMax : Word
  /-- the reset input's level, asserted when true (R21, R270): an input, which the model holds (log 13) -/
  rst : Bool
  /-- the model's own: what the outside does next (log 5) -/
  host : List HostOp
  /-- the model's own: what the host's last read returned (log 11) -/
  rdata : Word
  /-- the model's own: how many events left OUT[0 .. OUT_CAP-1] unspecified (log 4) -/
  freeCount : Nat
deriving DecidableEq, Repr

/-- The machine stops. The block itself never does: its errors are values the host reads (R230). -/
inductive Fault where
  /-- Raised by a host access to a buffer offset at or beyond the buffer's physical size (R35 to R37): no such byte
  exists. Safe: the spec gives the access no effect (log 10). -/
  | noSuchByte (b : Buf) (a : Nat)
deriving DecidableEq, Repr

/-- The model gives the action no meaning. -/
inductive Refusal where
  /-- Raised by `exec` for an instruction that has no meaning yet. Safe. -/
  | notModelled (mnemonic : String)
  /-- Raised by a host register access that is not one aligned 32-bit word (U4, R71): the bus's to define. Safe (log 8). -/
  | busAccess (off width : Nat)
  /-- Raised by a host access to a buffer that R281 forbids while BUSY = 1 (U3). Safe (log 9). -/
  | bufferInUse (b : Buf)
  /-- Raised by a stream operation executed where no command of its language is in flight: the spec gives it no effect
  there, and no step executes one there. Safe (log 7). -/
  | noStream
deriving DecidableEq, Repr

/-- A memory of which nothing is known (R38). -/
def Memory.blank : Memory := { cells := [], stale := [] }

/-- R46: the machine after reset, the reset input released. The three parameters, the input's level and the model's own
fields have the values that logs 2, 4, 5, 11 and 13 name. -/
def State.reset : State where
  cmd := 0
  busy := false
  done := false
  err := false
  matched := false
  errcode := none
  ie := false
  srcLen := 0
  patLen := 0
  outCap := 0
  outLen := 0
  pos := 0
  len := 0
  expect := 0
  result := 0
  src := Memory.blank
  pat := Memory.blank
  out := Memory.blank
  seq := .idle
  srcMax := 0xFFFFFFFF
  patMax := 0xFFFFFFFF
  outMax := 0xFFFFFFFF
  rst := false
  host := []
  rdata := 0
  freeCount := 0

end Sys2Proof.Machine
end

