-- ==== Sys2Proof/Machine/Ops.lean ====
section
/-! DEFINITION. The named operations over memory and registers: reading and writing buffers, issuing a command, and
completing it with success or with an error (R66, R67, R120, R123, R233). -/

namespace Sys2Proof.Machine

/-! ### One byte memory -/

/-- The known byte at an offset. -/
def cellAt : List Host.Cell → Nat → Option Byte
  | [], _ => none
  | (k, v) :: cs, a => if k = a then some v else cellAt cs a

/-- Set the byte at an offset, keeping the offsets strictly rising. -/
def cellPut : List Host.Cell → Nat → Byte → List Host.Cell
  | [], a, v => [(a, v)]
  | (k, w) :: cs, a, v =>
    if a < k then (a, v) :: (k, w) :: cs else if a = k then (a, v) :: cs else (k, w) :: cellPut cs a v

/-- The event that left an offset unspecified, if one did since it was last written. -/
def staleAt : List StaleRange → Nat → Option Nat
  | [], _ => none
  | r :: rs, a => if r.lo ≤ a ∧ a < r.hi then some r.epoch else staleAt rs a

/-- A range without one offset: what lies below it and what lies above it. -/
def StaleRange.without (r : StaleRange) (a : Nat) : List StaleRange :=
  if r.lo ≤ a ∧ a < r.hi then
    (if r.lo < a then [{ r with hi := a }] else []) ++ (if a + 1 < r.hi then [{ r with lo := a + 1 }] else [])
  else [r]

/-- The ranges without one offset. -/
def staleCut : List StaleRange → Nat → List StaleRange
  | [], _ => []
  | r :: rs, a => r.without a ++ staleCut rs a

/-- The ranges without the offsets below `n`. -/
def staleAbove (n : Nat) : List StaleRange → List StaleRange
  | [] => []
  | r :: rs => if r.hi ≤ n then staleAbove n rs else { r with lo := max r.lo n } :: staleAbove n rs

/-- The byte at offset `a` of the memory `m` of buffer `b`: the byte written there last; a free byte where the content is
unspecified (U1, U2, U5). -/
def Memory.byteAt (b : Buf) (m : Memory) (a : Nat) : Byte :=
  match cellAt m.cells a with
  | some v => v
  | none =>
    match staleAt m.stale a with
    | some n => Config.voidByte n a
    | none => Config.powerOnByte b a

/-- MemWrite of one byte (R67). -/
def Memory.write (m : Memory) (a : Nat) (v : Byte) : Memory :=
  { cells := cellPut m.cells a v, stale := staleCut m.stale a }

/-- Write consecutive bytes at rising offsets. -/
def Memory.writeAll (m : Memory) (a : Nat) : List Byte → Memory
  | [] => m
  | v :: vs => (m.write a v).writeAll (a + 1) vs

/-- The bytes at offsets below `n` become unspecified, in event `epoch`; the others stay (R233, R271). -/
def Memory.void (m : Memory) (n epoch : Nat) : Memory :=
  if n = 0 then m
  else
    { cells := m.cells.filter (fun c => decide (n ≤ c.1))
      stale := { lo := 0, hi := n, epoch := epoch } :: staleAbove n m.stale }

/-- The offsets of the cells rise strictly, the first at `lo` or above. -/
def cellsFrom (lo : Nat) : List Host.Cell → Bool
  | [] => true
  | c :: cs => decide (lo ≤ c.1) && cellsFrom (c.1 + 1) cs

/-- The first of the ranges does not continue the range that ends at `hi` and has the given event. -/
def staleGap (hi epoch : Nat) : List StaleRange → Bool
  | [] => true
  | r :: _ => decide (hi < r.lo) || decide (epoch ≠ r.epoch)

/-- The ranges are not empty, disjoint, rising from `lo` on, and none continues the one before it. -/
def staleFrom (lo : Nat) : List StaleRange → Bool
  | [] => true
  | r :: rs => decide (lo ≤ r.lo) && decide (r.lo < r.hi) && staleGap r.hi r.epoch rs && staleFrom r.hi rs

/-- The canonical form: cells strictly rising, ranges disjoint and rising, and no cell inside a range. An unlisted offset
has no known value, so no entry can equal what an unlisted offset reads as. -/
def Memory.wf (m : Memory) : Bool :=
  cellsFrom 0 m.cells && staleFrom 0 m.stale && m.cells.all (fun c => decide (staleAt m.stale c.1 = none))

/-! ### The three buffers -/

/-- The memory of a buffer. -/
def State.mem (s : State) : Buf → Memory
  | .src => s.src
  | .pat => s.pat
  | .out => s.out

/-- The physical size of a buffer in bytes (R35 to R37). -/
def State.physSize (s : State) : Buf → Nat
  | .src => s.srcMax.toNat
  | .pat => s.patMax.toNat
  | .out => s.outMax.toNat

/-- BufLen: the readable length of a buffer (R12). -/
def State.bufLen (s : State) : Buf → Nat
  | .src => s.srcLen.toNat
  | .pat => s.patLen.toNat
  | .out => s.outLen.toNat

/-- The byte at an offset of a buffer. -/
def State.byte (s : State) (b : Buf) (a : Nat) : Byte := (s.mem b).byteAt b a

/-- The `n` bytes from offset `a` on. -/
def State.bytes (s : State) (b : Buf) (a : Nat) : Nat → List Byte
  | 0 => []
  | n + 1 => s.byte b a :: s.bytes b (a + 1) n

/-- MemRead(b, a, n) (R66): TruncatedInput when `a + n > BufLen(b)`, the sum exact. -/
def State.memRead (s : State) (b : Buf) (a n : Nat) : Except ErrKind (List Byte) :=
  if s.bufLen b < a + n then .error .truncatedInput else .ok (s.bytes b a n)

/-- Replace the memory of a buffer. -/
def State.withMem (s : State) (b : Buf) (m : Memory) : State :=
  match b with
  | .src => { s with src := m }
  | .pat => { s with pat := m }
  | .out => { s with out := m }

/-! ### Updates of one register -/

def State.withResult (s : State) (v : DWord) : State := { s with result := v }
def State.withPos (s : State) (v : Word) : State := { s with pos := v }
def State.withOutLen (s : State) (v : Word) : State := { s with outLen := v }
def State.withSeq (s : State) (q : Sequencer) : State := { s with seq := q }

/-- OUT[0 .. OUT_CAP-1] gets unspecified content (R233, R271): a free value for each of its bytes, new at each such event. -/
def State.voidOut (s : State) : State :=
  { s with out := s.out.void s.outCap.toNat s.freeCount, freeCount := s.freeCount + 1 }

/-! ### The life of a command -/

/-- Issue of the command word `w` (R120). -/
def State.issue (s : State) (w : Word) : State :=
  { s with cmd := w, busy := true, done := false, err := false, matched := false, errcode := none, seq := .issued }

/-- Successful completion (R123), with the value STATUS.MATCH gets: 0 for every command but CRCCHK. -/
def State.complete (s : State) (matched : Bool) : State :=
  { s with busy := false, done := true, err := false, matched := matched, errcode := none, seq := .idle }

/-- What a failing command leaves of OUT (R233). -/
inductive OutEffect where
  /-- OUT and OUT_LEN are unchanged: the command does not write OUT, or it failed in decode or in the common operand check -/
  | kept
  /-- OUT_LEN is 0 and no byte of OUT was written: YAY0 or SWAP16 failed in its own steps before its first write (R211, R235) -/
  | emptied
  /-- OUT_LEN is 0 and OUT[0 .. OUT_CAP-1] is unspecified: YAY0 failed after its first write (R173, U2) -/
  | voided
deriving DecidableEq, Repr

/-- What becomes of OUT and OUT_LEN on an error. -/
def State.loseOut (s : State) : OutEffect → State
  | .kept => s
  | .emptied => s.withOutLen 0
  | .voided => s.voidOut.withOutLen 0

/-- Completion with the error `e` (R233): the block's only exception entry. Nothing else is saved (R234), and there is no
return from it: the next issue clears the flags (R238). -/
def State.raise (s : State) (e : ErrKind) (o : OutEffect) : State :=
  { s.loseOut o with busy := false, done := true, err := true, matched := false, errcode := some e, seq := .idle }

/-- The command in flight, if its word is legal. -/
def State.command (s : State) : Option Instr := (decode (.command s.cmd)).toOption

/-- R271: a command in flight that `rst` abandons leaves OUT[0 .. OUT_CAP-1] unspecified when it is YAY0 or SWAP16. -/
def State.abandon (s : State) : State :=
  if s.busy then
    match s.command with
    | some (.yay0 _) => s.voidOut
    | some (.swap16 _) => s.voidOut
    | _ => s
  else s

/-- Reset (R270, R271): the registers take their reset values, the buffers keep what they hold. The parameters, the
input's level and the model's own fields are no registers. -/
def State.applyReset (s : State) : State :=
  let t := s.abandon
  { State.reset with
    src := t.src, pat := t.pat, out := t.out, srcMax := t.srcMax, patMax := t.patMax, outMax := t.outMax,
    rst := t.rst, host := t.host, rdata := t.rdata, freeCount := t.freeCount }

/-- The reset input takes a level. Every register has its reset value while it is asserted and at the moment it is
released (R270); releasing it when it is not asserted does nothing. -/
def State.driveRst (s : State) (level : Bool) : State :=
  if level || s.rst then { s.applyReset with rst := level } else s

end Sys2Proof.Machine
end

