-- ==== Sys2Proof/Machine/Operands.lean ====
section
/-! DEFINITION. Operands: the common operand check, byte-order assembly of multi-byte fields, and the forms of operand
the commands share (R11, R12, R122). -/

namespace Sys2Proof.Machine

/-- What a step answers. -/
abbrev Result := Host.Outcome State Fault Refusal

/-- The common operand check (R122): no length register exceeds its limit. -/
def State.operandsOk (s : State) : Bool :=
  decide (s.srcLen.toNat ≤ s.srcMax.toNat) && decide (s.patLen.toNat ≤ s.patMax.toNat) &&
    decide (s.outCap.toNat ≤ s.outMax.toNat) && decide (s.outLen.toNat ≤ s.outCap.toNat)

/-- Steps 1 and 2 of every command (R132): the instruction must have a legal word (R121) and the length registers must
pass the common operand check (R122); otherwise IllegalCommand, with OUT and OUT_LEN unchanged (R233). Then the
command's own steps. -/
def State.checked (s : State) (i : Instr) (own : Result) : Result :=
  if i.wellFormed && s.operandsOk then own else .next (s.raise .illegalCommand .kept)

/-- BE(seq), the big-endian value of a byte sequence, onto the value read so far (R11). -/
def beFold (acc : Nat) : List Byte → Nat
  | [] => acc
  | x :: xs => beFold (acc * 256 + x.toNat) xs

/-- BE(seq): `sum of b_i * 256^(n-1-i)` (R11). -/
def beNat (xs : List Byte) : Nat := beFold 0 xs

/-- LE(seq): `sum of b_i * 256^i` (R11). -/
def leNat : List Byte → Nat
  | [] => 0
  | x :: xs => x.toNat + 256 * leNat xs

/-- The value of a field in the byte order the field BE of RD names (R214). -/
def fieldValue (be : Bool) (xs : List Byte) : Nat := if be then beNat xs else leNat xs

/-- Four bytes, big-endian, as a word: BE32 (R11). -/
def be32 (xs : List Byte) : Word := BitVec.ofNat 32 (beNat xs)

/-- A 32-bit value zero-extended to 64 bits: zext_64 (R12). -/
def zext64 (w : Word) : DWord := w.setWidth 64

/-- RESULT_LO = RESULT mod 2^32 (R65). -/
def resultLo (r : DWord) : Word := r.extractLsb' 0 32

/-- RESULT_HI = RESULT div 2^32 (R65). -/
def resultHi (r : DWord) : Word := r.extractLsb' 32 32

end Sys2Proof.Machine
end

