-- ==== Sys2Proof/Machine/ByteOrder.lean ====
section
/-! DEFINITION. The byte-order unit: SWAP16 (R210, R211) and RD (R214). -/

namespace Sys2Proof.Machine

/-- The two bytes of every pair exchanged (R210). -/
def swapPairs : List Byte → List Byte
  | x :: y :: r => y :: x :: swapPairs r
  | r => r

/-- SWAP16 (R210), its checks in the order of R211. All are made before the first write, so a failing SWAP16 writes no
byte of OUT (R211). -/
def execSwap16 (b : Buf) (s : State) : Result :=
  s.checked (.swap16 b)
    (let pos := s.pos.toNat
     let n := s.len.toNat
     if n % 2 = 1 then .next (s.raise .illegalCommand .emptied)
     else if s.bufLen b < pos + n then .next (s.raise .truncatedInput .emptied)
     else if s.outCap.toNat < n then .next (s.raise .boundsViolation .emptied)
     else
       .next ((((s.withMem .out (s.out.writeAll 0 (swapPairs (s.bytes b pos n)))).withOutLen s.len).withResult
         (zext64 s.len)).complete false))

/-- RD (R214). -/
def execRd (b : Buf) (be : Bool) (n : BitVec 4) (s : State) : Result :=
  s.checked (.rd b be n)
    (match s.memRead b s.pos.toNat n.toNat with
    | .error e => .next (s.raise e .kept)
    | .ok xs =>
      .next (((s.withResult (BitVec.ofNat 64 (fieldValue be xs))).withPos
        (BitVec.ofNat 32 (s.pos.toNat + n.toNat))).complete false))

end Sys2Proof.Machine
end

