-- ==== Sys2Proof/Machine/System.lean ====
section
/-! DEFINITION. NOP, the only command without a data function (R126, R131). -/

namespace Sys2Proof.Machine

/-- NOP: decode and the common operand check, nothing else (R126). -/
def execNop (s : State) : Result := s.checked .nop (.next (s.complete false))

end Sys2Proof.Machine
end

