-- ==== Sys2Proof/Machine/Varint.lean ====
section
/-! DEFINITION. The varint decoder: the commands VARU and VARS, which start it at POS (R190, R194, R195), the fetch of one
byte, and the byte forms VB.CONT and VB.END (R193). -/

namespace Sys2Proof.Machine

/-- `p <- p0; data <- 0; shift <- 1` with p0 = POS (R190). -/
def State.varintStart (s : State) (signed : Bool) (b : Buf) : State :=
  s.withSeq (.varint signed b { p := s.pos.toNat, data := 0, shift := 1 })

/-- VARU (R194 up to its loop). -/
def execVaru (b : Buf) (s : State) : Result := s.checked (.varu b) (.next (s.varintStart false b))

/-- VARS (R195 up to its loop). -/
def execVars (b : Buf) (s : State) : Result := s.checked (.vars b) (.next (s.varintStart true b))

/-- Fetch of one varint byte: TruncatedInput when `p + 1 > BufLen(b)` (R190, R191). -/
def State.varintFetch (s : State) (b : Buf) (q : VarintSeq) : Except ErrKind Code :=
  match s.memRead b q.p 1 with
  | .error e => .error e
  | .ok _ => .ok (.varintByte (s.byte b q.p))

/-- VB.CONT (R193): the value bits, then the offset, each addition tested against 2^64 (R190, R192). -/
def execVbCont (v : BitVec 7) (s : State) : Result :=
  match s.seq with
  | .varint signed b q =>
    let d1 := q.data + v.toNat * q.shift
    if 2 ^ 64 ≤ d1 then .next (s.raise .varintOverflow .kept)
    else
      let shift := q.shift * 128
      let d2 := d1 + shift
      if 2 ^ 64 ≤ d2 then .next (s.raise .varintOverflow .kept)
      else .next (s.withSeq (.varint signed b { p := q.p + 1, data := d2, shift := shift }))
  | _ => .refused .noStream

/-- The value VARS reads from `v`: magnitude `v div 2`, negative when `v[0] = 1`, in 64-bit two's complement (R195). -/
def signedValue (v : Nat) : DWord :=
  let m := v / 2
  if v % 2 = 1 then BitVec.ofNat 64 ((2 ^ 64 - m) % 2 ^ 64) else BitVec.ofNat 64 m

/-- What RESULT gets at the end of a varint of value `v` (R194, R195). -/
def varintResult (signed : Bool) (v : Nat) : DWord := if signed then signedValue v else BitVec.ofNat 64 v

/-- VB.END (R193): the value bits, tested, and the completion of the command: RESULT and POS (R194, R195). -/
def execVbEnd (v : BitVec 7) (s : State) : Result :=
  match s.seq with
  | .varint signed _ q =>
    let d1 := q.data + v.toNat * q.shift
    if 2 ^ 64 ≤ d1 then .next (s.raise .varintOverflow .kept)
    else .next (((s.withResult (varintResult signed d1)).withPos (BitVec.ofNat 32 (q.p + 1))).complete false)
  | _ => .refused .noStream

end Sys2Proof.Machine
end

