-- ==== Sys2Proof/Machine/Yay0.lean ====
section
/-! DEFINITION. The Yay0 decompressor: the command YAY0, which checks the header and starts the sequencer (R160 to R163),
the fetch of one stream operation (R165, R167), and the operations LIT, COPY and LCOPY (R166 to R169). -/

namespace Sys2Proof.Machine

/-- YAY0_MAGIC, "Yay0" (R8, R161). -/
def yay0Magic : List Byte := [0x59, 0x61, 0x79, 0x30]

/-- What an error of YAY0's own steps leaves of OUT: unspecified content once a byte was written, that is, once OP > 0
(R173, R235; log 3). -/
def Yay0Seq.outEffect (q : Yay0Seq) : OutEffect := if q.op = 0 then .emptied else .voided

/-- Magic check, header read, capacity check and sequencer initialisation (R161, R162, R163). -/
def State.yay0Header (s : State) (b : Buf) : Except ErrKind Yay0Seq :=
  let base := s.pos.toNat
  match s.memRead b base 4 with
  | .error e => .error e
  | .ok m =>
    if m ≠ yay0Magic then .error .malformedHeader
    else
      match s.memRead b (base + 4) 12 with
      | .error e => .error e
      | .ok h =>
        let size := beNat (h.take 4)
        if s.outCap.toNat < size then .error .boundsViolation
        else
          .ok { size := size, cp := base + 16, cw := 0, cb := 0,
                pp := base + beNat ((h.drop 4).take 4), kp := base + beNat (h.drop 8), op := 0 }

/-- The loop condition `OP < SIZE` (R164): go on, or complete the command when the declared size is produced (R169). -/
def State.yay0Go (s : State) (b : Buf) (q : Yay0Seq) : State :=
  if q.op < q.size then s.withSeq (.yay0 b q)
  else ((s.withOutLen (BitVec.ofNat 32 q.size)).withResult (BitVec.ofNat 64 q.size)).complete false

/-- YAY0 (R160, R170 up to its loop). -/
def execYay0 (b : Buf) (s : State) : Result :=
  s.checked (.yay0 b)
    (match s.yay0Header b with
    | .error e => .next (s.raise e .emptied)
    | .ok q => .next (s.yay0Go b q))

/-- A control word is read when a bit is needed and none is left (R165, first part). -/
def State.yay0Refill (s : State) (b : Buf) (q : Yay0Seq) : Except ErrKind Yay0Seq :=
  if q.cb = 0 then
    match s.memRead b q.cp 4 with
    | .error e => .error e
    | .ok w => .ok { q with cw := be32 w, cp := q.cp + 4, cb := 32 }
  else .ok q

/-- Fetch of one stream operation: the control bit selects LIT, or the pair and with F = 0 the extended-length byte
(R165, R166, R167). The bytes are read here in that order; the operation itself moves the cursors past them (R99). -/
def State.yay0Fetch (s : State) (b : Buf) (q : Yay0Seq) : Except ErrKind (Code × Yay0Seq) :=
  match s.yay0Refill b q with
  | .error e => .error e
  | .ok q =>
    if q.cw.getLsbD 31 then
      match s.memRead b q.kp 1 with
      | .error e => .error e
      | .ok x => .ok (.yay0Op true [] x, q)
    else
      match s.memRead b q.pp 2 with
      | .error e => .error e
      | .ok p =>
        if beNat p / 4096 = 0 then
          match s.memRead b q.kp 1 with
          | .error e => .error e
          | .ok x => .ok (.yay0Op false p x, q)
        else .ok (.yay0Op false p [], q)

/-- The control bit is consumed: CW shifted left, CB one less (R165, second part). -/
def Yay0Seq.takeBit (q : Yay0Seq) : Yay0Seq := { q with cw := q.cw <<< 1, cb := q.cb - 1 }

/-- A byte of the chunk stream is consumed (R166, R167). -/
def Yay0Seq.takeChunk (q : Yay0Seq) : Yay0Seq := { q with kp := q.kp + 1 }

/-- A pair is consumed (R167). -/
def Yay0Seq.takePair (q : Yay0Seq) : Yay0Seq := { q with pp := q.pp + 2 }

/-- `n` bytes of output are produced (R166, R168). -/
def Yay0Seq.produce (q : Yay0Seq) (n : Nat) : Yay0Seq := { q with op := q.op + n }

/-- LIT (R166). -/
def execLit (k : Byte) (s : State) : Result :=
  match s.seq with
  | .yay0 b q =>
    .next ((s.withMem .out (s.out.write q.op k)).yay0Go b (q.takeBit.takeChunk.produce 1))
  | _ => .refused .noStream

/-- The copy loop (R168), `n` bytes from distance `d + 1`, one byte at a time: a byte may be one the same copy wrote.
None when a byte would lie at or beyond `size`. -/
def copyLoop (d size : Nat) : Nat → Memory → Nat → Option Memory
  | 0, m, _ => some m
  | n + 1, m, op =>
    if size ≤ op then none else copyLoop d size n (m.write op (m.byteAt .out (op - d - 1))) (op + 1)

/-- What COPY and LCOPY share once the operands are read: the reference check (R167) and the copy (R168). `q` is the
sequencer with its cursors past the operation. -/
def State.yay0Copy (s : State) (b : Buf) (q : Yay0Seq) (n d : Nat) : State :=
  if q.op < d + 1 then s.raise .badReference q.outEffect
  else
    match copyLoop d q.size n s.out q.op with
    | none => s.raise .boundsViolation .voided
    | some m => (s.withMem .out m).yay0Go b (q.produce n)

/-- COPY: n = F + 2 (R167, R168). -/
def execCopy (f : BitVec 4) (d : BitVec 12) (s : State) : Result :=
  match s.seq with
  | .yay0 b q => .next (s.yay0Copy b q.takeBit.takePair (f.toNat + 2) d.toNat)
  | _ => .refused .noStream

/-- LCOPY: n = E + 18 (R167, R168). -/
def execLcopy (d : BitVec 12) (e : Byte) (s : State) : Result :=
  match s.seq with
  | .yay0 b q => .next (s.yay0Copy b q.takeBit.takePair.takeChunk (e.toNat + 18) d.toNat)
  | _ => .refused .noStream

end Sys2Proof.Machine
end

