-- ==== Sys2Proof/Machine/Dispatch.lean ====
section
/-! DEFINITION. The dispatch of an instruction to its meaning, one arm per constructor. -/

namespace Sys2Proof.Machine

/-- The meaning of an instruction. -/
def exec (i : Instr) (s : State) : Host.Outcome State Fault Refusal :=
  match i with
  -- commands (30_encoding.md R90)
  | .nop => Sys2Proof.Machine.execNop s
  | .crc b => Sys2Proof.Machine.execCrc b s
  | .crcchk b ign => Sys2Proof.Machine.execCrcchk b ign s
  | .yay0 b => Sys2Proof.Machine.execYay0 b s
  | .varu b => Sys2Proof.Machine.execVaru b s
  | .vars b => Sys2Proof.Machine.execVars b s
  | .swap16 b => Sys2Proof.Machine.execSwap16 b s
  | .rd b be n => Sys2Proof.Machine.execRd b be n s
  -- stream operations of YAY0 (30_encoding.md R98)
  | .lit k => Sys2Proof.Machine.execLit k s
  | .copy f d => Sys2Proof.Machine.execCopy f d s
  | .lcopy d e => Sys2Proof.Machine.execLcopy d e s
  -- byte forms of VARU and VARS (30_encoding.md R100)
  | .vbCont v => Sys2Proof.Machine.execVbCont v s
  | .vbEnd v => Sys2Proof.Machine.execVbEnd v s

end Sys2Proof.Machine
end

