-- ==== Sys2Proof/Machine/Fetch.lean ====
section
/-! DEFINITION. Where the block's next instruction comes from: the command register, the Yay0 streams or the varint bytes
(R39, R40, R76), and how an instruction is placed there. -/

namespace Sys2Proof.Machine

/-- What a fetch gives. -/
inductive Fetched where
  /-- no command is in flight: there is nothing to run (R39, R257) -/
  | idle
  /-- the code of the next instruction, and the state it runs in -/
  | code (c : Code) (s : State)
  /-- the fetch met an error, and this is the state after the command completed with it (R233) -/
  | failed (s : State)
deriving Repr

/-- The next instruction: the issued command word (R121), or the next operation of the stream in flight (R165, R190). -/
def State.fetch (s : State) : Fetched :=
  match s.seq with
  | .idle => .idle
  | .issued => .code (.command s.cmd) s
  | .yay0 b q =>
    match s.yay0Fetch b q with
    | .error e => .failed (s.raise e q.outEffect)
    | .ok (c, q') => .code c (s.withSeq (.yay0 b q'))
  | .varint _ b q =>
    match s.varintFetch b q with
    | .error e => .failed (s.raise e .kept)
    | .ok c => .code c s

/-- A varint byte placed where the block fetches one: at offset 0 of SRC, under a VARU SRC in flight from POS = 0 (log 14). -/
def State.placeVarintByte (s : State) (x : Byte) : State :=
  let t := { s.issue (commandWord 4 0 false false 0) with srcLen := 1, pos := 0, src := s.src.write 0 x }
  t.varintStart false .src

/-- A Yay0 operation placed where the block fetches one: under a YAY0 SRC in flight that has produced 4096 of 8192 bytes,
so that every distance and every length is in range. Its control bit stands in CW, its pair at offset 0 and its chunk
byte at offset 2 of SRC (log 14). -/
def State.placeYay0Op (s : State) (bit : Bool) (pair chunk : List Byte) : State :=
  { s.issue (commandWord 3 0 false false 0) with
    srcLen := 3, pos := 0, outCap := 8192, src := (s.src.writeAll 0 pair).writeAll 2 chunk,
    seq := .yay0 .src { size := 8192, cp := 3, cw := if bit then 0x80000000 else 0, cb := 1, pp := 0, kp := 2, op := 4096 } }

/-- The state in which the block's next instruction has this code, the reset input released and no host operation pending. -/
def State.place (s : State) (c : Code) : State :=
  let t : State := { s with host := [], rst := false }
  match c with
  | .command w => t.issue w
  | .varintByte x => t.placeVarintByte x
  | .yay0Op bit pair chunk => t.placeYay0Op bit pair chunk

end Sys2Proof.Machine
end

