-- ==== Sys2Proof/Machine/Flags.lean ====
section
/-! DEFINITION. The flags as the host sees them: STATUS, ERRCODE and CTRL as words, and the interrupt wire (R24 to R34). -/

namespace Sys2Proof.Machine

/-- The code of an error kind (R231). -/
def ErrKind.code : ErrKind → Nat
  | .malformedHeader => 1
  | .unsupportedFeature => 2
  | .checksumMismatch => 3
  | .boundsViolation => 4
  | .truncatedInput => 5
  | .unsupportedFormat => 6
  | .illegalCommand => 7
  | .badReference => 8
  | .varintOverflow => 9

/-- ERRCODE as a word: bits 3:0 hold the code, 0 for None; bits 31:4 are 0 (R29). -/
def errWord (e : Option ErrKind) : Word :=
  match e with
  | none => 0
  | some k => BitVec.ofNat 32 k.code

/-- STATUS as a word: bit 0 BUSY, bit 1 DONE, bit 2 ERR, bit 3 MATCH; bits 31:4 are 0 (R24). -/
def statusWord (busy done err matched : Bool) : Word :=
  BitVec.ofNat 32 (busy.toNat + 2 * done.toNat + 4 * err.toNat + 8 * matched.toNat)

/-- CTRL as a word: bit 0 IE; bits 31:1 are 0 (R30). -/
def ctrlWord (ie : Bool) : Word := BitVec.ofNat 32 ie.toNat

/-- The interrupt wire: `irq = STATUS.DONE AND CTRL.IE` at every instant (R34). -/
def State.irq (s : State) : Bool := s.done && s.ie

end Sys2Proof.Machine
end

