-- ==== Sys2Proof/Machine/HostPort.lean ====
section
/-! DEFINITION. The host's side: register and buffer accesses, waiting, the reset input, and whose turn it is (R16, R22 to
R38, R107, R270, R281). -/

namespace Sys2Proof.Machine

/-- The register at a byte offset from BASE (R22); none at an offset the table does not list. -/
def regAt : Nat → Option RegName
  | 0x00 => some .cmd
  | 0x04 => some .status
  | 0x08 => some .errcode
  | 0x0C => some .ctrl
  | 0x10 => some .srcLen
  | 0x14 => some .patLen
  | 0x18 => some .outCap
  | 0x1C => some .outLen
  | 0x20 => some .pos
  | 0x24 => some .len
  | 0x28 => some .expect
  | 0x2C => some .resultLo
  | 0x30 => some .resultHi
  | _ => none

/-- What a register reads as (R22 to R32). While BUSY = 1 the flags and ERRCODE are those issue left and the others those
at issue (R33), since a command writes no register before its completion. -/
def State.reg (s : State) : RegName → Word
  | .cmd => s.cmd
  | .status => statusWord s.busy s.done s.err s.matched
  | .errcode => errWord s.errcode
  | .ctrl => ctrlWord s.ie
  | .srcLen => s.srcLen
  | .patLen => s.patLen
  | .outCap => s.outCap
  | .outLen => s.outLen
  | .pos => s.pos
  | .len => s.len
  | .expect => s.expect
  | .resultLo => resultLo s.result
  | .resultHi => resultHi s.result

/-- A word read at a byte offset: 0 at an unlisted offset (R22). -/
def State.busRead (s : State) (off : Nat) : Word :=
  match regAt off with
  | some r => s.reg r
  | none => 0

/-- A write to a register while BUSY = 0 and `rst` is released (R22, R23, R24, R30, R31). -/
def State.regWrite (s : State) (v : Word) : RegName → State
  | .cmd => s.issue v
  | .status => if v.getLsbD 1 then { s with done := false } else s
  | .errcode => s
  | .ctrl => { s with ie := v.getLsbD 0 }
  | .srcLen => { s with srcLen := v }
  | .patLen => { s with patLen := v }
  | .outCap => { s with outCap := v }
  | .outLen => { s with outLen := v }
  | .pos => { s with pos := v }
  | .len => { s with len := v }
  | .expect => { s with expect := v }
  | .resultLo => s
  | .resultHi => s

/-- A word written at a byte offset: ignored while BUSY = 1 (R33) and at an unlisted offset (R22). While `rst` is asserted
every register has its reset value (R270), so a write has no effect then and one to CMD issues nothing. -/
def State.busWrite (s : State) (off : Nat) (v : Word) : State :=
  if s.busy || s.rst then s
  else
    match regAt off with
    | some r => s.regWrite v r
    | none => s

/-- The access is one aligned 32-bit word (R71, U4). -/
def wordAccess (off width : Nat) : Bool := decide (width = 4) && decide (off % 4 = 0)

/-- What the host's read returned. -/
def State.withRdata (s : State) (v : Word) : State := { s with rdata := v }

/-- A read of a buffer byte. Reading OUT while BUSY = 1 is a step the model's host does not have (R281, U3). -/
def State.hostBufRead (s : State) (b : Buf) (a : Nat) : Result :=
  if s.busy && b == .out then .refused (.bufferInUse b)
  else if s.physSize b ≤ a then .fault (.noSuchByte b a)
  else .next (s.withRdata ((s.byte b a).setWidth 32))

/-- A write of a buffer byte. Writing any buffer while BUSY = 1 is a step the model's host does not have (R281, U3). -/
def State.hostBufWrite (s : State) (b : Buf) (a : Nat) (v : Byte) : Result :=
  if s.busy then .refused (.bufferInUse b)
  else if s.physSize b ≤ a then .fault (.noSuchByte b a)
  else .next (s.withMem b ((s.mem b).write a v))

/-- Whose turn it is: the block's, from a state, or the outside's, with its answer. -/
inductive Turn where
  | block (s : State)
  | outside (r : Result)
deriving Repr

/-- The next entry of the list of pending operations. With none, and for `run`, it is the block's turn; `wait` gives the
block its turn while BUSY = 1 and is done with a read of STATUS when BUSY = 0 (R107). -/
def State.turn (s : State) : Turn :=
  match s.host with
  | [] => .block s
  | op :: rest =>
    let t : State := { s with host := rest }
    match op with
    | .run => .block t
    | .wait => if s.busy then .block s else .outside (.next (t.withRdata (t.reg .status)))
    | .regRead off width =>
      .outside (if wordAccess off width then .next (t.withRdata (t.busRead off)) else .refused (.busAccess off width))
    | .regWrite off width v =>
      .outside (if wordAccess off width then .next (t.busWrite off v) else .refused (.busAccess off width))
    | .bufRead b a => .outside (t.hostBufRead b a)
    | .bufWrite b a v => .outside (t.hostBufWrite b a v)
    | .rst level => .outside (.next (t.driveRst level))

end Sys2Proof.Machine
end

