-- ==== Sys2Proof/Machine/Step.lean ====
section
/-! DEFINITION. One step of the machine: the outside's next operation, or the block's next instruction. -/

namespace Sys2Proof.Machine

/-- One step of the block: fetch, decode, execute. A code that is no instruction raises IllegalCommand (R121); only a
command word can be one. -/
def blockStep (s : State) : Host.Outcome State Fault Refusal :=
  match s.fetch with
  | .idle => .next s
  | .failed t => .next t
  | .code c t =>
    match decode c with
    | .ok i => exec i t
    | .error _ => .next (t.raise .illegalCommand .kept)

/-- One step. -/
def step (s : State) : Host.Outcome State Fault Refusal :=
  match s.turn with
  | .block t => blockStep t
  | .outside r => r

/-- `s` with the instruction whose bits are `w`, numbered as the opcode table numbers them, where the next step fetches
it: a command word issued by the host, or an operation in the stream of a command in flight (log 14). -/
def State.withFetchWord (s : State) (nbits w : Nat) : State :=
  match tableCode nbits w with
  | some c => s.place c
  | none => s

end Sys2Proof.Machine
end

