-- ==== Sys2Proof/Machine/Assembler.lean ====
section
/-! DEFINITION. The assembler notation: directives, command lines and pseudo-instructions, as lists of host operations
(R106, R107, R108). -/

namespace Sys2Proof.Machine

/-- The byte offset of a register from BASE (R22). -/
def RegName.offset : RegName → Nat
  | .cmd => 0x00
  | .status => 0x04
  | .errcode => 0x08
  | .ctrl => 0x0C
  | .srcLen => 0x10
  | .patLen => 0x14
  | .outCap => 0x18
  | .outLen => 0x1C
  | .pos => 0x20
  | .len => 0x24
  | .expect => 0x28
  | .resultLo => 0x2C
  | .resultHi => 0x30

/-- `WR reg, v` (R107). -/
def asmWr (r : RegName) (v : Word) : List HostOp := [.regWrite r.offset 4 v]

/-- `x = RR reg` (R107). -/
def asmRr (r : RegName) : List HostOp := [.regRead r.offset 4]

/-- The length register of a buffer (R107). -/
def lengthReg : Buf → RegName
  | .src => .srcLen
  | .pat => .patLen
  | .out => .outLen

/-- The bytes of a buffer from an offset on, one write each. -/
def asmFill (b : Buf) (a : Nat) : List Byte → List HostOp
  | [] => []
  | v :: vs => .bufWrite b a v :: asmFill b (a + 1) vs

/-- `LOAD b, bytes` (R107). -/
def asmLoad (b : Buf) (xs : List Byte) : List HostOp :=
  asmFill b 0 xs ++ asmWr (lengthReg b) (BitVec.ofNat 32 xs.length)

/-- A command line: `WR CMD, word` and `WAIT` (R106, R107). No operations for what is no command. -/
def asmCommand (i : Instr) : List HostOp :=
  match encode i with
  | .command w => asmWr .cmd w ++ [.wait]
  | _ => []

/-- `SEEK v` (R108). -/
def asmSeek (v : Word) : List HostOp := asmWr .pos v

/-- `RD8 b` (R108). -/
def asmRd8 (b : Buf) : List HostOp := asmCommand (.rd b false 1)

/-- `RD16BE b` (R108). -/
def asmRd16be (b : Buf) : List HostOp := asmCommand (.rd b true 2)

/-- `RD16LE b` (R108). -/
def asmRd16le (b : Buf) : List HostOp := asmCommand (.rd b false 2)

/-- `RD24BE b` (R108). -/
def asmRd24be (b : Buf) : List HostOp := asmCommand (.rd b true 3)

/-- `RD32BE b` (R108). -/
def asmRd32be (b : Buf) : List HostOp := asmCommand (.rd b true 4)

/-- `RD32LE b` (R108). -/
def asmRd32le (b : Buf) : List HostOp := asmCommand (.rd b false 4)

/-- `RD64LE b` (R108). -/
def asmRd64le (b : Buf) : List HostOp := asmCommand (.rd b false 8)

/-- `CRCALL b` (R108): the host writes to LEN what the length register of `b` holds. -/
def State.asmCrcAll (s : State) (b : Buf) : List HostOp :=
  asmWr .pos 0 ++ asmWr .len (s.reg (lengthReg b)) ++ asmCommand (.crc b)

/-- `VERIFY b, e` and `VERIFY b, e, IGN` (R108). -/
def State.asmVerify (s : State) (b : Buf) (e : Word) (ign : Bool) : List HostOp :=
  asmWr .expect e ++ asmWr .pos 0 ++ asmWr .len (s.reg (lengthReg b)) ++ asmCommand (.crcchk b ign)

end Sys2Proof.Machine
end

