-- ==== Sys2Proof/Machine/Reference.lean ====
section
/-! DEFINITION. YAY0 and the varint as pure functions of the state at issue (R43), written from the rules that describe
the formats as a whole (R96, R101, R170, R190, R197). The machine runs them one stream operation a step; statements compare
the two. -/

namespace Sys2Proof.Machine

/-! ### The varint (R190, R101, R197) -/

/-- `varint(b, p0)` on the bytes from p0 to the end of the buffer, from the running `data` and `shift` on: the value, and
how many bytes were read (R190). -/
def varintLoop (data shift count : Nat) : List Byte → Except ErrKind (Nat × Nat)
  | [] => .error .truncatedInput
  | x :: xs =>
    let d1 := data + (x &&& 0x7F).toNat * shift
    if 2 ^ 64 ≤ d1 then .error .varintOverflow
    else if x &&& 0x80 ≠ 0 then .ok (d1, count + 1)
    else
      let d2 := d1 + shift * 128
      if 2 ^ 64 ≤ d2 then .error .varintOverflow else varintLoop d2 (shift * 128) (count + 1) xs

/-- `varint` from the first byte of a list (R190). -/
def varintDecode (xs : List Byte) : Except ErrKind (Nat × Nat) := varintLoop 0 1 0 xs

/-- The 7-bit groups, least significant first: `sum over i of (x_i AND 0x7F) * 128^i` (R101). -/
def varintGroups : List Byte → Nat
  | [] => 0
  | x :: xs => (x &&& 0x7F).toNat + 128 * varintGroups xs

/-- The cumulative offset of a varint of `k` bytes: `sum over i = 1 .. k-1 of 128^i` (R101). -/
def varintOffset : Nat → Nat
  | 0 => 0
  | 1 => 0
  | k + 2 => varintOffset (k + 1) + 128 ^ (k + 1)

/-- The bytes form one varint: all VB.CONT but the last, which is VB.END (R101). -/
def isVarint : List Byte → Bool
  | [] => false
  | [x] => x &&& 0x80 == 0x80
  | x :: y :: xs => x &&& 0x80 == 0 && isVarint (y :: xs)

/-- `encode(n)` with a bound on the number of bytes (R197). -/
def varintEncodeLoop : Nat → Nat → List Byte
  | 0, _ => []
  | fuel + 1, n =>
    if n / 128 = 0 then [BitVec.ofNat 8 (n % 128 + 0x80)]
    else BitVec.ofNat 8 (n % 128) :: varintEncodeLoop fuel (n / 128 - 1)

/-- `varint(n)` for n < 2^64: at most 10 bytes (R102, R197). -/
def varintEncode (n : Nat) : List Byte := varintEncodeLoop 10 n

/-! ### The Yay0 container (R95 to R97, R170) -/

/-- The copy of `n` bytes from distance `d + 1`, onto the bytes produced so far (R168). -/
def refCopy (size d : Nat) : Nat → List Byte → Except ErrKind (List Byte)
  | 0, out => .ok out
  | n + 1, out =>
    if size ≤ out.length then .error .boundsViolation
    else refCopy size d n (out ++ [out.getD (out.length - d - 1) 0])

/-- Two bytes, big-endian (R11). -/
def ref16 (inp : Nat → Byte) (a : Nat) : Nat := 256 * (inp a).toNat + (inp (a + 1)).toNat

/-- Four bytes, big-endian (R11). -/
def ref32 (inp : Nat → Byte) (a : Nat) : Nat := 65536 * ref16 inp a + ref16 inp (a + 2)

/-- The loop of R170 from its `k`-th operation on. `inp` gives the bytes of the input buffer, of readable length `L`. The
`k`-th operation is selected by bit `31 - (k mod 32)` of the word at `base + 16 + 4 * (k div 32)` (R96). `fuel` bounds the
number of operations; SIZE of them are enough (R164). -/
def refLoop (inp : Nat → Byte) (L base size : Nat) :
    Nat → Nat → Nat → Nat → List Byte → Except ErrKind (List Byte)
  | 0, _, _, _, out => .ok out
  | fuel + 1, k, pp, kp, out =>
    if size ≤ out.length then .ok out
    else if L < base + 16 + 4 * (k / 32) + 4 then .error .truncatedInput
    else if (ref32 inp (base + 16 + 4 * (k / 32))).testBit (31 - k % 32) then
      if L < kp + 1 then .error .truncatedInput
      else refLoop inp L base size fuel (k + 1) pp (kp + 1) (out ++ [inp kp])
    else if L < pp + 2 then .error .truncatedInput
    else
      let f := ref16 inp pp / 4096
      let d := ref16 inp pp % 4096
      if f = 0 then
        if L < kp + 1 then .error .truncatedInput
        else if out.length < d + 1 then .error .badReference
        else
          match refCopy size d ((inp kp).toNat + 18) out with
          | .error e => .error e
          | .ok out' => refLoop inp L base size fuel (k + 1) (pp + 2) (kp + 1) out'
      else if out.length < d + 1 then .error .badReference
      else
        match refCopy size d (f + 2) out with
        | .error e => .error e
        | .ok out' => refLoop inp L base size fuel (k + 1) (pp + 2) kp out'

/-- The whole command on an input of readable length `L`, with the output's capacity `cap`: the decompressed bytes, or the
first error met (R170). -/
def refYay0 (inp : Nat → Byte) (L base cap : Nat) : Except ErrKind (List Byte) :=
  if L < base + 4 then .error .truncatedInput
  else if ¬(inp base = 0x59 ∧ inp (base + 1) = 0x61 ∧ inp (base + 2) = 0x79 ∧ inp (base + 3) = 0x30) then
    .error .malformedHeader
  else if L < base + 16 then .error .truncatedInput
  else
    let size := ref32 inp (base + 4)
    if cap < size then .error .boundsViolation
    else refLoop inp L base size size 0 (base + ref32 inp (base + 8)) (base + ref32 inp (base + 12)) []

end Sys2Proof.Machine
end

