-- ==== Sys2Proof/Safety.lean ====
section
/-! DEFINITION. What counts as a sound state and as an unchanged one, in the terms the statements use. -/

namespace Sys2Proof.Machine

/-- What R41 and R42 say of the sequencer while a command is in flight, and that it belongs to the command in CMD. -/
def State.SeqOk (s : State) : Prop :=
  match s.seq with
  | .idle => s.busy = false
  | .issued => s.busy = true
  | .yay0 b q =>
    s.busy = true ∧ s.operandsOk = true ∧ decode (.command s.cmd) = .ok (.yay0 b) ∧
      q.op < q.size ∧ q.size ≤ s.outCap.toNat ∧ q.cb ≤ 32
  | .varint signed b q =>
    s.busy = true ∧ s.operandsOk = true ∧
      decode (.command s.cmd) = .ok (if signed then .vars b else .varu b) ∧
      ∃ k, k ≤ 9 ∧ q.p = s.pos.toNat + k ∧ q.shift = 128 ^ k ∧
        varintOffset (k + 1) ≤ q.data ∧ q.data < 2 ^ 64 ∧ (k = 0 ∨ q.p ≤ s.bufLen b)

/-- The invariant of the machine. -/
structure State.Inv (s : State) : Prop where
  /-- each memory has its canonical form -/
  wf : ∀ b, (s.mem b).wf = true
  /-- every known byte lies in the physical buffer (R35 to R37, R67) -/
  physical : ∀ b, ∀ c ∈ (s.mem b).cells, c.1 < s.physSize b
  /-- the block never leaves SRC or PAT unspecified (R35, R36) -/
  inputsKnown : s.src.stale = [] ∧ s.pat.stale = []
  /-- an event that left OUT unspecified has a number below the count of such events -/
  epochs : ∀ r ∈ s.out.stale, r.epoch < s.freeCount
  /-- ERR = 1 if and only if ERRCODE is not 0 (R27) -/
  errIff : s.err = true ↔ s.errcode ≠ none
  /-- MATCH is 0 after an error (R28) -/
  matchNoErr : s.matched = true → s.err = false
  /-- while BUSY = 1, DONE = ERR = MATCH = 0 (R33) -/
  busyFlags : s.busy = true → s.done = false ∧ s.err = false ∧ s.matched = false
  /-- while `rst` is asserted every register has its reset value (R270) -/
  heldReset : s.rst = true → ∀ r, s.reg r = 0
  /-- the sequencer fits the command in flight, and there is one exactly while BUSY = 1 (R25, R41, R42) -/
  seqOk : s.SeqOk

/-- The registers that no command writes, and the parameters (R8, R22): CMD, CTRL, SRC_LEN, PAT_LEN, OUT_CAP, LEN,
EXPECT, SRC_MAX, PAT_MAX, OUT_MAX. -/
def SameSetup (s t : State) : Prop :=
  t.cmd = s.cmd ∧ t.ie = s.ie ∧ t.srcLen = s.srcLen ∧ t.patLen = s.patLen ∧ t.outCap = s.outCap ∧
    t.len = s.len ∧ t.expect = s.expect ∧ t.srcMax = s.srcMax ∧ t.patMax = s.patMax ∧ t.outMax = s.outMax

/-- What belongs to the outside and no command writes: the reset input's level, what the outside does next, and what the
host's last read returned. -/
def SameOutside (s t : State) : Prop := t.rst = s.rst ∧ t.host = s.host ∧ t.rdata = s.rdata

/-- Every byte of a buffer reads as before. -/
def SameBuf (b : Buf) (s t : State) : Prop := ∀ a, t.byte b a = s.byte b a

/-- Every byte of every buffer reads as before. -/
def SameBufs (s t : State) : Prop := ∀ b, SameBuf b s t

/-- STATUS and ERRCODE after a successful completion, with the value of MATCH (R123). -/
def Succeeded (t : State) (matched : Bool) : Prop :=
  t.busy = false ∧ t.done = true ∧ t.err = false ∧ t.matched = matched ∧ t.errcode = none ∧ t.seq = .idle

/-- STATUS and ERRCODE after a completion with the error `e` (R233). -/
def Failed (t : State) (e : ErrKind) : Prop :=
  t.busy = false ∧ t.done = true ∧ t.err = true ∧ t.matched = false ∧ t.errcode = some e ∧ t.seq = .idle

/-- STATUS and ERRCODE are as they were: the command is still in flight (R33). -/
def SameFlags (s t : State) : Prop :=
  t.busy = s.busy ∧ t.done = s.done ∧ t.err = s.err ∧ t.matched = s.matched ∧ t.errcode = s.errcode

/-- The state after a successful completion that writes nothing but the flags (R123). -/
def State.afterSuccess (s : State) (matched : Bool) : State :=
  { s with busy := false, done := true, err := false, matched := matched, errcode := none, seq := .idle }

/-- The state after a completion with an error that writes nothing but the flags and ERRCODE (R233). -/
def State.afterError (s : State) (e : ErrKind) : State :=
  { s with busy := false, done := true, err := true, matched := false, errcode := some e, seq := .idle }

/-- The state after an error of YAY0 or SWAP16 in its own steps that wrote no byte: OUT_LEN is 0 as well (R233). -/
def State.afterOwnError (s : State) (e : ErrKind) : State := { s.afterError e with outLen := 0 }

/-- `n` steps of the machine, ending at the first stop. -/
def runSteps : Nat → State → Result
  | 0, s => .next s
  | n + 1, s =>
    match step s with
    | .next t => runSteps n t
    | .fault r => .fault r
    | .refused r => .refused r

/-- How many bytes of OUT have a declared content: those a YAY0 in flight has produced, otherwise OUT_LEN of them (R31,
R37). -/
def State.declaredOut (s : State) : Nat :=
  match s.seq with
  | .yay0 _ q => q.op
  | _ => s.outLen.toNat

/-- Two states that differ at most in bytes the host has not declared valid: those at or beyond SRC_LEN and PAT_LEN, and
the bytes of OUT beyond `declaredOut` (U1, R31). -/
structure SameDeclared (s t : State) : Prop where
  rest : t = { s with src := t.src, pat := t.pat, out := t.out }
  src : ∀ a, a < s.srcLen.toNat → t.byte .src a = s.byte .src a
  pat : ∀ a, a < s.patLen.toNat → t.byte .pat a = s.byte .pat a
  out : ∀ a, a < s.declaredOut → t.byte .out a = s.byte .out a

/-- The flags, with ERRCODE: the four bits of STATUS and the kind of the error that ERR reports (R44, R29). -/
structure Flags where
  busy : Bool
  done : Bool
  err : Bool
  matched : Bool
  errcode : Option ErrKind
deriving DecidableEq, Repr

/-- The state with these flags. -/
def State.withFlags (s : State) (f : Flags) : State :=
  { s with busy := f.busy, done := f.done, err := f.err, matched := f.matched, errcode := f.errcode }

/-- The action `act` at `s` reads no flag (R44). Another value of IE changes nothing but IE. Other values of BUSY, DONE, ERR,
MATCH and ERRCODE change nothing when the command ends, which sets them all; otherwise they are carried through. -/
def ReadsNoFlag (act : State → Result) (s : State) : Prop :=
  ∀ t, act s = .next t →
    (∀ x, act { s with ie := x } = .next { t with ie := x }) ∧
    (t.seq = .idle → ∀ f, act (s.withFlags f) = .next t) ∧
    (t.seq ≠ .idle → ∀ f, act (s.withFlags f) = .next (t.withFlags f))

/-- The words R93 lists as illegal. -/
def IllegalWord (w : Word) : Prop :=
  let op := w.toNat % 16
  let buf := w.toNat / 16 % 4
  let ign := w.toNat / 64 % 2
  let be := w.toNat / 128 % 2
  let n := w.toNat / 256 % 16
  8 ≤ op ∨ buf = 3 ∨ (buf = 2 ∧ (op = 3 ∨ op = 6)) ∨ (op = 0 ∧ (buf ≠ 0 ∨ ign ≠ 0 ∨ be ≠ 0 ∨ n ≠ 0)) ∨
    (ign = 1 ∧ op ≠ 2) ∨ ((be = 1 ∨ n ≠ 0) ∧ op ≠ 7) ∨ (op = 7 ∧ (n = 0 ∨ 8 < n)) ∨ w.toNat / 4096 ≠ 0

/-- The error kinds a command can raise (R232). -/
def errorsOf : Instr → List ErrKind
  | .nop => [.illegalCommand]
  | .crc _ => [.illegalCommand, .truncatedInput]
  | .crcchk _ _ => [.illegalCommand, .truncatedInput, .checksumMismatch]
  | .yay0 _ => [.illegalCommand, .truncatedInput, .malformedHeader, .boundsViolation, .badReference]
  | .varu _ => [.illegalCommand, .truncatedInput, .varintOverflow]
  | .vars _ => [.illegalCommand, .truncatedInput, .varintOverflow]
  | .swap16 _ => [.illegalCommand, .truncatedInput, .boundsViolation]
  | .rd _ _ _ => [.illegalCommand, .truncatedInput]
  | .lit _ | .copy _ _ | .lcopy _ _ | .vbCont _ | .vbEnd _ => []

end Sys2Proof.Machine
end

