-- ==== Sys2Proof/Certificates/Slice0/Obligations.lean ====
section
/-! DEFINITION. The statements for the provers, from the numbered rules of spec/. -/

open Sys2Proof Sys2Proof.Machine

/-! ### Encoding -/

/-- R106, R98, R100: words written out from the encodings decode to the instructions they stand for. -/
def Obligations.SpecWordsDecode : Prop :=
  decode (.command 0x00000000) = .ok .nop ∧
  decode (.command 0x00000011) = .ok (.crc .pat) ∧
  decode (.command 0x00000062) = .ok (.crcchk .out true) ∧
  decode (.command 0x00000013) = .ok (.yay0 .pat) ∧
  decode (.command 0x00000024) = .ok (.varu .out) ∧
  decode (.command 0x00000005) = .ok (.vars .src) ∧
  decode (.command 0x00000016) = .ok (.swap16 .pat) ∧
  decode (.command 0x00000417) = .ok (.rd .pat false 4) ∧
  decode (.command 0x000004A7) = .ok (.rd .out true 4) ∧
  decode (.yay0Op true [] [0x41]) = .ok (.lit 0x41) ∧
  decode (.yay0Op false [0x40, 0x02] []) = .ok (.copy 4 2) ∧
  decode (.yay0Op false [0x00, 0x00] [0xFF]) = .ok (.lcopy 0 0xFF) ∧
  decode (.varintByte 0x7F) = .ok (.vbCont 0x7F) ∧
  decode (.varintByte 0x83) = .ok (.vbEnd 3)

/-- Decode and encode agree: every well-formed instruction is read back from its own code. -/
def Obligations.DecodeReadsEncode : Prop :=
  ∀ i : Instr, i.wellFormed = true → decode (encode i) = .ok i

/-- The other direction: what decodes is well-formed and is the code of what it decodes to, so a code has one meaning and no
bit of it is dropped. -/
def Obligations.DecodedIsItsEncoding : Prop :=
  ∀ (c : Code) (i : Instr), decode c = .ok i → i.wellFormed = true ∧ encode i = c

/-- R92: a word decodes to a command if and only if it matches that command's row, its mask, match and side
conditions; exactly 68 words are legal, in the numbers the rule gives. -/
def Obligations.LegalWordsAreTheRows : Prop :=
  (∀ w : Word,
    let buf := w.toNat / 16 % 4
    let n := w.toNat / 256 % 16
    (decode (.command w) = .ok .nop ↔ w &&& 0xFFFFFFFF = 0x00000000) ∧
    ((∃ b, decode (.command w) = .ok (.crc b)) ↔ w &&& 0xFFFFFFCF = 0x00000001 ∧ buf ≠ 3) ∧
    ((∃ b ign, decode (.command w) = .ok (.crcchk b ign)) ↔ w &&& 0xFFFFFF8F = 0x00000002 ∧ buf ≠ 3) ∧
    ((∃ b, decode (.command w) = .ok (.yay0 b)) ↔ w &&& 0xFFFFFFEF = 0x00000003) ∧
    ((∃ b, decode (.command w) = .ok (.varu b)) ↔ w &&& 0xFFFFFFCF = 0x00000004 ∧ buf ≠ 3) ∧
    ((∃ b, decode (.command w) = .ok (.vars b)) ↔ w &&& 0xFFFFFFCF = 0x00000005 ∧ buf ≠ 3) ∧
    ((∃ b, decode (.command w) = .ok (.swap16 b)) ↔ w &&& 0xFFFFFFEF = 0x00000006) ∧
    ((∃ b be k, decode (.command w) = .ok (.rd b be k)) ↔
      w &&& 0xFFFFF04F = 0x00000007 ∧ buf ≠ 3 ∧ 1 ≤ n ∧ n ≤ 8) ∧
    (∀ i, decode (.command w) = .ok i → i.isCommand = true)) ∧
  ∃ legal : List Word, legal.Nodup ∧ legal.length = 68 ∧
    (∀ w, w ∈ legal ↔ ∃ i, decode (.command w) = .ok i) ∧
    (List.range 8).map (fun k => (legal.filter (fun w => w.toNat % 16 == k)).length) = [1, 3, 6, 2, 3, 3, 2, 48]

/-- R93: the illegal words are those the rule lists; such a word is stored in CMD, issues, and completes in the block's next
step with IllegalCommand, and nothing but CMD, the flags and ERRCODE changes. -/
def Obligations.IllegalWordsRaiseIllegalCommand : Prop :=
  ∀ w : Word,
    (IllegalWord w ↔ ¬∃ i, decode (.command w) = .ok i) ∧
    ∀ (s : State) (rest : List HostOp), IllegalWord w → s.busy = false → s.rst = false →
      s.host = .regWrite 0x00 4 w :: .run :: rest →
      ∃ t, step s = .next t ∧ t.cmd = w ∧ t.busy = true ∧
        step t = .next ({ s with cmd := w, host := rest }.afterError .illegalCommand)

/-! ### Reset -/

/-- R46: the values after reset. That the unspecified contents of SRC, PAT and OUT are free values is the model's form of
"unspecified" (log 1), and that the reset input is released is the model's choice (log 13). -/
def Obligations.ResetValues : Prop :=
  let s := State.reset
  s.cmd = 0 ∧ s.reg .status = 0 ∧ s.busy = false ∧ s.done = false ∧ s.err = false ∧ s.matched = false ∧
  s.reg .errcode = 0 ∧ s.reg .ctrl = 0 ∧ s.ie = false ∧
  s.srcLen = 0 ∧ s.patLen = 0 ∧ s.outCap = 0 ∧ s.outLen = 0 ∧ s.pos = 0 ∧ s.len = 0 ∧ s.expect = 0 ∧
  s.reg .resultLo = 0 ∧ s.reg .resultHi = 0 ∧ s.irq = false ∧ s.seq = .idle ∧ s.rst = false ∧
  (∀ b a, s.byte b a = Config.powerOnByte b a)

/-- The invariant holds after reset. -/
def Obligations.ResetIsSound : Prop := State.reset.Inv

/-- Every step keeps the invariant: the memories' canonical form and physical bounds, ERR with ERRCODE, the flags while busy,
and the ranges of the sequencer in flight. -/
def Obligations.StepKeepsInvariant : Prop :=
  ∀ s t : State, s.Inv → step s = .next t → t.Inv

/-- R270, R271: reset. Asserting the input gives every register its reset value from any state, in the middle of a command
too; SRC and PAT keep every byte; OUT keeps every byte but, when a YAY0 or SWAP16 is abandoned, those below the OUT_CAP it had.
While it is held, and at the moment it is released, every register, `irq` and the sequencer have their reset values whatever
the host does: a write to any register, CMD included, has no effect, and no buffer changes but by a host write to it. Releasing it
changes nothing else. That the parameters and the outside's own list are no registers, and that the host reaches the
buffers while it is held, is the model's choice (log 13). -/
def Obligations.RstInputResets : Prop :=
  ∀ (s : State) (rest : List HostOp),
    (s.host = .rst true :: rest →
      ∃ t, step s = .next t ∧ t.rst = true ∧
        (∀ r, t.reg r = 0) ∧ t.irq = false ∧ t.seq = .idle ∧
        t.host = rest ∧ t.rdata = s.rdata ∧ t.srcMax = s.srcMax ∧ t.patMax = s.patMax ∧ t.outMax = s.outMax ∧
        t.src = s.src ∧ t.pat = s.pat ∧
        (∀ a, s.outCap.toNat ≤ a → t.byte .out a = s.byte .out a) ∧
        (s.busy = false → t.out = s.out) ∧
        ((∀ b, decode (.command s.cmd) ≠ .ok (.yay0 b) ∧ decode (.command s.cmd) ≠ .ok (.swap16 b)) → t.out = s.out)) ∧
    (s.Inv → s.rst = true →
      (∀ r, s.reg r = 0) ∧ s.irq = false ∧ s.seq = .idle ∧
      (∀ t, step s = .next t → (∀ r, t.reg r = 0) ∧ t.irq = false ∧ t.seq = .idle) ∧
      (∀ t, step s = .next t → (∀ level, s.host.head? ≠ some (.rst level)) → t.rst = true) ∧
      (∀ t, step s = .next t → (∀ b a v, s.host.head? ≠ some (.bufWrite b a v)) → SameBufs s t) ∧
      (∀ off v, s.host = .regWrite off 4 v :: rest → off % 4 = 0 → step s = .next { s with host := rest }) ∧
      (s.host = .rst false :: rest → step s = .next { s with host := rest, rst := false })) ∧
    (s.rst = false → s.host = .rst false :: rest → step s = .next { s with host := rest })

/-! ### The step -/

/-- A step runs the instruction the block fetches: the issued command word, the next varint byte, or the next Yay0
operation. The step adds only the read of a control word when the last one is used up. -/
def Obligations.StepRunsTheDecodedInstruction : Prop :=
  ∀ s : State, s.host = [] →
    (∀ i, s.seq = .issued → decode (.command s.cmd) = .ok i → step s = exec i s) ∧
    (∀ signed b q i, s.seq = .varint signed b q → q.p + 1 ≤ s.bufLen b →
      decode (.varintByte (s.byte b q.p)) = .ok i → step s = exec i s) ∧
    (∀ b q c q' i, s.seq = .yay0 b q → s.yay0Fetch b q = .ok (c, q') → decode c = .ok i →
      step s = exec i { s with seq := .yay0 b q' } ∧
      (q.cb ≠ 0 → q' = q) ∧
      (q.cb = 0 → q.cp + 4 ≤ s.bufLen b ∧
        q' = { q with cw := be32 (s.bytes b q.cp 4), cp := q.cp + 4, cb := 32 }))

/-- The instruction placed by `withFetchWord` is the one the very next step runs, for a row of any size: a command word, a
varint byte, and the Yay0 operations. Where it is placed is the model's choice (log 14). -/
def Obligations.PlacedInstructionRunsNext : Prop :=
  ∀ (s : State) (nbits w : Nat) (i : Instr), decodeTableWord nbits w = some i →
    nbits ∈ [8, 9, 16, 17, 24, 25, 32] ∧ (s.withFetchWord nbits w).rst = false ∧
    step (s.withFetchWord nbits w) = exec i (s.withFetchWord nbits w)

/-- R98: every control bit and every pair value selects exactly one operation: what the block fetches from the streams of a
YAY0 command, when the bytes exist, is LIT for control bit 1, LCOPY for bit 0 with F = 0, and COPY for bit 0 otherwise, with the
operand bytes at KP and PP. -/
def Obligations.Yay0FetchSelectsOperation : Prop :=
  ∀ (s : State) (b : Buf) (q : Yay0Seq),
    0 < q.cb →
    let pair := 256 * (s.byte b q.pp).toNat + (s.byte b (q.pp + 1)).toNat
    let x := s.byte b q.kp
    (q.cw.getLsbD 31 = true →
      if s.bufLen b < q.kp + 1 then s.yay0Fetch b q = .error .truncatedInput
      else ∃ c, s.yay0Fetch b q = .ok (c, q) ∧ decode c = .ok (.lit x)) ∧
    (q.cw.getLsbD 31 = false →
      if s.bufLen b < q.pp + 2 then s.yay0Fetch b q = .error .truncatedInput
      else if pair / 4096 ≠ 0 then
        ∃ c, s.yay0Fetch b q = .ok (c, q) ∧
          decode c = .ok (.copy (BitVec.ofNat 4 (pair / 4096)) (BitVec.ofNat 12 (pair % 4096)))
      else if s.bufLen b < q.kp + 1 then s.yay0Fetch b q = .error .truncatedInput
      else ∃ c, s.yay0Fetch b q = .ok (c, q) ∧ decode c = .ok (.lcopy (BitVec.ofNat 12 (pair % 4096)) x))

/-- R230: errors are values the host reads. The block itself never stops, whatever its state. -/
def Obligations.BlockNeverStops : Prop :=
  ∀ s : State, s.host = [] → ∃ t, step s = .next t

/-- 40_common.md, "Every command terminates" (which the spec marks as derived), with its work bounds: within OUT_CAP + 11 steps
of the block. That a stream operation is one step is the model's choice (log 6). -/
def Obligations.EveryCommandTerminates : Prop :=
  ∀ s : State, s.Inv → s.host = [] →
    ∃ n t, n ≤ s.outCap.toNat + 11 ∧ runSteps n s = .next t ∧ t.busy = false

/-- R107: WAIT ends, with the block idle and STATUS read. What WAIT is in the model is log 19. -/
def Obligations.WaitEndsIdle : Prop :=
  ∀ (s : State) (rest : List HostOp), s.Inv → s.host = .wait :: rest →
    ∃ n t, n ≤ s.outCap.toNat + 12 ∧ runSteps n s = .next t ∧ t.host = rest ∧ t.busy = false ∧
      t.rdata = t.reg .status

/-! ### The host's side -/

/-- R23: CMD. A write while BUSY = 0 stores the word and issues the command; a write while BUSY = 1 is ignored; a read
returns the stored word, 0 after reset; the block never writes CMD. A write while `rst` is asserted has no effect (R270). -/
def Obligations.CmdWriteIssues : Prop :=
  State.reset.busRead 0x00 = 0 ∧ ∀ (s : State) (rest : List HostOp),
    (∀ w, s.host = .regWrite 0x00 4 w :: rest → s.busy = false → s.rst = false →
      step s = .next { s with host := rest, cmd := w, busy := true, done := false, err := false, matched := false,
                              errcode := none, seq := .issued }) ∧
    (∀ w, s.host = .regWrite 0x00 4 w :: rest → s.busy = true ∨ s.rst = true → step s = .next { s with host := rest }) ∧
    (s.host = .regRead 0x00 4 :: rest → step s = .next { s with host := rest, rdata := s.cmd }) ∧
    (∀ t, s.host = [] → step s = .next t → t.cmd = s.cmd)

/-- R24: STATUS. Its bits, and the effect of a host write: bit 1 clears DONE while BUSY = 0, and nothing else has any effect.
While `rst` is asserted no write has any (R270). -/
def Obligations.StatusBitsAndWrite : Prop :=
  ∀ s : State,
    (s.reg .status).toNat = s.busy.toNat + 2 * s.done.toNat + 4 * s.err.toNat + 8 * s.matched.toNat ∧
    State.reset.reg .status = 0 ∧
    ∀ (rest : List HostOp) (v : Word), s.host = .regWrite 0x04 4 v :: rest →
      (s.busy = false → s.rst = false → v.getLsbD 1 = true → step s = .next { s with host := rest, done := false }) ∧
      (s.busy = false → v.getLsbD 1 = false → step s = .next { s with host := rest }) ∧
      (s.busy = true ∨ s.rst = true → step s = .next { s with host := rest })

/-- R22, R30, R31: the register map, through the step. A read of an aligned word returns what the register at that offset
holds and changes nothing else, whether BUSY or not. A write while BUSY = 0 and `rst` is released: an operand register takes the
word whatever its value, and CTRL its bit 0; the read-only registers ignore it; an unlisted offset reads 0 and ignores writes;
every other register reads as before, and no byte of a buffer changes. -/
def Obligations.RegisterMap : Prop :=
  (∀ s : State, [0x00, 0x04, 0x08, 0x0C, 0x10, 0x14, 0x18, 0x1C, 0x20, 0x24, 0x28, 0x2C, 0x30].map s.busRead =
    [s.cmd, s.reg .status, s.reg .errcode, s.reg .ctrl, s.srcLen, s.patLen, s.outCap, s.outLen, s.pos, s.len, s.expect,
      s.reg .resultLo, s.reg .resultHi]) ∧
  (∀ (s : State) (rest : List HostOp) (off : Nat), s.host = .regRead off 4 :: rest → off % 4 = 0 →
    step s = .next { s with host := rest, rdata := s.busRead off }) ∧
  (∀ (s : State) (off : Nat), off % 4 ≠ 0 ∨ 0x34 ≤ off → s.busRead off = 0) ∧
  ∀ (s : State) (rest : List HostOp) (off : Nat) (v : Word), s.busy = false → s.rst = false →
    s.host = .regWrite off 4 v :: rest → off % 4 = 0 →
    ∃ t, step s = .next t ∧ t = { s.busWrite off v with host := rest } ∧
      (off ∈ [0x10, 0x14, 0x18, 0x1C, 0x20, 0x24, 0x28] → t.busRead off = v) ∧
      (off = 0x0C → t.busRead off = v &&& 1) ∧
      (off ∈ [0x08, 0x2C, 0x30] ∨ 0x34 ≤ off → t = { s with host := rest }) ∧
      (off ≠ 0x00 → (∀ off', off' ≠ off → t.busRead off' = s.busRead off') ∧ SameBufs s t ∧
        t.busy = s.busy ∧ t.seq = s.seq ∧ t.rst = s.rst ∧ t.rdata = s.rdata)

/-- R33: while BUSY = 1 every register write is ignored, STATUS reads as BUSY alone and ERRCODE as 0, and no step of the block
that leaves BUSY = 1 changes what any register reads. -/
def Obligations.RegistersFrozenWhileBusy : Prop :=
  ∀ s : State, s.Inv → s.busy = true →
    (∀ off v rest, s.host = .regWrite off 4 v :: rest → off % 4 = 0 → step s = .next { s with host := rest }) ∧
    s.reg .status = 1 ∧ s.reg .errcode = 0 ∧
    (∀ t, s.host = [] → step s = .next t → t.busy = true → ∀ r, t.reg r = s.reg r)

/-- R240: the interrupt wire is DONE AND IE; it becomes pending at every completion, successful or not; it is cleared by the
host writing 1 to bit 1 of STATUS, by the issue of the next command, and by reset. -/
def Obligations.IrqRaisedByEveryCompletion : Prop :=
  ∀ s : State,
    s.irq = (s.done && s.ie) ∧
    (∀ t, s.Inv → s.host = [] → s.busy = true → step s = .next t → t.busy = false → t.done = true ∧ t.irq = s.ie) ∧
    (∀ v, s.busy = false → s.rst = false → v.getLsbD 1 = true → (s.busWrite 0x04 v).irq = false) ∧
    (∀ w, s.busy = false → s.rst = false → (s.busWrite 0x00 w).irq = false) ∧
    s.applyReset.irq = false ∧ (s.Inv → s.rst = true → s.irq = false)

/-- R27: ERR is cleared by issue, set by a completion with an error, left 0 by a successful one, cleared by reset; and in
every sound state it is 1 if and only if ERRCODE is not 0. -/
def Obligations.ErrIffErrcode : Prop :=
  ∀ s : State,
    (∀ w, (s.issue w).err = false) ∧ (∀ e o, (s.raise e o).err = true) ∧ (∀ m, (s.complete m).err = false) ∧
    s.applyReset.err = false ∧ (s.Inv → (s.err = true ↔ s.reg .errcode ≠ 0))

/-- U3, R281; the refusal is the model's (log 9): while BUSY = 1 a host write of any buffer and a host read of OUT are steps the model does not have; a read
of SRC or PAT is harmless. -/
def Obligations.BufferHazardsRefused : Prop :=
  ∀ (s : State) (rest : List HostOp) (b : Buf) (a : Nat) (v : Byte), s.busy = true →
    (s.host = .bufWrite b a v :: rest → step s = .refused (.bufferInUse b)) ∧
    (s.host = .bufRead .out a :: rest → step s = .refused (.bufferInUse .out)) ∧
    (s.host = .bufRead b a :: rest → b ≠ .out → a < s.physSize b →
      step s = .next { s with host := rest, rdata := (s.byte b a).setWidth 32 })

/-- R35 to R37, R60: while idle, a host write of a byte of a buffer is read back, every other byte of every buffer reads as
before and no register changes; an access beyond the buffer's physical size is a fault (the model's choice, log 10). -/
def Obligations.HostBufferWrite : Prop :=
  ∀ (s : State) (rest : List HostOp) (b : Buf) (a : Nat) (v : Byte), s.busy = false →
    s.host = .bufWrite b a v :: rest →
    (s.physSize b ≤ a → step s = .fault (.noSuchByte b a)) ∧
    (a < s.physSize b → ∃ t, step s = .next t ∧ t.byte b a = v ∧
      (∀ b' a', (b', a') ≠ (b, a) → t.byte b' a' = s.byte b' a') ∧
      (∀ r, t.reg r = s.reg r) ∧ t.seq = s.seq ∧ t.rst = s.rst ∧ t.rdata = s.rdata ∧ t.host = rest ∧ SameSetup s t)

/-- U4, R71: a register access that is not one aligned 32-bit word is refused. -/
def Obligations.OddRegisterAccessRefused : Prop :=
  ∀ (s : State) (rest : List HostOp) (off width : Nat) (v : Word), width ≠ 4 ∨ off % 4 ≠ 0 →
    (s.host = .regRead off width :: rest → step s = .refused (.busAccess off width)) ∧
    (s.host = .regWrite off width v :: rest → step s = .refused (.busAccess off width))

/-! ### What commands do -/

/-- R66: MemRead raises TruncatedInput when `a + n > BufLen(b)`, the sum exact, and otherwise gives the `n` bytes. BufLen is the
length register of the buffer. -/
def Obligations.MemReadIsExact : Prop :=
  ∀ (s : State) (b : Buf) (a n : Nat),
    (s.bufLen .src = s.srcLen.toNat ∧ s.bufLen .pat = s.patLen.toNat ∧ s.bufLen .out = s.outLen.toNat) ∧
    (s.bufLen b < a + n → s.memRead b a n = .error .truncatedInput) ∧
    (a + n ≤ s.bufLen b → ∃ xs, s.memRead b a n = .ok xs ∧ xs.length = n ∧
      ∀ i, i < n → xs[i]? = some (s.byte b (a + i))) ∧
    (2 ^ 32 ≤ a → 1 ≤ n → s.memRead b a n = .error .truncatedInput)

/-- R122: the common operand check. Every command, NOP included, raises IllegalCommand when a length register exceeds its
limit, and nothing but the flags and ERRCODE changes; after the check every offset below a buffer's readable length exists and
every offset below OUT_CAP is writable. -/
def Obligations.CommonOperandCheck : Prop :=
  ∀ s : State,
    (s.operandsOk = true ↔ ¬(s.srcMax.toNat < s.srcLen.toNat ∨ s.patMax.toNat < s.patLen.toNat ∨
      s.outMax.toNat < s.outCap.toNat ∨ s.outCap.toNat < s.outLen.toNat)) ∧
    (∀ i : Instr, i.isCommand = true → s.operandsOk = false → exec i s = .next (s.afterError .illegalCommand)) ∧
    (s.operandsOk = true → (∀ b, s.bufLen b ≤ s.physSize b) ∧ s.outCap.toNat ≤ s.physSize .out)

/-- R94, R121: the forms without an encoding. A command whose word is illegal raises IllegalCommand, and nothing but the
flags and ERRCODE changes. Running such a form, which the decoder never gives, is the model's choice (log 15). -/
def Obligations.IllFormedCommandsRaiseIllegalCommand : Prop :=
  ∀ (i : Instr) (s : State), i.isCommand = true →
    (i.wellFormed = false ↔ (i = .yay0 .out ∨ i = .swap16 .out ∨ ∃ b be n, i = .rd b be n ∧ (n.toNat = 0 ∨ 8 < n.toNat))) ∧
    (i.wellFormed = false → exec i s = .next (s.afterError .illegalCommand))

/-- Log 7, the model's choice: a stream operation executed where no command of its language is in flight is refused, and the
block's own steps never do that. -/
def Obligations.StreamOperationsNeedTheirCommand : Prop :=
  (∀ (i : Instr) (s : State),
    ((∃ k, i = .lit k) ∨ (∃ f d, i = .copy f d) ∨ ∃ d e, i = .lcopy d e) →
      (∀ b q, s.seq ≠ .yay0 b q) → exec i s = .refused .noStream) ∧
  (∀ (i : Instr) (s : State), ((∃ v, i = .vbCont v) ∨ ∃ v, i = .vbEnd v) →
      (∀ g b q, s.seq ≠ .varint g b q) → exec i s = .refused .noStream) ∧
  ∀ s : State, blockStep s ≠ .refused .noStream

/-- R126: NOP. -/
def Obligations.NopCompletes : Prop :=
  decode (.command 0x00000000) = .ok .nop ∧
  (∀ s : State, s.operandsOk = true → exec .nop s = .next (s.afterSuccess false)) ∧
  (∀ s : State, s.operandsOk = false → exec .nop s = .next (s.afterError .illegalCommand)) ∧
  (∃ t, runSteps 2 { State.reset with host := [.regWrite 0x00 4 0x00000000, .run] } = .next t ∧
    t.reg .status = 0x00000002 ∧ t.reg .errcode = 0)

/-- R145: CRC, every case: the CRC-32 of the range in RESULT, or TruncatedInput with RESULT unchanged, or IllegalCommand. -/
def Obligations.CrcComputes : Prop :=
  (∀ b : Buf, decode (.command (BitVec.ofNat 32 (0x01 + 16 * b.field.toNat))) = .ok (.crc b)) ∧
  (∀ (b : Buf) (s : State),
    (s.operandsOk = false → exec (.crc b) s = .next (s.afterError .illegalCommand)) ∧
    (s.operandsOk = true → s.bufLen b < s.pos.toNat + s.len.toNat →
      exec (.crc b) s = .next (s.afterError .truncatedInput)) ∧
    (s.operandsOk = true → s.pos.toNat + s.len.toNat ≤ s.bufLen b →
      exec (.crc b) s =
        .next { s.afterSuccess false with
          result := BitVec.ofNat 64 (crc32 (s.bytes b s.pos.toNat s.len.toNat)).toNat }) ∧
    (s.operandsOk = true → s.len = 0 → s.pos.toNat ≤ s.bufLen b →
      exec (.crc b) s = .next { s.afterSuccess false with result := 0 })) ∧
  (∀ s : State, s.operandsOk = true → s.srcLen = 1 → s.pos = 0 → s.len = 1 → s.byte .src 0 = 0x61 →
    exec (.crc .src) s = .next { s.afterSuccess false with result := 0x00000000E8B7BE43 })

/-- R146: CRCCHK, every case: RESULT is the CRC and MATCH the comparison with EXPECT; a difference is ChecksumMismatch, with
the CRC in RESULT, unless IGN is 1; and the rule's three examples. -/
def Obligations.CrcchkCompares : Prop :=
  (∀ (b : Buf) (ign : Bool),
    decode (.command (BitVec.ofNat 32 (0x02 + 16 * b.field.toNat + 64 * ign.toNat))) = .ok (.crcchk b ign)) ∧
  (∀ (b : Buf) (ign : Bool) (s : State),
    let c := crc32 (s.bytes b s.pos.toNat s.len.toNat)
    let r : DWord := BitVec.ofNat 64 c.toNat
    (s.operandsOk = false → exec (.crcchk b ign) s = .next (s.afterError .illegalCommand)) ∧
    (s.operandsOk = true → s.bufLen b < s.pos.toNat + s.len.toNat →
      exec (.crcchk b ign) s = .next (s.afterError .truncatedInput)) ∧
    (s.operandsOk = true → s.pos.toNat + s.len.toNat ≤ s.bufLen b → c = s.expect →
      exec (.crcchk b ign) s = .next { s.afterSuccess true with result := r }) ∧
    (s.operandsOk = true → s.pos.toNat + s.len.toNat ≤ s.bufLen b → c ≠ s.expect → ign = true →
      exec (.crcchk b ign) s = .next { s.afterSuccess false with result := r }) ∧
    (s.operandsOk = true → s.pos.toNat + s.len.toNat ≤ s.bufLen b → c ≠ s.expect → ign = false →
      exec (.crcchk b ign) s = .next { s.afterError .checksumMismatch with result := r }) ∧
    (s.len = 0 → c = 0)) ∧
  (∀ s : State, s.operandsOk = true → s.srcLen = 1 → s.pos = 0 → s.len = 1 → s.byte .src 0 = 0x61 →
    (s.expect = 0xE8B7BE43 → ∃ t, exec (.crcchk .src false) s = .next t ∧ t.reg .status = 0x0000000A) ∧
    (s.expect = 0 → ∃ t, exec (.crcchk .src false) s = .next t ∧ t.reg .status = 0x00000006 ∧ t.reg .errcode = 3 ∧
      t.reg .resultLo = 0xE8B7BE43) ∧
    (s.expect = 0 → ∃ t, exec (.crcchk .src true) s = .next t ∧ t.reg .status = 0x00000002))

/-- R147: IGN suppresses exactly one thing, the raise of ChecksumMismatch: with IGN = 1 CRCCHK never raises it, and where the
form without IGN does not raise it the two forms do the same. -/
def Obligations.IgnSuppressesOnlyMismatch : Prop :=
  ∀ (b : Buf) (s t u : State), exec (.crcchk b false) s = .next t → exec (.crcchk b true) s = .next u →
    u.errcode ≠ some .checksumMismatch ∧
    (t.errcode ≠ some .checksumMismatch → u = t) ∧
    (t.errcode = some .checksumMismatch →
      u = { t with err := false, errcode := none } ∧ u.matched = false)

/-- R142: the two vectors of the source, the second with its eight intermediate values. -/
def Obligations.CrcVectors : Prop :=
  crc32 [] = 0x00000000 ∧ crc32 [0x61] = 0xE8B7BE43 ∧
  crcInit ^^^ (0x61 : Byte).setWidth 32 = 0xFFFFFF9E ∧
  (List.range 9).map (fun n => crcShifts n 0xFFFFFF9E) =
    [0xFFFFFF9E, 0x7FFFFFCF, 0xD2477CC7, 0x849B3D43, 0xAFF51D81, 0xBA420DE0, 0x5D2106F0, 0x2E908378, 0x174841BC]

/-- 41_crc32.md, "Table-driven update" (which the spec marks as derived): it is the bitwise update, for every register value
and every byte. -/
def Obligations.TableDrivenUpdate : Prop :=
  (∀ (c : Word) (m : Byte), crcUpd c m = crcUpdTable c m) ∧
  crcTable.length = 256 ∧ crcTable[0x9E]? = some 0x17B7BE43 ∧ crcUpd 0xFFFFFFFF 0x61 = 0x174841BC

/-- 95_test_vectors.md K11, for every message (an inference of the model's author): a message followed by its own CRC, least significant byte first, always has the CRC 0x2144DF1C. -/
def Obligations.CrcResidue : Prop :=
  ∀ ms : List Byte,
    let c := crc32 ms
    crc32 (ms ++ [c.extractLsb' 0 8, c.extractLsb' 8 8, c.extractLsb' 16 8, c.extractLsb' 24 8]) = 0x2144DF1C

/-- R161, R162, R163: YAY0 up to its loop. The checks in the order of R170: the magic, the header, the capacity; then the
sequencer starts at the offsets of the header, counted from the base, or, when the declared size is 0, the command completes.
No byte of any buffer is written. -/
def Obligations.Yay0ChecksAndStarts : Prop :=
  ∀ (b : Buf) (s : State), b ≠ .out → s.operandsOk = true →
    let base := s.pos.toNat
    let x := s.byte b
    let size := ref32 x (base + 4)
    let magic := x base = 0x59 ∧ x (base + 1) = 0x61 ∧ x (base + 2) = 0x79 ∧ x (base + 3) = 0x30
    (s.bufLen b < base + 4 → exec (.yay0 b) s = .next (s.afterOwnError .truncatedInput)) ∧
    (base + 4 ≤ s.bufLen b → ¬magic → exec (.yay0 b) s = .next (s.afterOwnError .malformedHeader)) ∧
    (base + 4 ≤ s.bufLen b → magic → s.bufLen b < base + 16 →
      exec (.yay0 b) s = .next (s.afterOwnError .truncatedInput)) ∧
    (base + 16 ≤ s.bufLen b → magic → s.outCap.toNat < size →
      exec (.yay0 b) s = .next (s.afterOwnError .boundsViolation)) ∧
    (base + 16 ≤ s.bufLen b → magic → size ≤ s.outCap.toNat → 0 < size →
      exec (.yay0 b) s = .next { s with
        seq := .yay0 b
          { size := size, cp := base + 16, cw := 0, cb := 0, pp := base + ref32 x (base + 8),
            kp := base + ref32 x (base + 12), op := 0 } }) ∧
    (base + 16 ≤ s.bufLen b → magic → size = 0 →
      exec (.yay0 b) s = .next { s.afterSuccess false with outLen := 0, result := 0 })

/-- R166, R164, R169: LIT in a YAY0 in flight writes its byte at the output position and nothing else, moves the chunk cursor
and the output position by 1 and consumes its control bit; when it produces the last byte it completes the command. -/
def Obligations.LitAppendsOneByte : Prop :=
  ∀ (k : Byte) (s : State) (b : Buf) (q : Yay0Seq), s.seq = .yay0 b q → q.op < q.size → q.size < 2 ^ 32 →
    ∃ t, exec (.lit k) s = .next t ∧ t.byte .out q.op = k ∧
      (∀ a, a ≠ q.op → t.byte .out a = s.byte .out a) ∧
      (q.op + 1 < q.size →
        t = { s with
          out := t.out
          seq := .yay0 b { q with cw := q.cw <<< 1, cb := q.cb - 1, kp := q.kp + 1, op := q.op + 1 } }) ∧
      (q.op + 1 = q.size →
        t = { s.afterSuccess false with out := t.out, outLen := t.outLen, result := t.result } ∧
          t.outLen.toNat = q.size ∧ t.result.toNat = q.size)

/-- R167, R168: COPY and LCOPY in a YAY0 in flight. `i` is the instruction, `n` its length, `d` its distance less 1 and `ext` the
chunk bytes it takes. BadReference when the distance reaches before the output; otherwise BoundsViolation when the copy would
pass the declared size; otherwise each of the `n` bytes from the output position on equals the byte `d + 1` before it,
every other byte is as before, the cursors move past the operation, and the last byte produced completes the command. An
error leaves OUT_LEN 0 and no byte of OUT at or beyond OUT_CAP changed. -/
def Obligations.CopiesAppendBytes : Prop :=
  ∀ (i : Instr) (n d ext : Nat) (s : State) (b : Buf) (q : Yay0Seq),
    ((∃ f dd, i = .copy f dd ∧ f ≠ 0 ∧ n = f.toNat + 2 ∧ d = dd.toNat ∧ ext = 0) ∨
      (∃ dd e, i = .lcopy dd e ∧ n = e.toNat + 18 ∧ d = dd.toNat ∧ ext = 1)) →
    s.seq = .yay0 b q → q.op < q.size → q.size < 2 ^ 32 →
    ∃ t, exec i s = .next t ∧
      (q.op < d + 1 → Failed t .badReference) ∧
      (d + 1 ≤ q.op → q.size < q.op + n → Failed t .boundsViolation) ∧
      (q.op < d + 1 ∨ q.size < q.op + n →
        t.outLen = 0 ∧ t.pos = s.pos ∧ t.result = s.result ∧ SameSetup s t ∧ SameOutside s t ∧
          t.src = s.src ∧ t.pat = s.pat ∧ ∀ a, s.outCap.toNat ≤ a → t.byte .out a = s.byte .out a) ∧
      (d + 1 ≤ q.op → q.op + n ≤ q.size →
        (∀ j, j < n → t.byte .out (q.op + j) = t.byte .out (q.op + j - d - 1)) ∧
        (∀ a, a < q.op ∨ q.op + n ≤ a → t.byte .out a = s.byte .out a) ∧
        (q.op + n < q.size →
          t = { s with out := t.out, seq := .yay0 b { q with
            cw := q.cw <<< 1, cb := q.cb - 1, pp := q.pp + 2, kp := q.kp + ext, op := q.op + n } }) ∧
        (q.op + n = q.size →
          t = { s.afterSuccess false with out := t.out, outLen := t.outLen, result := t.result } ∧
            t.outLen.toNat = q.size ∧ t.result.toNat = q.size))

/-- R69, R168: the overlapping copy expands a run: it repeats the `d + 1` bytes before the output position, so byte `j` of
the copy is byte `j mod (d + 1)` of them as they were before the copy. -/
def Obligations.OverlappingCopyRepeats : Prop :=
  ∀ (d size n : Nat) (m m' : Memory) (op : Nat), d + 1 ≤ op → copyLoop d size n m op = some m' →
    ∀ j, j < n → m'.byteAt .out (op + j) = m.byteAt .out (op - (d + 1) + j % (d + 1))

/-- R96, R170: a YAY0 command, run one stream operation a step, ends as the pure function of the state at issue says, within
OUT_CAP + 1 steps. On success OUT holds the decompressed bytes, OUT_LEN and RESULT their number, and OUT keeps what lies
beyond them; on an error OUT_LEN is 0, POS and RESULT are as before, and OUT keeps what lies at or beyond OUT_CAP. -/
def Obligations.Yay0RunsToReference : Prop :=
  ∀ (b : Buf) (s : State), s.host = [] → s.seq = .issued → decode (.command s.cmd) = .ok (.yay0 b) →
    s.operandsOk = true →
    (∃ u, exec (.yay0 b) s = .next u ∧ step s = .next u) ∧
    ∃ n t, n ≤ s.outCap.toNat + 1 ∧ runSteps n s = .next t ∧
      match refYay0 (s.byte b) (s.bufLen b) s.pos.toNat s.outCap.toNat with
      | .ok xs =>
        t = { s.afterSuccess false with out := t.out, outLen := t.outLen, result := t.result } ∧
          t.outLen.toNat = xs.length ∧ t.result.toNat = xs.length ∧
          (∀ i, i < xs.length → xs[i]? = some (t.byte .out i)) ∧
          (∀ a, xs.length ≤ a → t.byte .out a = s.byte .out a)
      | .error e =>
        t = { s.afterOwnError e with out := t.out, freeCount := t.freeCount } ∧
          (∀ a, s.outCap.toNat ≤ a → t.byte .out a = s.byte .out a)

/-- R190, R194, R195 up to their loop: VARU and VARS start the varint decoder at POS; nothing else changes. -/
def Obligations.VarintCommandsStart : Prop :=
  ∀ (b : Buf) (s : State), s.operandsOk = true →
    exec (.varu b) s = .next { s with seq := .varint false b { p := s.pos.toNat, data := 0, shift := 1 } } ∧
    exec (.vars b) s = .next { s with seq := .varint true b { p := s.pos.toNat, data := 0, shift := 1 } }

/-- R193, R190, R192: VB.CONT in a VARU or VARS in flight adds its value bits and the next power of 128, each addition tested
against 2^64, and moves to the next byte. -/
def Obligations.VbContAccumulates : Prop :=
  ∀ (v : BitVec 7) (s : State) (signed : Bool) (b : Buf) (q : VarintSeq), s.seq = .varint signed b q →
    (q.data + v.toNat * q.shift + 128 * q.shift < 2 ^ 64 →
      exec (.vbCont v) s = .next { s with
        seq := .varint signed b
          { p := q.p + 1, data := q.data + v.toNat * q.shift + 128 * q.shift, shift := 128 * q.shift } }) ∧
    (2 ^ 64 ≤ q.data + v.toNat * q.shift + 128 * q.shift →
      exec (.vbCont v) s = .next (s.afterError .varintOverflow))

/-- R193, R194, R195: VB.END adds its value bits and completes the command: RESULT is the value, or for VARS the magnitude
`v div 2`, negative when bit 0 of the value is 1, in two's complement, and POS lies behind the byte; a value of 2^64 or more
is VarintOverflow. -/
def Obligations.VbEndCompletes : Prop :=
  ∀ (v : BitVec 7) (s : State) (signed : Bool) (b : Buf) (q : VarintSeq), s.seq = .varint signed b q →
    let d := q.data + v.toNat * q.shift
    (d < 2 ^ 64 → ∃ t, exec (.vbEnd v) s = .next t ∧
      t = { s.afterSuccess false with result := t.result, pos := t.pos } ∧
      (q.p + 1 < 2 ^ 32 → t.pos.toNat = q.p + 1) ∧
      (signed = false → t.result.toNat = d) ∧
      (signed = true → t.result.toInt = if d % 2 = 1 then -((d / 2 : Nat) : Int) else ((d / 2 : Nat) : Int))) ∧
    (2 ^ 64 ≤ d → exec (.vbEnd v) s = .next (s.afterError .varintOverflow))

/-- R190, R194, R195: a VARU or VARS command, run one byte a step, ends within 11 steps as the pure decoding function of the
bytes from POS to the end of the buffer says: RESULT and POS on success, and on an error nothing but the flags and ERRCODE. -/
def Obligations.VarintCommandsRunToReference : Prop :=
  ∀ (signed : Bool) (b : Buf) (s : State), s.host = [] → s.seq = .issued →
    decode (.command s.cmd) = .ok (if signed then .vars b else .varu b) → s.operandsOk = true →
    (∃ u, exec (if signed then .vars b else .varu b) s = .next u ∧ step s = .next u) ∧
    ∃ n t, n ≤ 11 ∧ runSteps n s = .next t ∧
      match varintDecode (s.bytes b s.pos.toNat (s.bufLen b - s.pos.toNat)) with
      | .ok (v, k) =>
        t = { s.afterSuccess false with result := t.result, pos := t.pos } ∧
          t.pos.toNat = s.pos.toNat + k ∧ t.pos.toNat ≤ s.bufLen b ∧
          t.result = if signed then (if v % 2 = 1 then -(BitVec.ofNat 64 (v / 2)) else BitVec.ofNat 64 (v / 2))
            else BitVec.ofNat 64 v
      | .error e => t = s.afterError e

/-- 43_varint.md, "Uniqueness" (which the spec marks as derived): for every n < 2^64, decoding `encode(n)` returns n, and `encode(n)` is the only byte string that decodes to n. -/
def Obligations.VarintEncodingIsUnique : Prop :=
  ∀ n : Nat, n < 2 ^ 64 →
    varintDecode (varintEncode n) = .ok (n, (varintEncode n).length) ∧
    ∀ xs : List Byte, varintDecode xs = .ok (n, xs.length) → xs = varintEncode n

/-- R101: the value of a varint is the sum of its groups and the cumulative offset: decoding a string of that form gives this
value and uses all of it, or, when the value reaches 2^64, is VarintOverflow (R192). -/
def Obligations.VarintValueFormula : Prop :=
  ∀ xs : List Byte, isVarint xs = true →
    let v := varintGroups xs + varintOffset xs.length
    (v < 2 ^ 64 → varintDecode xs = .ok (v, xs.length)) ∧ (2 ^ 64 ≤ v → varintDecode xs = .error .varintOverflow)

/-- 30_encoding.md, "Length of a varint" (which the spec marks as derived): a k-byte varint encodes exactly the values from `sum_{i=1..k-1} 128^i` to `sum_{i=1..k} 128^i - 1`; each value below
2^64 has exactly one encoding, of at most 10 bytes; and a string whose first ten bytes have no last one is VarintOverflow. -/
def Obligations.VarintLengthsAndRanges : Prop :=
  (∀ k n : Nat, 1 ≤ k →
    ((∃ xs, isVarint xs = true ∧ xs.length = k ∧ varintGroups xs + varintOffset k = n) ↔
      varintOffset k ≤ n ∧ n < varintOffset (k + 1))) ∧
  [1, 2, 3, 4, 5].map varintOffset = [0, 128, 16512, 2113664, 270549120] ∧
  (∀ n : Nat, n < 2 ^ 64 →
    ∃ xs, (isVarint xs = true ∧ varintGroups xs + varintOffset xs.length = n ∧ xs.length ≤ 10) ∧
      ∀ ys, isVarint ys = true → varintGroups ys + varintOffset ys.length = n → ys = xs) ∧
  (∀ xs : List Byte, 10 ≤ xs.length → (∀ x ∈ xs.take 10, x &&& 0x80 = 0) → varintDecode xs = .error .varintOverflow)

/-- R210: SWAP16. Each pair of the input range is exchanged into OUT[0 .. LEN-1]; OUT_LEN and RESULT become LEN; every other
byte of OUT, the inputs and every other register are as before. -/
def Obligations.Swap16ExchangesPairs : Prop :=
  ∀ (b : Buf) (s : State), b ≠ .out → s.operandsOk = true → s.len.toNat % 2 = 0 →
    s.pos.toNat + s.len.toNat ≤ s.bufLen b → s.len.toNat ≤ s.outCap.toNat →
    ∃ t, exec (.swap16 b) s = .next t ∧
      (∀ i, i < s.len.toNat / 2 →
        t.byte .out (2 * i) = s.byte b (s.pos.toNat + 2 * i + 1) ∧
        t.byte .out (2 * i + 1) = s.byte b (s.pos.toNat + 2 * i)) ∧
      (∀ a, s.len.toNat ≤ a → t.byte .out a = s.byte .out a) ∧
      t = { s.afterSuccess false with out := t.out, outLen := s.len, result := BitVec.ofNat 64 s.len.toNat }

/-- R211: the checks of SWAP16 in order; a failing SWAP16 writes no byte of OUT; an error from decode or the common operand
check leaves OUT_LEN as it was, an odd LEN, TruncatedInput or BoundsViolation sets it to 0. -/
def Obligations.Swap16ChecksInOrder : Prop :=
  (∀ s : State, s.host = [] → s.seq = .issued → s.cmd = 0x00000026 → step s = .next (s.afterError .illegalCommand)) ∧
  ∀ (b : Buf) (s : State), b ≠ .out →
    (s.operandsOk = false → exec (.swap16 b) s = .next (s.afterError .illegalCommand)) ∧
    (s.operandsOk = true → s.len.toNat % 2 = 1 → exec (.swap16 b) s = .next (s.afterOwnError .illegalCommand)) ∧
    (s.operandsOk = true → s.len.toNat % 2 = 0 → s.bufLen b < s.pos.toNat + s.len.toNat →
      exec (.swap16 b) s = .next (s.afterOwnError .truncatedInput)) ∧
    (s.operandsOk = true → s.len.toNat % 2 = 0 → s.pos.toNat + s.len.toNat ≤ s.bufLen b →
      s.outCap.toNat < s.len.toNat → exec (.swap16 b) s = .next (s.afterOwnError .boundsViolation))

/-- 44_byteorder.md, "SWAP16 never modifies its input" (which the spec marks as derived): applying the swap twice returns the original bytes; and SWAP16 never modifies its input. -/
def Obligations.SwapTwiceIsIdentity : Prop :=
  (∀ xs : List Byte, swapPairs (swapPairs xs) = xs) ∧
  (∀ (b : Buf) (s t : State), exec (.swap16 b) s = .next t → t.src = s.src ∧ t.pat = s.pat)

/-- R214: RD. RESULT is the field's value, the sum of its bytes by powers of 256 in the order BE names, zero-extended; POS
advances by N; nothing else changes. TruncatedInput leaves POS and RESULT unchanged. A word with N = 0 or N > 8 is illegal. -/
def Obligations.RdReadsField : Prop :=
  ∀ (b : Buf) (be : Bool) (n : BitVec 4) (s : State), 1 ≤ n.toNat → n.toNat ≤ 8 →
    decode (.command (BitVec.ofNat 32 (0x007 + 16 * b.field.toNat + 128 * be.toNat + 256 * n.toNat))) = .ok (.rd b be n) ∧
    (∀ m : BitVec 4, m.toNat = 0 ∨ 8 < m.toNat →
      decode (.command (BitVec.ofNat 32 (0x007 + 16 * b.field.toNat + 128 * be.toNat + 256 * m.toNat))) =
        .error .badCount) ∧
    (s.operandsOk = false → exec (.rd b be n) s = .next (s.afterError .illegalCommand)) ∧
    (s.operandsOk = true → s.bufLen b < s.pos.toNat + n.toNat →
      exec (.rd b be n) s = .next (s.afterError .truncatedInput)) ∧
    (s.operandsOk = true → s.pos.toNat + n.toNat ≤ s.bufLen b →
      ∃ t, exec (.rd b be n) s = .next t ∧
        t = { s.afterSuccess false with result := t.result, pos := t.pos } ∧
        t.pos.toNat = s.pos.toNat + n.toNat ∧
        t.result.toNat = ∑ i ∈ Finset.range n.toNat,
          (s.byte b (s.pos.toNat + i)).toNat * 256 ^ (if be then n.toNat - 1 - i else i))

/-! ### What holds of every command -/

/-- R22, R35, R36, R61: no instruction writes CMD, CTRL, SRC_LEN, PAT_LEN, OUT_CAP, LEN or EXPECT, changes a parameter, or
writes SRC or PAT. -/
def Obligations.SetupNeverWritten : Prop :=
  ∀ (i : Instr) (s t : State), exec i s = .next t →
    SameSetup s t ∧ SameOutside s t ∧ t.src = s.src ∧ t.pat = s.pat

/-- R22, R31, R61: the frame of the instructions that do not write OUT: OUT and OUT_LEN are unchanged; and POS is written only
by RD and by the end of a varint. -/
def Obligations.OnlyWritersWriteOutAndPos : Prop :=
  ∀ (i : Instr) (s t : State), exec i s = .next t →
    ((∀ b, i ≠ .yay0 b ∧ i ≠ .swap16 b) → (∀ k, i ≠ .lit k) → (∀ f d, i ≠ .copy f d) → (∀ d e, i ≠ .lcopy d e) →
      t.out = s.out ∧ t.outLen = s.outLen ∧ t.freeCount = s.freeCount) ∧
    ((∀ b be n, i ≠ .rd b be n) → (∀ v, i ≠ .vbEnd v) → t.pos = s.pos)

/-- R37, R67: in a sound state no step of the block changes a byte of OUT at or beyond OUT_CAP, and OUT_CAP lies within the
buffer while YAY0 runs. -/
def Obligations.WritesStayBelowCapacity : Prop :=
  ∀ s t : State, s.Inv → s.host = [] → step s = .next t →
    (∀ a, s.outCap.toNat ≤ a → t.byte .out a = s.byte .out a) ∧
    (∀ b q, s.seq = .yay0 b q → q.op < q.size ∧ q.size ≤ s.outCap.toNat ∧ s.outCap.toNat ≤ s.outMax.toNat)

/-- R233: completion with an error, whatever the command. The flags and ERRCODE; POS unchanged; RESULT unchanged but after
ChecksumMismatch, which leaves the computed CRC in it; the other registers, SRC and PAT unchanged; OUT and OUT_LEN unchanged when the command is neither YAY0
nor SWAP16 or failed in decode or the common operand check; otherwise OUT_LEN is 0 and OUT is unchanged from OUT_CAP on. -/
def Obligations.ErrorCompletion : Prop :=
  ∀ (s t : State) (e : ErrKind), s.Inv → s.host = [] → s.busy = true → step s = .next t → t.errcode = some e →
    Failed t e ∧ (t.reg .errcode).toNat = e.code ∧ SameSetup s t ∧ SameOutside s t ∧ t.pos = s.pos ∧
    (e ≠ .checksumMismatch → t.result = s.result) ∧
    (e = .checksumMismatch → ∃ b, decode (.command s.cmd) = .ok (.crcchk b false) ∧
      t.result = BitVec.ofNat 64 (crc32 (s.bytes b s.pos.toNat s.len.toNat)).toNat) ∧ t.src = s.src ∧ t.pat = s.pat ∧
    ((∀ b, decode (.command s.cmd) ≠ .ok (.yay0 b) ∧ decode (.command s.cmd) ≠ .ok (.swap16 b)) ∨ s.operandsOk = false →
      t.outLen = s.outLen ∧ t.out = s.out) ∧
    ((∃ b, decode (.command s.cmd) = .ok (.yay0 b) ∨ decode (.command s.cmd) = .ok (.swap16 b)) → s.operandsOk = true →
      t.outLen = 0 ∧ ∀ a, s.outCap.toNat ≤ a → t.byte .out a = s.byte .out a)

/-- 60_exceptions.md, "Errors by command" (which the spec marks as derived): a command raises no error kind that is not listed for it; a word that is no command raises IllegalCommand. -/
def Obligations.ErrorsAreThoseListed : Prop :=
  ∀ (s t : State) (e : ErrKind), s.Inv → s.host = [] → s.busy = true → step s = .next t → t.errcode = some e →
    (∀ i, decode (.command s.cmd) = .ok i → e ∈ errorsOf i) ∧
    ((¬∃ i, decode (.command s.cmd) = .ok i) → e = .illegalCommand)

/-- R44, R241: no command reads a flag, neither an instruction nor the fetch of one. Another value of IE changes nothing but IE;
other values of BUSY, DONE, ERR, MATCH and ERRCODE change nothing when the command ends, and are carried through by a step that
leaves it in flight. -/
def Obligations.CommandsReadNoFlag : Prop :=
  (∀ (i : Instr) (s : State), ReadsNoFlag (exec i) s) ∧
  ∀ s : State, s.seq ≠ .idle → ReadsNoFlag blockStep s

/-- U1 and 20_memory.md on declared bytes: a command's result is a function of the bytes the host has declared valid: two sound states that differ only in
other bytes step alike, and still differ only in such bytes. -/
def Obligations.UndeclaredBytesDoNotMatter : Prop :=
  ∀ s s' t : State, s.Inv → SameDeclared s s' → s.host = [] → step s = .next t →
    ∃ t', step s' = .next t' ∧ SameDeclared t t'

/-- Two memories in canonical form that know the same bytes, and in which the same events left the same offsets unspecified,
are the same data. -/
def Obligations.CanonicalMemoryIsUnique : Prop :=
  ∀ m m' : Memory, m.wf = true → m'.wf = true → (∀ a, cellAt m.cells a = cellAt m'.cells a) →
    (∀ a, staleAt m.stale a = staleAt m'.stale a) → m = m'

/-- R35 to R37, R60: a host read of a byte of any buffer while BUSY = 0 returns that byte and changes nothing; a read beyond the
buffer's physical size is a fault, whether BUSY or not (the model's choice, log 10), but for OUT while BUSY = 1, which is
refused (log 9). -/
def Obligations.HostBufferRead : Prop :=
  ∀ (s : State) (rest : List HostOp) (b : Buf) (a : Nat), s.host = .bufRead b a :: rest →
    (s.busy = false → a < s.physSize b → step s = .next { s with host := rest, rdata := (s.byte b a).setWidth 32 }) ∧
    (s.busy = false ∨ b ≠ .out → s.physSize b ≤ a → step s = .fault (.noSuchByte b a))
end

