-- ==== Sys2Proof/Laws/Decode.lean ====
section
/-! SUPPORT. The small laws of the encodings: the fields of a command word, a pair and a varint byte, and how they are put
together again. -/

namespace Sys2Proof

theorem fieldOP_toNat (w : Word) : (fieldOP w).toNat = w.toNat % 16 := by
  simp [fieldOP, BitVec.extractLsb'_toNat]

theorem fieldBUF_toNat (w : Word) : (fieldBUF w).toNat = w.toNat / 16 % 4 := by
  simp [fieldBUF, BitVec.extractLsb'_toNat, Nat.shiftRight_eq_div_pow]

theorem fieldIGN_toNat (w : Word) : (fieldIGN w).toNat = w.toNat / 64 % 2 := by
  rw [fieldIGN, BitVec.getLsbD, Nat.testBit_eq_decide_div_mod_eq]
  rcases Nat.mod_two_eq_zero_or_one (w.toNat / 2 ^ 6) with h | h <;> simp at h <;> simp [h]

theorem fieldBE_toNat (w : Word) : (fieldBE w).toNat = w.toNat / 128 % 2 := by
  rw [fieldBE, BitVec.getLsbD, Nat.testBit_eq_decide_div_mod_eq]
  rcases Nat.mod_two_eq_zero_or_one (w.toNat / 2 ^ 7) with h | h <;> simp at h <;> simp [h]

theorem fieldN_toNat (w : Word) : (fieldN w).toNat = w.toNat / 256 % 16 := by
  simp [fieldN, BitVec.extractLsb'_toNat, Nat.shiftRight_eq_div_pow]

theorem fieldZero_toNat (w : Word) : (fieldZero w).toNat = w.toNat / 4096 := by
  have := w.isLt
  simp [fieldZero, BitVec.extractLsb'_toNat, Nat.shiftRight_eq_div_pow]
  omega

theorem commandWord_toNat (op : BitVec 4) (buf : BitVec 2) (ign be : Bool) (n : BitVec 4) :
    (commandWord op buf ign be n).toNat = op.toNat + 16 * buf.toNat + 64 * ign.toNat + 128 * be.toNat + 256 * n.toNat := by
  have h1 := op.isLt
  have h2 := buf.isLt
  have h3 := n.isLt
  have h4 := Bool.toNat_le ign
  have h5 := Bool.toNat_le be
  simp only [commandWord, BitVec.toNat_ofNat]
  omega

theorem bool_of_toNat {a b : Bool} (h : a.toNat = b.toNat) : a = b := by
  cases a <;> cases b <;> simp_all

/-- The fields of a word made from its fields. -/
@[simp] theorem fieldOP_commandWord (op : BitVec 4) (buf : BitVec 2) (ign be : Bool) (n : BitVec 4) :
    fieldOP (commandWord op buf ign be n) = op := by
  have h1 := op.isLt
  apply BitVec.eq_of_toNat_eq
  rw [fieldOP_toNat, commandWord_toNat]
  omega

@[simp] theorem fieldBUF_commandWord (op : BitVec 4) (buf : BitVec 2) (ign be : Bool) (n : BitVec 4) :
    fieldBUF (commandWord op buf ign be n) = buf := by
  have h1 := op.isLt
  have h2 := buf.isLt
  apply BitVec.eq_of_toNat_eq
  rw [fieldBUF_toNat, commandWord_toNat]
  omega

@[simp] theorem fieldIGN_commandWord (op : BitVec 4) (buf : BitVec 2) (ign be : Bool) (n : BitVec 4) :
    fieldIGN (commandWord op buf ign be n) = ign := by
  have h1 := op.isLt
  have h2 := buf.isLt
  have h4 := Bool.toNat_le ign
  apply bool_of_toNat
  rw [fieldIGN_toNat, commandWord_toNat]
  omega

@[simp] theorem fieldBE_commandWord (op : BitVec 4) (buf : BitVec 2) (ign be : Bool) (n : BitVec 4) :
    fieldBE (commandWord op buf ign be n) = be := by
  have h1 := op.isLt
  have h2 := buf.isLt
  have h4 := Bool.toNat_le ign
  have h5 := Bool.toNat_le be
  apply bool_of_toNat
  rw [fieldBE_toNat, commandWord_toNat]
  omega

@[simp] theorem fieldN_commandWord (op : BitVec 4) (buf : BitVec 2) (ign be : Bool) (n : BitVec 4) :
    fieldN (commandWord op buf ign be n) = n := by
  have h1 := op.isLt
  have h2 := buf.isLt
  have h3 := n.isLt
  have h4 := Bool.toNat_le ign
  have h5 := Bool.toNat_le be
  apply BitVec.eq_of_toNat_eq
  rw [fieldN_toNat, commandWord_toNat]
  omega

@[simp] theorem fieldZero_commandWord (op : BitVec 4) (buf : BitVec 2) (ign be : Bool) (n : BitVec 4) :
    fieldZero (commandWord op buf ign be n) = 0 := by
  have h1 := op.isLt
  have h2 := buf.isLt
  have h3 := n.isLt
  have h4 := Bool.toNat_le ign
  have h5 := Bool.toNat_le be
  apply BitVec.eq_of_toNat_eq
  rw [fieldZero_toNat, commandWord_toNat]
  simp
  omega

/-- A word whose bits 31:12 are 0 is put together again from its fields. -/
theorem commandWord_fields (w : Word) (h : fieldZero w = 0) :
    commandWord (fieldOP w) (fieldBUF w) (fieldIGN w) (fieldBE w) (fieldN w) = w := by
  apply BitVec.eq_of_toNat_eq
  have hz := congrArg BitVec.toNat h
  rw [fieldZero_toNat] at hz
  simp only [BitVec.toNat_zero, BitVec.ofNat_eq_ofNat] at hz
  rw [commandWord_toNat, fieldOP_toNat, fieldBUF_toNat, fieldIGN_toNat, fieldBE_toNat, fieldN_toNat]
  omega

@[simp] theorem bufOfField_field (b : Buf) : bufOfField b.field = some b := by cases b <;> rfl

theorem bufOfField_eq_some {f : BitVec 2} {b : Buf} (h : bufOfField f = some b) : f = b.field := by
  unfold bufOfField at h
  split at h
  · cases h; assumption
  · split at h
    · cases h; assumption
    · split at h
      · cases h; assumption
      · cases h

/-- A pair of the form F, D is read back. -/
theorem pairOf_pairBytes (f : BitVec 4) (d : BitVec 12) :
    ∃ p0 p1, pairBytes f d = [p0, p1] ∧ pairOf p0 p1 = 4096 * f.toNat + d.toNat := by
  have h1 := f.isLt
  have h2 := d.isLt
  refine ⟨_, _, rfl, ?_⟩
  simp only [pairOf, BitVec.toNat_ofNat]
  omega

theorem pairF_of (f : BitVec 4) (d : BitVec 12) : pairF (4096 * f.toNat + d.toNat) = f := by
  have h1 := f.isLt
  have h2 := d.isLt
  apply BitVec.eq_of_toNat_eq
  simp only [pairF, BitVec.toNat_ofNat]
  omega

theorem pairD_of (f : BitVec 4) (d : BitVec 12) : pairD (4096 * f.toNat + d.toNat) = d := by
  have h1 := f.isLt
  have h2 := d.isLt
  apply BitVec.eq_of_toNat_eq
  simp only [pairD, BitVec.toNat_ofNat]
  omega

theorem pairOf_lt (p0 p1 : Byte) : pairOf p0 p1 < 65536 := by
  have h1 := p0.isLt
  have h2 := p1.isLt
  unfold pairOf
  omega

/-- The bytes of a pair are put together again from its two fields. -/
theorem pairBytes_fields (p0 p1 : Byte) : pairBytes (pairF (pairOf p0 p1)) (pairD (pairOf p0 p1)) = [p0, p1] := by
  have h1 := p0.isLt
  have h2 := p1.isLt
  have e : 4096 * (pairF (pairOf p0 p1)).toNat + (pairD (pairOf p0 p1)).toNat = pairOf p0 p1 := by
    simp only [pairF, pairD, BitVec.toNat_ofNat]
    have := pairOf_lt p0 p1
    omega
  simp only [pairBytes, e]
  congr 1
  · apply BitVec.eq_of_toNat_eq
    simp only [pairOf, BitVec.toNat_ofNat]
    omega
  · congr 1
    apply BitVec.eq_of_toNat_eq
    simp only [pairOf, BitVec.toNat_ofNat]
    omega

theorem varintByte_bit7 (x : Byte) : x.getLsbD 7 = decide (128 ≤ x.toNat) := by
  have h := x.isLt
  rw [BitVec.getLsbD, Nat.testBit_eq_decide_div_mod_eq]
  simp only [decide_eq_decide]
  omega

theorem varintByte_value (x : Byte) : (x.extractLsb' 0 7).toNat = x.toNat % 128 := by
  simp [BitVec.extractLsb'_toNat]

/-! ### What a decoder that answers has found -/

theorem withBuf_ok {f : BitVec 2} {k : Buf → Instr} {i : Instr} (h : withBuf f k = .ok i) :
    ∃ b : Buf, f = b.field ∧ i = k b := by
  unfold withBuf at h
  split at h
  · rename_i b hb
    cases h
    exact ⟨b, bufOfField_eq_some hb, rfl⟩
  · cases h

theorem withInput_ok {f : BitVec 2} {k : Buf → Instr} {i : Instr} (h : withInput f k = .ok i) :
    ∃ b : Buf, f = b.field ∧ b.isInput = true ∧ i = k b := by
  unfold withInput at h
  split at h
  · rename_i b hb
    split at h
    · rename_i hi
      cases h
      exact ⟨b, bufOfField_eq_some hb, hi, rfl⟩
    · cases h
  · cases h

theorem ifUnused_ok {c : Bool} {k : Except Reject Instr} {i : Instr} (h : ifUnused c k = .ok i) :
    c = true ∧ k = .ok i := by
  unfold ifUnused at h
  split at h
  · exact ⟨by assumption, h⟩
  · cases h

/-- A command word that decodes has bits 31:12 clear, an opcode of 0 to 7 and the fields of one of the eight rows. -/
theorem decodeCommand_ok {w : Word} {i : Instr} (h : decodeCommand w = .ok i) :
    fieldZero w = 0 ∧
    ((i = .nop ∧ fieldOP w = 0 ∧ fieldBUF w = 0 ∧ fieldIGN w = false ∧ fieldBE w = false ∧ fieldN w = 0) ∨
     ∃ b : Buf, fieldBUF w = b.field ∧
      ((i = .crc b ∧ fieldOP w = 1 ∧ fieldIGN w = false ∧ fieldBE w = false ∧ fieldN w = 0) ∨
       (i = .crcchk b (fieldIGN w) ∧ fieldOP w = 2 ∧ fieldBE w = false ∧ fieldN w = 0) ∨
       (i = .yay0 b ∧ b.isInput = true ∧ fieldOP w = 3 ∧ fieldIGN w = false ∧ fieldBE w = false ∧ fieldN w = 0) ∨
       (i = .varu b ∧ fieldOP w = 4 ∧ fieldIGN w = false ∧ fieldBE w = false ∧ fieldN w = 0) ∨
       (i = .vars b ∧ fieldOP w = 5 ∧ fieldIGN w = false ∧ fieldBE w = false ∧ fieldN w = 0) ∨
       (i = .swap16 b ∧ b.isInput = true ∧ fieldOP w = 6 ∧ fieldIGN w = false ∧ fieldBE w = false ∧ fieldN w = 0) ∨
       (i = .rd b (fieldBE w) (fieldN w) ∧ countLegal (fieldN w) = true ∧ fieldOP w = 7 ∧ fieldIGN w = false))) := by
  unfold decodeCommand at h
  split at h
  · cases h
  · rename_i hz
    refine ⟨by simpa using hz, ?_⟩
    have hop : fieldOP w = BitVec.ofNat 4 (fieldOP w).toNat := by simp
    simp only at h
    split at h
    all_goals try cases h
    all_goals
      rename_i ho
      rw [ho] at hop
      obtain ⟨hc, hk⟩ := ifUnused_ok h
      simp only [Bool.and_eq_true, Bool.not_eq_true', decide_eq_true_eq, and_assoc] at hc
    · cases hk
      exact .inl ⟨rfl, hop, hc⟩
    · obtain ⟨b, hb, rfl⟩ := withBuf_ok hk
      exact .inr ⟨b, hb, .inl ⟨rfl, hop, hc⟩⟩
    · obtain ⟨b, hb, rfl⟩ := withBuf_ok hk
      exact .inr ⟨b, hb, .inr (.inl ⟨rfl, hop, hc⟩)⟩
    · obtain ⟨b, hb, hi, rfl⟩ := withInput_ok hk
      exact .inr ⟨b, hb, .inr (.inr (.inl ⟨rfl, hi, hop, hc⟩))⟩
    · obtain ⟨b, hb, rfl⟩ := withBuf_ok hk
      exact .inr ⟨b, hb, .inr (.inr (.inr (.inl ⟨rfl, hop, hc⟩)))⟩
    · obtain ⟨b, hb, rfl⟩ := withBuf_ok hk
      exact .inr ⟨b, hb, .inr (.inr (.inr (.inr (.inl ⟨rfl, hop, hc⟩))))⟩
    · obtain ⟨b, hb, hi, rfl⟩ := withInput_ok hk
      exact .inr ⟨b, hb, .inr (.inr (.inr (.inr (.inr (.inl ⟨rfl, hi, hop, hc⟩)))))⟩
    · split at hk
      · rename_i hn
        obtain ⟨b, hb, rfl⟩ := withBuf_ok hk
        exact .inr ⟨b, hb, .inr (.inr (.inr (.inr (.inr (.inr ⟨rfl, hn, hop, hc⟩)))))⟩
      · cases hk

/-- Only a command is read from a command word. -/
theorem decodeCommand_isCommand {w : Word} {i : Instr} (h : decodeCommand w = .ok i) : i.isCommand = true := by
  obtain ⟨-, ⟨rfl, -⟩ | ⟨b, -, ⟨rfl, -⟩ | ⟨rfl, -⟩ | ⟨rfl, -⟩ | ⟨rfl, -⟩ | ⟨rfl, -⟩ | ⟨rfl, -⟩ | ⟨rfl, -⟩⟩⟩ :=
    decodeCommand_ok h <;> rfl

end Sys2Proof
end

