-- ==== Sys2Proof/Laws/Memory.lean ====
section
/-! SUPPORT. The laws of one byte memory: what a write and an event that leaves bytes unspecified do to each byte, and that
they keep the canonical form. -/

namespace Sys2Proof.Machine

/-! ### Cells -/

@[simp] theorem cellAt_cellPut_same (cs : List Host.Cell) (a : Nat) (v : Byte) : cellAt (cellPut cs a v) a = some v := by
  induction cs with
  | nil => simp [cellPut, cellAt]
  | cons c cs ih =>
    obtain ⟨k, w⟩ := c
    simp only [cellPut]
    split
    · simp [cellAt]
    · split
      · simp [cellAt]
      · rename_i h1 h2
        have : k ≠ a := fun h => h2 h.symm
        simp only [cellAt, if_neg this, ih]

theorem cellAt_cellPut_other (cs : List Host.Cell) {a a' : Nat} (v : Byte) (h : a' ≠ a) :
    cellAt (cellPut cs a v) a' = cellAt cs a' := by
  induction cs with
  | nil => simp [cellPut, cellAt, h.symm]
  | cons c cs ih =>
    obtain ⟨k, w⟩ := c
    simp only [cellPut]
    split
    · simp [cellAt, h.symm]
    · split
      · rename_i h2
        subst h2
        simp [cellAt, h.symm]
      · simp [cellAt, ih]

theorem cellAt_none_of_from {lo : Nat} {cs : List Host.Cell} (h : cellsFrom lo cs = true) {a : Nat} (ha : a < lo) :
    cellAt cs a = none := by
  induction cs generalizing lo with
  | nil => rfl
  | cons c cs ih =>
    simp only [cellsFrom, Bool.and_eq_true, decide_eq_true_eq] at h
    obtain ⟨k, w⟩ := c
    have : k ≠ a := by simp only at h; omega
    simp [cellAt, this, ih h.2 (by simp only at h; omega : a < k + 1)]

theorem cellAt_filter (n : Nat) (cs : List Host.Cell) (a : Nat) :
    cellAt (cs.filter (fun c => decide (n ≤ c.1))) a = if n ≤ a then cellAt cs a else none := by
  induction cs with
  | nil => simp [cellAt]
  | cons c cs ih =>
    obtain ⟨k, w⟩ := c
    by_cases hk : n ≤ k
    · by_cases hka : k = a
      · subst hka; simp [cellAt, hk]
      · simp [cellAt, hk, hka, ih]
    · by_cases hka : k = a
      · subst hka; simp [hk, ih]
      · simp [cellAt, hk, hka, ih]

theorem cellsFrom_mono {lo lo' : Nat} {cs : List Host.Cell} (h : cellsFrom lo cs = true) (hl : lo' ≤ lo) :
    cellsFrom lo' cs = true := by
  cases cs with
  | nil => rfl
  | cons c cs =>
    simp only [cellsFrom, Bool.and_eq_true, decide_eq_true_eq] at h ⊢
    exact ⟨by omega, h.2⟩

theorem cellsFrom_cellPut {lo : Nat} {cs : List Host.Cell} {a : Nat} (v : Byte) (h : cellsFrom lo cs = true) (ha : lo ≤ a) :
    cellsFrom lo (cellPut cs a v) = true := by
  induction cs generalizing lo with
  | nil => simp [cellPut, cellsFrom, ha]
  | cons c cs ih =>
    obtain ⟨k, w⟩ := c
    simp only [cellsFrom, Bool.and_eq_true, decide_eq_true_eq] at h
    simp only [cellPut]
    split
    · simp only [cellsFrom, Bool.and_eq_true, decide_eq_true_eq]
      exact ⟨ha, by omega, h.2⟩
    · split
      · rename_i h2
        subst h2
        simp only [cellsFrom, Bool.and_eq_true, decide_eq_true_eq]
        exact ⟨ha, h.2⟩
      · simp only [cellsFrom, Bool.and_eq_true, decide_eq_true_eq]
        exact ⟨h.1, ih h.2 (by omega)⟩

theorem cellsFrom_filter {lo : Nat} {cs : List Host.Cell} (n : Nat) (h : cellsFrom lo cs = true) :
    cellsFrom lo (cs.filter (fun c => decide (n ≤ c.1))) = true := by
  induction cs generalizing lo with
  | nil => rfl
  | cons c cs ih =>
    simp only [cellsFrom, Bool.and_eq_true, decide_eq_true_eq] at h
    rw [List.filter_cons]
    split
    · simp only [cellsFrom, Bool.and_eq_true, decide_eq_true_eq]
      exact ⟨h.1, ih h.2⟩
    · exact ih (cellsFrom_mono h.2 (by omega))

theorem mem_cellPut {cs : List Host.Cell} {a : Nat} {v : Byte} {c : Host.Cell} (h : c ∈ cellPut cs a v) :
    c = (a, v) ∨ c ∈ cs := by
  induction cs with
  | nil => exact .inl (by simpa [cellPut] using h)
  | cons d cs ih =>
    obtain ⟨k, w⟩ := d
    simp only [cellPut] at h
    split at h
    · simpa using h
    · split at h
      · rcases List.mem_cons.1 h with h | h
        · exact .inl h
        · exact .inr (List.mem_cons_of_mem _ h)
      · rcases List.mem_cons.1 h with h | h
        · exact .inr (by simp [h])
        · exact (ih h).imp_right (List.mem_cons_of_mem _)

/-! ### Unspecified ranges -/

theorem staleAt_append (rs qs : List StaleRange) (a : Nat) :
    staleAt (rs ++ qs) a = (staleAt rs a).or (staleAt qs a) := by
  induction rs with
  | nil => simp [staleAt]
  | cons r rs ih =>
    simp only [List.cons_append, staleAt]
    split <;> simp [ih]

theorem staleAt_without_same (r : StaleRange) (a : Nat) : staleAt (r.without a) a = none := by
  unfold StaleRange.without
  split
  · split <;> split <;> simp [staleAt]
  · rename_i h
    simp only [staleAt, if_neg h]

theorem staleAt_without_other (r : StaleRange) {a a' : Nat} (h : a' ≠ a) :
    staleAt (r.without a) a' = staleAt [r] a' := by
  unfold StaleRange.without
  split
  · simp only [staleAt_append]
    split <;> split <;> simp only [staleAt] <;> split <;> (try split) <;> (try split) <;> first | rfl | omega
  · rfl

@[simp] theorem staleAt_staleCut_same (rs : List StaleRange) (a : Nat) : staleAt (staleCut rs a) a = none := by
  induction rs with
  | nil => rfl
  | cons r rs ih => simp [staleCut, staleAt_append, staleAt_without_same, ih]

theorem staleAt_staleCut_other (rs : List StaleRange) {a a' : Nat} (h : a' ≠ a) :
    staleAt (staleCut rs a) a' = staleAt rs a' := by
  induction rs with
  | nil => rfl
  | cons r rs ih =>
    rw [staleCut, staleAt_append, staleAt_without_other r h, ih, ← staleAt_append]
    rfl

theorem staleAt_staleAbove (n : Nat) (rs : List StaleRange) {a : Nat} (h : n ≤ a) :
    staleAt (staleAbove n rs) a = staleAt rs a := by
  induction rs with
  | nil => rfl
  | cons r rs ih =>
    simp only [staleAbove]
    split
    · rw [ih, staleAt, if_neg (by omega)]
    · simp only [staleAt, ih]
      exact if_congr (by omega) rfl rfl

theorem staleGap_of_lt {hi e : Nat} {rs : List StaleRange} {lo : Nat} (h : staleFrom lo rs = true) (hl : hi < lo) :
    staleGap hi e rs = true := by
  cases rs with
  | nil => rfl
  | cons r rs =>
    simp only [staleFrom, Bool.and_eq_true, decide_eq_true_eq] at h
    simp only [staleGap, Bool.or_eq_true, decide_eq_true_eq]
    omega

theorem staleFrom_mono {lo lo' : Nat} {rs : List StaleRange} (h : staleFrom lo rs = true) (hl : lo' ≤ lo) :
    staleFrom lo' rs = true := by
  cases rs with
  | nil => rfl
  | cons r rs =>
    simp only [staleFrom, Bool.and_eq_true, decide_eq_true_eq] at h ⊢
    exact ⟨⟨⟨by omega, h.1.1.2⟩, h.1.2⟩, h.2⟩

theorem staleCut_below {lo : Nat} {rs : List StaleRange} (h : staleFrom lo rs = true) {a : Nat} (ha : a < lo) :
    staleCut rs a = rs := by
  induction rs generalizing lo with
  | nil => rfl
  | cons r rs ih =>
    simp only [staleFrom, Bool.and_eq_true, decide_eq_true_eq] at h
    have : r.without a = [r] := by
      unfold StaleRange.without
      rw [if_neg (by omega)]
    rw [staleCut, this, ih h.2 (by omega)]
    rfl

/-- Ranges cut at an offset still rise, begin no earlier, and still do not continue what came before them. -/
theorem staleFrom_staleCut {lo : Nat} {rs : List StaleRange} (a : Nat) (h : staleFrom lo rs = true) :
    staleFrom lo (staleCut rs a) = true ∧
      ∀ hi e, hi ≤ lo → staleGap hi e rs = true → staleGap hi e (staleCut rs a) = true := by
  induction rs generalizing lo with
  | nil => exact ⟨rfl, fun _ _ _ _ => rfl⟩
  | cons r rs ih =>
    simp only [staleFrom, Bool.and_eq_true, decide_eq_true_eq] at h
    obtain ⟨⟨⟨h1, h2⟩, h3⟩, h4⟩ := h
    by_cases hin : r.lo ≤ a ∧ a < r.hi
    · have hcut : staleCut rs a = rs := staleCut_below h4 hin.2
      have hw : staleCut (r :: rs) a =
          (if r.lo < a then [{ r with hi := a }] else []) ++ (if a + 1 < r.hi then [{ r with lo := a + 1 }] else []) ++ rs := by
        rw [staleCut, hcut, StaleRange.without, if_pos hin]
      have hg : ∀ hi e, hi < r.hi → staleGap hi e rs = true := fun hi e hlt => staleGap_of_lt h4 hlt
      rw [hw]
      by_cases hl : r.lo < a <;> by_cases hr : a + 1 < r.hi
      · rw [if_pos hl, if_pos hr]
        simp only [List.cons_append, List.nil_append, staleFrom, Bool.and_eq_true, decide_eq_true_eq]
        refine ⟨⟨⟨⟨h1, hl⟩, ?_⟩, ⟨⟨by omega, hr⟩, h3⟩, h4⟩, fun hi e _ hgap => hgap⟩
        simp [staleGap]
      · rw [if_pos hl, if_neg hr]
        simp only [List.cons_append, List.nil_append, List.append_nil, staleFrom, Bool.and_eq_true, decide_eq_true_eq]
        exact ⟨⟨⟨⟨h1, hl⟩, hg _ _ hin.2⟩, staleFrom_mono h4 (by omega)⟩, fun hi e _ hgap => hgap⟩
      · rw [if_neg hl, if_pos hr]
        simp only [List.cons_append, List.nil_append, staleFrom, Bool.and_eq_true, decide_eq_true_eq]
        refine ⟨⟨⟨⟨by omega, hr⟩, h3⟩, h4⟩, fun hi e hle hgap => ?_⟩
        simp only [staleGap, Bool.or_eq_true, decide_eq_true_eq]
        omega
      · rw [if_neg hl, if_neg hr]
        simp only [List.nil_append]
        exact ⟨staleFrom_mono h4 (by omega), fun hi e hle _ => hg hi e (by omega)⟩
    · have hw : staleCut (r :: rs) a = r :: staleCut rs a := by
        rw [staleCut, StaleRange.without, if_neg hin]; rfl
      rw [hw]
      obtain ⟨ih1, ih2⟩ := ih h4
      refine ⟨?_, fun hi e _ hgap => hgap⟩
      simp only [staleFrom, Bool.and_eq_true, decide_eq_true_eq]
      exact ⟨⟨⟨h1, h2⟩, ih2 _ _ (Nat.le_refl _) h3⟩, ih1⟩

/-- What stays above `n` begins at `n` or later, in the order it had. -/
theorem staleFrom_staleAbove {lo n : Nat} {rs : List StaleRange} (h : staleFrom lo rs = true) :
    staleFrom n (staleAbove n rs) = true := by
  induction rs generalizing lo with
  | nil => rfl
  | cons r rs ih =>
    simp only [staleFrom, Bool.and_eq_true, decide_eq_true_eq] at h
    obtain ⟨⟨⟨h1, h2⟩, h3⟩, h4⟩ := h
    simp only [staleAbove]
    split
    · exact ih h4
    · rename_i hn
      have hid : ∀ {l : Nat} {qs : List StaleRange}, n ≤ l → staleFrom l qs = true → staleAbove n qs = qs := by
        intro l qs
        induction qs generalizing l with
        | nil => intros; rfl
        | cons q qs ihq =>
          intro hl hq
          simp only [staleFrom, Bool.and_eq_true, decide_eq_true_eq] at hq
          have e : max q.lo n = q.lo := by omega
          rw [staleAbove, if_neg (by omega), ihq (by omega : n ≤ q.hi) hq.2, e]
      rw [hid (by omega) h4]
      simp only [staleFrom, Bool.and_eq_true, decide_eq_true_eq]
      exact ⟨⟨⟨by omega, by omega⟩, h3⟩, h4⟩

theorem mem_staleAbove {n : Nat} {rs : List StaleRange} {r : StaleRange} (h : r ∈ staleAbove n rs) :
    ∃ q ∈ rs, q.epoch = r.epoch := by
  induction rs with
  | nil => simp [staleAbove] at h
  | cons q qs ih =>
    simp only [staleAbove] at h
    split at h
    · obtain ⟨p, hp, he⟩ := ih h
      exact ⟨p, List.mem_cons_of_mem _ hp, he⟩
    · rcases List.mem_cons.1 h with h | h
      · exact ⟨q, by simp, by simp [h]⟩
      · obtain ⟨p, hp, he⟩ := ih h
        exact ⟨p, List.mem_cons_of_mem _ hp, he⟩

theorem mem_staleCut {rs : List StaleRange} {a : Nat} {r : StaleRange} (h : r ∈ staleCut rs a) :
    ∃ q ∈ rs, q.epoch = r.epoch := by
  induction rs with
  | nil => simp [staleCut] at h
  | cons q qs ih =>
    rw [staleCut, List.mem_append] at h
    rcases h with h | h
    · refine ⟨q, by simp, ?_⟩
      unfold StaleRange.without at h
      split at h
      · rw [List.mem_append] at h
        rcases h with h | h <;> split at h <;> simp_all
      · simp_all
    · obtain ⟨p, hp, he⟩ := ih h
      exact ⟨p, List.mem_cons_of_mem _ hp, he⟩

/-! ### A memory -/

/-- A read after a write to the same offset gives the value written. -/
@[simp] theorem Memory.byteAt_write_same (b : Buf) (m : Memory) (a : Nat) (v : Byte) :
    (m.write a v).byteAt b a = v := by
  simp [Memory.byteAt, Memory.write]

/-- A write leaves every other offset alone. -/
theorem Memory.byteAt_write_other (b : Buf) (m : Memory) {a a' : Nat} (v : Byte) (h : a' ≠ a) :
    (m.write a v).byteAt b a' = m.byteAt b a' := by
  simp [Memory.byteAt, Memory.write, cellAt_cellPut_other _ _ h, staleAt_staleCut_other _ h]

/-- Consecutive writes leave every offset below and beyond them alone. -/
theorem Memory.byteAt_writeAll_outside (b : Buf) (m : Memory) (a : Nat) (vs : List Byte) {a' : Nat}
    (h : a' < a ∨ a + vs.length ≤ a') : (m.writeAll a vs).byteAt b a' = m.byteAt b a' := by
  induction vs generalizing m a with
  | nil => rfl
  | cons v vs ih =>
    simp only [List.length_cons] at h
    rw [Memory.writeAll, ih _ _ (by omega), Memory.byteAt_write_other _ _ _ (by omega)]

/-- Consecutive writes: each offset reads as its byte of the list. -/
theorem Memory.byteAt_writeAll_inside (b : Buf) (m : Memory) (a : Nat) (vs : List Byte) {i : Nat} (h : i < vs.length) :
    (m.writeAll a vs).byteAt b (a + i) = vs[i] := by
  induction vs generalizing m a i with
  | nil => simp at h
  | cons v vs ih =>
    rw [Memory.writeAll]
    cases i with
    | zero => rw [Memory.byteAt_writeAll_outside _ _ _ _ (by omega)]; simp
    | succ i =>
      have := ih (m.write a v) (a + 1) (i := i) (by simpa using h)
      rw [show a + (i + 1) = a + 1 + i by omega, this]
      simp

/-- An event that leaves the offsets below `n` unspecified leaves every offset from `n` on alone. -/
theorem Memory.byteAt_void_above (b : Buf) (m : Memory) (n e : Nat) {a : Nat} (h : n ≤ a) :
    (m.void n e).byteAt b a = m.byteAt b a := by
  unfold Memory.void
  split
  · rfl
  · simp only [Memory.byteAt, cellAt_filter, if_pos h]
    rw [staleAt, if_neg (by simp only; omega), staleAt_staleAbove n _ h]

/-- Below `n` every offset reads as the free byte of the event. -/
theorem Memory.byteAt_void_below (b : Buf) (m : Memory) (n e : Nat) {a : Nat} (h : a < n) :
    (m.void n e).byteAt b a = Config.voidByte e a := by
  unfold Memory.void
  rw [if_neg (by omega)]
  simp only [Memory.byteAt, cellAt_filter, if_neg (by omega : ¬n ≤ a)]
  rw [staleAt, if_pos (by simp only; omega)]

theorem Memory.wf_iff (m : Memory) : m.wf = true ↔
    cellsFrom 0 m.cells = true ∧ staleFrom 0 m.stale = true ∧ ∀ c ∈ m.cells, staleAt m.stale c.1 = none := by
  simp [Memory.wf, and_assoc]

theorem Memory.blank_wf : Memory.blank.wf = true := rfl

/-- A write keeps the canonical form. -/
theorem Memory.write_wf {m : Memory} (a : Nat) (v : Byte) (h : m.wf = true) : (m.write a v).wf = true := by
  rw [Memory.wf_iff] at h ⊢
  obtain ⟨h1, h2, h3⟩ := h
  refine ⟨cellsFrom_cellPut v h1 (Nat.zero_le _), (staleFrom_staleCut a h2).1, fun c hc => ?_⟩
  by_cases hca : c.1 = a
  · simp [Memory.write, hca]
  · simp only [Memory.write] at hc ⊢
    rw [staleAt_staleCut_other _ hca]
    rcases mem_cellPut hc with h | h
    · exact absurd (by rw [h]) hca
    · exact h3 c h

/-- Consecutive writes keep the canonical form. -/
theorem Memory.writeAll_wf {m : Memory} (a : Nat) (vs : List Byte) (h : m.wf = true) : (m.writeAll a vs).wf = true := by
  induction vs generalizing m a with
  | nil => exact h
  | cons v vs ih => exact ih _ (Memory.write_wf a v h)

/-- An event whose number no range of the memory has keeps the canonical form. -/
theorem Memory.void_wf {m : Memory} (n e : Nat) (h : m.wf = true) (he : ∀ r ∈ m.stale, r.epoch < e) :
    (m.void n e).wf = true := by
  rw [Memory.wf_iff] at h
  unfold Memory.void
  split
  · exact (Memory.wf_iff m).2 h
  · rename_i hn
    rw [Memory.wf_iff]
    obtain ⟨h1, h2, h3⟩ := h
    refine ⟨cellsFrom_filter n h1, ?_, fun c hc => ?_⟩
    · simp only [staleFrom, Bool.and_eq_true, decide_eq_true_eq]
      refine ⟨⟨⟨Nat.le_refl _, by omega⟩, ?_⟩, staleFrom_staleAbove h2⟩
      cases hs : staleAbove n m.stale with
      | nil => rfl
      | cons r rs =>
        obtain ⟨q, hq, heq⟩ := mem_staleAbove (r := r) (by rw [hs]; simp)
        have := he q hq
        simp only [staleGap, Bool.or_eq_true, decide_eq_true_eq]
        omega
    · simp only [List.mem_filter, decide_eq_true_eq] at hc
      rw [staleAt, if_neg (by simp only; omega), staleAt_staleAbove n _ hc.2]
      exact h3 c hc.1

end Sys2Proof.Machine
end

