-- ==== Sys2Proof/Laws/State.lean ====
section
/-! SUPPORT. What each named update of the state does to each field, so that no proof unfolds a record update. -/

namespace Sys2Proof.Machine

/-! ### `State.withResult` -/

@[simp] theorem State.withResult_cmd (s : State) (v : DWord) : (s.withResult v).cmd = s.cmd := rfl
@[simp] theorem State.withResult_busy (s : State) (v : DWord) : (s.withResult v).busy = s.busy := rfl
@[simp] theorem State.withResult_done (s : State) (v : DWord) : (s.withResult v).done = s.done := rfl
@[simp] theorem State.withResult_err (s : State) (v : DWord) : (s.withResult v).err = s.err := rfl
@[simp] theorem State.withResult_matched (s : State) (v : DWord) : (s.withResult v).matched = s.matched := rfl
@[simp] theorem State.withResult_errcode (s : State) (v : DWord) : (s.withResult v).errcode = s.errcode := rfl
@[simp] theorem State.withResult_ie (s : State) (v : DWord) : (s.withResult v).ie = s.ie := rfl
@[simp] theorem State.withResult_srcLen (s : State) (v : DWord) : (s.withResult v).srcLen = s.srcLen := rfl
@[simp] theorem State.withResult_patLen (s : State) (v : DWord) : (s.withResult v).patLen = s.patLen := rfl
@[simp] theorem State.withResult_outCap (s : State) (v : DWord) : (s.withResult v).outCap = s.outCap := rfl
@[simp] theorem State.withResult_outLen (s : State) (v : DWord) : (s.withResult v).outLen = s.outLen := rfl
@[simp] theorem State.withResult_pos (s : State) (v : DWord) : (s.withResult v).pos = s.pos := rfl
@[simp] theorem State.withResult_len (s : State) (v : DWord) : (s.withResult v).len = s.len := rfl
@[simp] theorem State.withResult_expect (s : State) (v : DWord) : (s.withResult v).expect = s.expect := rfl
@[simp] theorem State.withResult_result (s : State) (v : DWord) : (s.withResult v).result = v := rfl
@[simp] theorem State.withResult_src (s : State) (v : DWord) : (s.withResult v).src = s.src := rfl
@[simp] theorem State.withResult_pat (s : State) (v : DWord) : (s.withResult v).pat = s.pat := rfl
@[simp] theorem State.withResult_out (s : State) (v : DWord) : (s.withResult v).out = s.out := rfl
@[simp] theorem State.withResult_seq (s : State) (v : DWord) : (s.withResult v).seq = s.seq := rfl
@[simp] theorem State.withResult_srcMax (s : State) (v : DWord) : (s.withResult v).srcMax = s.srcMax := rfl
@[simp] theorem State.withResult_patMax (s : State) (v : DWord) : (s.withResult v).patMax = s.patMax := rfl
@[simp] theorem State.withResult_outMax (s : State) (v : DWord) : (s.withResult v).outMax = s.outMax := rfl
@[simp] theorem State.withResult_rst (s : State) (v : DWord) : (s.withResult v).rst = s.rst := rfl
@[simp] theorem State.withResult_host (s : State) (v : DWord) : (s.withResult v).host = s.host := rfl
@[simp] theorem State.withResult_rdata (s : State) (v : DWord) : (s.withResult v).rdata = s.rdata := rfl
@[simp] theorem State.withResult_freeCount (s : State) (v : DWord) : (s.withResult v).freeCount = s.freeCount := rfl

/-! ### `State.withPos` -/

@[simp] theorem State.withPos_cmd (s : State) (v : Word) : (s.withPos v).cmd = s.cmd := rfl
@[simp] theorem State.withPos_busy (s : State) (v : Word) : (s.withPos v).busy = s.busy := rfl
@[simp] theorem State.withPos_done (s : State) (v : Word) : (s.withPos v).done = s.done := rfl
@[simp] theorem State.withPos_err (s : State) (v : Word) : (s.withPos v).err = s.err := rfl
@[simp] theorem State.withPos_matched (s : State) (v : Word) : (s.withPos v).matched = s.matched := rfl
@[simp] theorem State.withPos_errcode (s : State) (v : Word) : (s.withPos v).errcode = s.errcode := rfl
@[simp] theorem State.withPos_ie (s : State) (v : Word) : (s.withPos v).ie = s.ie := rfl
@[simp] theorem State.withPos_srcLen (s : State) (v : Word) : (s.withPos v).srcLen = s.srcLen := rfl
@[simp] theorem State.withPos_patLen (s : State) (v : Word) : (s.withPos v).patLen = s.patLen := rfl
@[simp] theorem State.withPos_outCap (s : State) (v : Word) : (s.withPos v).outCap = s.outCap := rfl
@[simp] theorem State.withPos_outLen (s : State) (v : Word) : (s.withPos v).outLen = s.outLen := rfl
@[simp] theorem State.withPos_pos (s : State) (v : Word) : (s.withPos v).pos = v := rfl
@[simp] theorem State.withPos_len (s : State) (v : Word) : (s.withPos v).len = s.len := rfl
@[simp] theorem State.withPos_expect (s : State) (v : Word) : (s.withPos v).expect = s.expect := rfl
@[simp] theorem State.withPos_result (s : State) (v : Word) : (s.withPos v).result = s.result := rfl
@[simp] theorem State.withPos_src (s : State) (v : Word) : (s.withPos v).src = s.src := rfl
@[simp] theorem State.withPos_pat (s : State) (v : Word) : (s.withPos v).pat = s.pat := rfl
@[simp] theorem State.withPos_out (s : State) (v : Word) : (s.withPos v).out = s.out := rfl
@[simp] theorem State.withPos_seq (s : State) (v : Word) : (s.withPos v).seq = s.seq := rfl
@[simp] theorem State.withPos_srcMax (s : State) (v : Word) : (s.withPos v).srcMax = s.srcMax := rfl
@[simp] theorem State.withPos_patMax (s : State) (v : Word) : (s.withPos v).patMax = s.patMax := rfl
@[simp] theorem State.withPos_outMax (s : State) (v : Word) : (s.withPos v).outMax = s.outMax := rfl
@[simp] theorem State.withPos_rst (s : State) (v : Word) : (s.withPos v).rst = s.rst := rfl
@[simp] theorem State.withPos_host (s : State) (v : Word) : (s.withPos v).host = s.host := rfl
@[simp] theorem State.withPos_rdata (s : State) (v : Word) : (s.withPos v).rdata = s.rdata := rfl
@[simp] theorem State.withPos_freeCount (s : State) (v : Word) : (s.withPos v).freeCount = s.freeCount := rfl

/-! ### `State.withOutLen` -/

@[simp] theorem State.withOutLen_cmd (s : State) (v : Word) : (s.withOutLen v).cmd = s.cmd := rfl
@[simp] theorem State.withOutLen_busy (s : State) (v : Word) : (s.withOutLen v).busy = s.busy := rfl
@[simp] theorem State.withOutLen_done (s : State) (v : Word) : (s.withOutLen v).done = s.done := rfl
@[simp] theorem State.withOutLen_err (s : State) (v : Word) : (s.withOutLen v).err = s.err := rfl
@[simp] theorem State.withOutLen_matched (s : State) (v : Word) : (s.withOutLen v).matched = s.matched := rfl
@[simp] theorem State.withOutLen_errcode (s : State) (v : Word) : (s.withOutLen v).errcode = s.errcode := rfl
@[simp] theorem State.withOutLen_ie (s : State) (v : Word) : (s.withOutLen v).ie = s.ie := rfl
@[simp] theorem State.withOutLen_srcLen (s : State) (v : Word) : (s.withOutLen v).srcLen = s.srcLen := rfl
@[simp] theorem State.withOutLen_patLen (s : State) (v : Word) : (s.withOutLen v).patLen = s.patLen := rfl
@[simp] theorem State.withOutLen_outCap (s : State) (v : Word) : (s.withOutLen v).outCap = s.outCap := rfl
@[simp] theorem State.withOutLen_outLen (s : State) (v : Word) : (s.withOutLen v).outLen = v := rfl
@[simp] theorem State.withOutLen_pos (s : State) (v : Word) : (s.withOutLen v).pos = s.pos := rfl
@[simp] theorem State.withOutLen_len (s : State) (v : Word) : (s.withOutLen v).len = s.len := rfl
@[simp] theorem State.withOutLen_expect (s : State) (v : Word) : (s.withOutLen v).expect = s.expect := rfl
@[simp] theorem State.withOutLen_result (s : State) (v : Word) : (s.withOutLen v).result = s.result := rfl
@[simp] theorem State.withOutLen_src (s : State) (v : Word) : (s.withOutLen v).src = s.src := rfl
@[simp] theorem State.withOutLen_pat (s : State) (v : Word) : (s.withOutLen v).pat = s.pat := rfl
@[simp] theorem State.withOutLen_out (s : State) (v : Word) : (s.withOutLen v).out = s.out := rfl
@[simp] theorem State.withOutLen_seq (s : State) (v : Word) : (s.withOutLen v).seq = s.seq := rfl
@[simp] theorem State.withOutLen_srcMax (s : State) (v : Word) : (s.withOutLen v).srcMax = s.srcMax := rfl
@[simp] theorem State.withOutLen_patMax (s : State) (v : Word) : (s.withOutLen v).patMax = s.patMax := rfl
@[simp] theorem State.withOutLen_outMax (s : State) (v : Word) : (s.withOutLen v).outMax = s.outMax := rfl
@[simp] theorem State.withOutLen_rst (s : State) (v : Word) : (s.withOutLen v).rst = s.rst := rfl
@[simp] theorem State.withOutLen_host (s : State) (v : Word) : (s.withOutLen v).host = s.host := rfl
@[simp] theorem State.withOutLen_rdata (s : State) (v : Word) : (s.withOutLen v).rdata = s.rdata := rfl
@[simp] theorem State.withOutLen_freeCount (s : State) (v : Word) : (s.withOutLen v).freeCount = s.freeCount := rfl

/-! ### `State.withSeq` -/

@[simp] theorem State.withSeq_cmd (s : State) (q : Sequencer) : (s.withSeq q).cmd = s.cmd := rfl
@[simp] theorem State.withSeq_busy (s : State) (q : Sequencer) : (s.withSeq q).busy = s.busy := rfl
@[simp] theorem State.withSeq_done (s : State) (q : Sequencer) : (s.withSeq q).done = s.done := rfl
@[simp] theorem State.withSeq_err (s : State) (q : Sequencer) : (s.withSeq q).err = s.err := rfl
@[simp] theorem State.withSeq_matched (s : State) (q : Sequencer) : (s.withSeq q).matched = s.matched := rfl
@[simp] theorem State.withSeq_errcode (s : State) (q : Sequencer) : (s.withSeq q).errcode = s.errcode := rfl
@[simp] theorem State.withSeq_ie (s : State) (q : Sequencer) : (s.withSeq q).ie = s.ie := rfl
@[simp] theorem State.withSeq_srcLen (s : State) (q : Sequencer) : (s.withSeq q).srcLen = s.srcLen := rfl
@[simp] theorem State.withSeq_patLen (s : State) (q : Sequencer) : (s.withSeq q).patLen = s.patLen := rfl
@[simp] theorem State.withSeq_outCap (s : State) (q : Sequencer) : (s.withSeq q).outCap = s.outCap := rfl
@[simp] theorem State.withSeq_outLen (s : State) (q : Sequencer) : (s.withSeq q).outLen = s.outLen := rfl
@[simp] theorem State.withSeq_pos (s : State) (q : Sequencer) : (s.withSeq q).pos = s.pos := rfl
@[simp] theorem State.withSeq_len (s : State) (q : Sequencer) : (s.withSeq q).len = s.len := rfl
@[simp] theorem State.withSeq_expect (s : State) (q : Sequencer) : (s.withSeq q).expect = s.expect := rfl
@[simp] theorem State.withSeq_result (s : State) (q : Sequencer) : (s.withSeq q).result = s.result := rfl
@[simp] theorem State.withSeq_src (s : State) (q : Sequencer) : (s.withSeq q).src = s.src := rfl
@[simp] theorem State.withSeq_pat (s : State) (q : Sequencer) : (s.withSeq q).pat = s.pat := rfl
@[simp] theorem State.withSeq_out (s : State) (q : Sequencer) : (s.withSeq q).out = s.out := rfl
@[simp] theorem State.withSeq_seq (s : State) (q : Sequencer) : (s.withSeq q).seq = q := rfl
@[simp] theorem State.withSeq_srcMax (s : State) (q : Sequencer) : (s.withSeq q).srcMax = s.srcMax := rfl
@[simp] theorem State.withSeq_patMax (s : State) (q : Sequencer) : (s.withSeq q).patMax = s.patMax := rfl
@[simp] theorem State.withSeq_outMax (s : State) (q : Sequencer) : (s.withSeq q).outMax = s.outMax := rfl
@[simp] theorem State.withSeq_rst (s : State) (q : Sequencer) : (s.withSeq q).rst = s.rst := rfl
@[simp] theorem State.withSeq_host (s : State) (q : Sequencer) : (s.withSeq q).host = s.host := rfl
@[simp] theorem State.withSeq_rdata (s : State) (q : Sequencer) : (s.withSeq q).rdata = s.rdata := rfl
@[simp] theorem State.withSeq_freeCount (s : State) (q : Sequencer) : (s.withSeq q).freeCount = s.freeCount := rfl

/-! ### `State.withRdata` -/

@[simp] theorem State.withRdata_cmd (s : State) (v : Word) : (s.withRdata v).cmd = s.cmd := rfl
@[simp] theorem State.withRdata_busy (s : State) (v : Word) : (s.withRdata v).busy = s.busy := rfl
@[simp] theorem State.withRdata_done (s : State) (v : Word) : (s.withRdata v).done = s.done := rfl
@[simp] theorem State.withRdata_err (s : State) (v : Word) : (s.withRdata v).err = s.err := rfl
@[simp] theorem State.withRdata_matched (s : State) (v : Word) : (s.withRdata v).matched = s.matched := rfl
@[simp] theorem State.withRdata_errcode (s : State) (v : Word) : (s.withRdata v).errcode = s.errcode := rfl
@[simp] theorem State.withRdata_ie (s : State) (v : Word) : (s.withRdata v).ie = s.ie := rfl
@[simp] theorem State.withRdata_srcLen (s : State) (v : Word) : (s.withRdata v).srcLen = s.srcLen := rfl
@[simp] theorem State.withRdata_patLen (s : State) (v : Word) : (s.withRdata v).patLen = s.patLen := rfl
@[simp] theorem State.withRdata_outCap (s : State) (v : Word) : (s.withRdata v).outCap = s.outCap := rfl
@[simp] theorem State.withRdata_outLen (s : State) (v : Word) : (s.withRdata v).outLen = s.outLen := rfl
@[simp] theorem State.withRdata_pos (s : State) (v : Word) : (s.withRdata v).pos = s.pos := rfl
@[simp] theorem State.withRdata_len (s : State) (v : Word) : (s.withRdata v).len = s.len := rfl
@[simp] theorem State.withRdata_expect (s : State) (v : Word) : (s.withRdata v).expect = s.expect := rfl
@[simp] theorem State.withRdata_result (s : State) (v : Word) : (s.withRdata v).result = s.result := rfl
@[simp] theorem State.withRdata_src (s : State) (v : Word) : (s.withRdata v).src = s.src := rfl
@[simp] theorem State.withRdata_pat (s : State) (v : Word) : (s.withRdata v).pat = s.pat := rfl
@[simp] theorem State.withRdata_out (s : State) (v : Word) : (s.withRdata v).out = s.out := rfl
@[simp] theorem State.withRdata_seq (s : State) (v : Word) : (s.withRdata v).seq = s.seq := rfl
@[simp] theorem State.withRdata_srcMax (s : State) (v : Word) : (s.withRdata v).srcMax = s.srcMax := rfl
@[simp] theorem State.withRdata_patMax (s : State) (v : Word) : (s.withRdata v).patMax = s.patMax := rfl
@[simp] theorem State.withRdata_outMax (s : State) (v : Word) : (s.withRdata v).outMax = s.outMax := rfl
@[simp] theorem State.withRdata_rst (s : State) (v : Word) : (s.withRdata v).rst = s.rst := rfl
@[simp] theorem State.withRdata_host (s : State) (v : Word) : (s.withRdata v).host = s.host := rfl
@[simp] theorem State.withRdata_rdata (s : State) (v : Word) : (s.withRdata v).rdata = v := rfl
@[simp] theorem State.withRdata_freeCount (s : State) (v : Word) : (s.withRdata v).freeCount = s.freeCount := rfl

/-! ### `State.voidOut` -/

@[simp] theorem State.voidOut_cmd (s : State) : s.voidOut.cmd = s.cmd := rfl
@[simp] theorem State.voidOut_busy (s : State) : s.voidOut.busy = s.busy := rfl
@[simp] theorem State.voidOut_done (s : State) : s.voidOut.done = s.done := rfl
@[simp] theorem State.voidOut_err (s : State) : s.voidOut.err = s.err := rfl
@[simp] theorem State.voidOut_matched (s : State) : s.voidOut.matched = s.matched := rfl
@[simp] theorem State.voidOut_errcode (s : State) : s.voidOut.errcode = s.errcode := rfl
@[simp] theorem State.voidOut_ie (s : State) : s.voidOut.ie = s.ie := rfl
@[simp] theorem State.voidOut_srcLen (s : State) : s.voidOut.srcLen = s.srcLen := rfl
@[simp] theorem State.voidOut_patLen (s : State) : s.voidOut.patLen = s.patLen := rfl
@[simp] theorem State.voidOut_outCap (s : State) : s.voidOut.outCap = s.outCap := rfl
@[simp] theorem State.voidOut_outLen (s : State) : s.voidOut.outLen = s.outLen := rfl
@[simp] theorem State.voidOut_pos (s : State) : s.voidOut.pos = s.pos := rfl
@[simp] theorem State.voidOut_len (s : State) : s.voidOut.len = s.len := rfl
@[simp] theorem State.voidOut_expect (s : State) : s.voidOut.expect = s.expect := rfl
@[simp] theorem State.voidOut_result (s : State) : s.voidOut.result = s.result := rfl
@[simp] theorem State.voidOut_src (s : State) : s.voidOut.src = s.src := rfl
@[simp] theorem State.voidOut_pat (s : State) : s.voidOut.pat = s.pat := rfl
@[simp] theorem State.voidOut_out (s : State) : s.voidOut.out = s.out.void s.outCap.toNat s.freeCount := rfl
@[simp] theorem State.voidOut_seq (s : State) : s.voidOut.seq = s.seq := rfl
@[simp] theorem State.voidOut_srcMax (s : State) : s.voidOut.srcMax = s.srcMax := rfl
@[simp] theorem State.voidOut_patMax (s : State) : s.voidOut.patMax = s.patMax := rfl
@[simp] theorem State.voidOut_outMax (s : State) : s.voidOut.outMax = s.outMax := rfl
@[simp] theorem State.voidOut_rst (s : State) : s.voidOut.rst = s.rst := rfl
@[simp] theorem State.voidOut_host (s : State) : s.voidOut.host = s.host := rfl
@[simp] theorem State.voidOut_rdata (s : State) : s.voidOut.rdata = s.rdata := rfl
@[simp] theorem State.voidOut_freeCount (s : State) : s.voidOut.freeCount = s.freeCount + 1 := rfl

/-! ### `State.issue` -/

@[simp] theorem State.issue_cmd (s : State) (w : Word) : (s.issue w).cmd = w := rfl
@[simp] theorem State.issue_busy (s : State) (w : Word) : (s.issue w).busy = true := rfl
@[simp] theorem State.issue_done (s : State) (w : Word) : (s.issue w).done = false := rfl
@[simp] theorem State.issue_err (s : State) (w : Word) : (s.issue w).err = false := rfl
@[simp] theorem State.issue_matched (s : State) (w : Word) : (s.issue w).matched = false := rfl
@[simp] theorem State.issue_errcode (s : State) (w : Word) : (s.issue w).errcode = none := rfl
@[simp] theorem State.issue_ie (s : State) (w : Word) : (s.issue w).ie = s.ie := rfl
@[simp] theorem State.issue_srcLen (s : State) (w : Word) : (s.issue w).srcLen = s.srcLen := rfl
@[simp] theorem State.issue_patLen (s : State) (w : Word) : (s.issue w).patLen = s.patLen := rfl
@[simp] theorem State.issue_outCap (s : State) (w : Word) : (s.issue w).outCap = s.outCap := rfl
@[simp] theorem State.issue_outLen (s : State) (w : Word) : (s.issue w).outLen = s.outLen := rfl
@[simp] theorem State.issue_pos (s : State) (w : Word) : (s.issue w).pos = s.pos := rfl
@[simp] theorem State.issue_len (s : State) (w : Word) : (s.issue w).len = s.len := rfl
@[simp] theorem State.issue_expect (s : State) (w : Word) : (s.issue w).expect = s.expect := rfl
@[simp] theorem State.issue_result (s : State) (w : Word) : (s.issue w).result = s.result := rfl
@[simp] theorem State.issue_src (s : State) (w : Word) : (s.issue w).src = s.src := rfl
@[simp] theorem State.issue_pat (s : State) (w : Word) : (s.issue w).pat = s.pat := rfl
@[simp] theorem State.issue_out (s : State) (w : Word) : (s.issue w).out = s.out := rfl
@[simp] theorem State.issue_seq (s : State) (w : Word) : (s.issue w).seq = .issued := rfl
@[simp] theorem State.issue_srcMax (s : State) (w : Word) : (s.issue w).srcMax = s.srcMax := rfl
@[simp] theorem State.issue_patMax (s : State) (w : Word) : (s.issue w).patMax = s.patMax := rfl
@[simp] theorem State.issue_outMax (s : State) (w : Word) : (s.issue w).outMax = s.outMax := rfl
@[simp] theorem State.issue_rst (s : State) (w : Word) : (s.issue w).rst = s.rst := rfl
@[simp] theorem State.issue_host (s : State) (w : Word) : (s.issue w).host = s.host := rfl
@[simp] theorem State.issue_rdata (s : State) (w : Word) : (s.issue w).rdata = s.rdata := rfl
@[simp] theorem State.issue_freeCount (s : State) (w : Word) : (s.issue w).freeCount = s.freeCount := rfl

/-! ### `State.complete` -/

@[simp] theorem State.complete_cmd (s : State) (m : Bool) : (s.complete m).cmd = s.cmd := rfl
@[simp] theorem State.complete_busy (s : State) (m : Bool) : (s.complete m).busy = false := rfl
@[simp] theorem State.complete_done (s : State) (m : Bool) : (s.complete m).done = true := rfl
@[simp] theorem State.complete_err (s : State) (m : Bool) : (s.complete m).err = false := rfl
@[simp] theorem State.complete_matched (s : State) (m : Bool) : (s.complete m).matched = m := rfl
@[simp] theorem State.complete_errcode (s : State) (m : Bool) : (s.complete m).errcode = none := rfl
@[simp] theorem State.complete_ie (s : State) (m : Bool) : (s.complete m).ie = s.ie := rfl
@[simp] theorem State.complete_srcLen (s : State) (m : Bool) : (s.complete m).srcLen = s.srcLen := rfl
@[simp] theorem State.complete_patLen (s : State) (m : Bool) : (s.complete m).patLen = s.patLen := rfl
@[simp] theorem State.complete_outCap (s : State) (m : Bool) : (s.complete m).outCap = s.outCap := rfl
@[simp] theorem State.complete_outLen (s : State) (m : Bool) : (s.complete m).outLen = s.outLen := rfl
@[simp] theorem State.complete_pos (s : State) (m : Bool) : (s.complete m).pos = s.pos := rfl
@[simp] theorem State.complete_len (s : State) (m : Bool) : (s.complete m).len = s.len := rfl
@[simp] theorem State.complete_expect (s : State) (m : Bool) : (s.complete m).expect = s.expect := rfl
@[simp] theorem State.complete_result (s : State) (m : Bool) : (s.complete m).result = s.result := rfl
@[simp] theorem State.complete_src (s : State) (m : Bool) : (s.complete m).src = s.src := rfl
@[simp] theorem State.complete_pat (s : State) (m : Bool) : (s.complete m).pat = s.pat := rfl
@[simp] theorem State.complete_out (s : State) (m : Bool) : (s.complete m).out = s.out := rfl
@[simp] theorem State.complete_seq (s : State) (m : Bool) : (s.complete m).seq = .idle := rfl
@[simp] theorem State.complete_srcMax (s : State) (m : Bool) : (s.complete m).srcMax = s.srcMax := rfl
@[simp] theorem State.complete_patMax (s : State) (m : Bool) : (s.complete m).patMax = s.patMax := rfl
@[simp] theorem State.complete_outMax (s : State) (m : Bool) : (s.complete m).outMax = s.outMax := rfl
@[simp] theorem State.complete_rst (s : State) (m : Bool) : (s.complete m).rst = s.rst := rfl
@[simp] theorem State.complete_host (s : State) (m : Bool) : (s.complete m).host = s.host := rfl
@[simp] theorem State.complete_rdata (s : State) (m : Bool) : (s.complete m).rdata = s.rdata := rfl
@[simp] theorem State.complete_freeCount (s : State) (m : Bool) : (s.complete m).freeCount = s.freeCount := rfl

/-! ### `State.withMem` -/

@[simp] theorem State.withMem_cmd (s : State) (b : Buf) (m : Memory) : (s.withMem b m).cmd = s.cmd := by cases b <;> rfl
@[simp] theorem State.withMem_busy (s : State) (b : Buf) (m : Memory) : (s.withMem b m).busy = s.busy := by cases b <;> rfl
@[simp] theorem State.withMem_done (s : State) (b : Buf) (m : Memory) : (s.withMem b m).done = s.done := by cases b <;> rfl
@[simp] theorem State.withMem_err (s : State) (b : Buf) (m : Memory) : (s.withMem b m).err = s.err := by cases b <;> rfl
@[simp] theorem State.withMem_matched (s : State) (b : Buf) (m : Memory) : (s.withMem b m).matched = s.matched := by cases b <;> rfl
@[simp] theorem State.withMem_errcode (s : State) (b : Buf) (m : Memory) : (s.withMem b m).errcode = s.errcode := by cases b <;> rfl
@[simp] theorem State.withMem_ie (s : State) (b : Buf) (m : Memory) : (s.withMem b m).ie = s.ie := by cases b <;> rfl
@[simp] theorem State.withMem_srcLen (s : State) (b : Buf) (m : Memory) : (s.withMem b m).srcLen = s.srcLen := by cases b <;> rfl
@[simp] theorem State.withMem_patLen (s : State) (b : Buf) (m : Memory) : (s.withMem b m).patLen = s.patLen := by cases b <;> rfl
@[simp] theorem State.withMem_outCap (s : State) (b : Buf) (m : Memory) : (s.withMem b m).outCap = s.outCap := by cases b <;> rfl
@[simp] theorem State.withMem_outLen (s : State) (b : Buf) (m : Memory) : (s.withMem b m).outLen = s.outLen := by cases b <;> rfl
@[simp] theorem State.withMem_pos (s : State) (b : Buf) (m : Memory) : (s.withMem b m).pos = s.pos := by cases b <;> rfl
@[simp] theorem State.withMem_len (s : State) (b : Buf) (m : Memory) : (s.withMem b m).len = s.len := by cases b <;> rfl
@[simp] theorem State.withMem_expect (s : State) (b : Buf) (m : Memory) : (s.withMem b m).expect = s.expect := by cases b <;> rfl
@[simp] theorem State.withMem_result (s : State) (b : Buf) (m : Memory) : (s.withMem b m).result = s.result := by cases b <;> rfl
@[simp] theorem State.withMem_seq (s : State) (b : Buf) (m : Memory) : (s.withMem b m).seq = s.seq := by cases b <;> rfl
@[simp] theorem State.withMem_srcMax (s : State) (b : Buf) (m : Memory) : (s.withMem b m).srcMax = s.srcMax := by cases b <;> rfl
@[simp] theorem State.withMem_patMax (s : State) (b : Buf) (m : Memory) : (s.withMem b m).patMax = s.patMax := by cases b <;> rfl
@[simp] theorem State.withMem_outMax (s : State) (b : Buf) (m : Memory) : (s.withMem b m).outMax = s.outMax := by cases b <;> rfl
@[simp] theorem State.withMem_rst (s : State) (b : Buf) (m : Memory) : (s.withMem b m).rst = s.rst := by cases b <;> rfl
@[simp] theorem State.withMem_host (s : State) (b : Buf) (m : Memory) : (s.withMem b m).host = s.host := by cases b <;> rfl
@[simp] theorem State.withMem_rdata (s : State) (b : Buf) (m : Memory) : (s.withMem b m).rdata = s.rdata := by cases b <;> rfl
@[simp] theorem State.withMem_freeCount (s : State) (b : Buf) (m : Memory) : (s.withMem b m).freeCount = s.freeCount := by cases b <;> rfl
@[simp] theorem State.withMem_src_src (s : State) (m : Memory) : (s.withMem .src m).src = m := rfl
@[simp] theorem State.withMem_pat_src (s : State) (m : Memory) : (s.withMem .pat m).src = s.src := rfl
@[simp] theorem State.withMem_out_src (s : State) (m : Memory) : (s.withMem .out m).src = s.src := rfl
@[simp] theorem State.withMem_src_pat (s : State) (m : Memory) : (s.withMem .src m).pat = s.pat := rfl
@[simp] theorem State.withMem_pat_pat (s : State) (m : Memory) : (s.withMem .pat m).pat = m := rfl
@[simp] theorem State.withMem_out_pat (s : State) (m : Memory) : (s.withMem .out m).pat = s.pat := rfl
@[simp] theorem State.withMem_src_out (s : State) (m : Memory) : (s.withMem .src m).out = s.out := rfl
@[simp] theorem State.withMem_pat_out (s : State) (m : Memory) : (s.withMem .pat m).out = s.out := rfl
@[simp] theorem State.withMem_out_out (s : State) (m : Memory) : (s.withMem .out m).out = m := rfl

/-! ### `State.loseOut` and `State.raise` -/

@[simp] theorem State.loseOut_cmd (s : State) (o : OutEffect) : (s.loseOut o).cmd = s.cmd := by cases o <;> rfl
@[simp] theorem State.loseOut_busy (s : State) (o : OutEffect) : (s.loseOut o).busy = s.busy := by cases o <;> rfl
@[simp] theorem State.loseOut_done (s : State) (o : OutEffect) : (s.loseOut o).done = s.done := by cases o <;> rfl
@[simp] theorem State.loseOut_err (s : State) (o : OutEffect) : (s.loseOut o).err = s.err := by cases o <;> rfl
@[simp] theorem State.loseOut_matched (s : State) (o : OutEffect) : (s.loseOut o).matched = s.matched := by cases o <;> rfl
@[simp] theorem State.loseOut_errcode (s : State) (o : OutEffect) : (s.loseOut o).errcode = s.errcode := by cases o <;> rfl
@[simp] theorem State.loseOut_ie (s : State) (o : OutEffect) : (s.loseOut o).ie = s.ie := by cases o <;> rfl
@[simp] theorem State.loseOut_srcLen (s : State) (o : OutEffect) : (s.loseOut o).srcLen = s.srcLen := by cases o <;> rfl
@[simp] theorem State.loseOut_patLen (s : State) (o : OutEffect) : (s.loseOut o).patLen = s.patLen := by cases o <;> rfl
@[simp] theorem State.loseOut_outCap (s : State) (o : OutEffect) : (s.loseOut o).outCap = s.outCap := by cases o <;> rfl
@[simp] theorem State.loseOut_pos (s : State) (o : OutEffect) : (s.loseOut o).pos = s.pos := by cases o <;> rfl
@[simp] theorem State.loseOut_len (s : State) (o : OutEffect) : (s.loseOut o).len = s.len := by cases o <;> rfl
@[simp] theorem State.loseOut_expect (s : State) (o : OutEffect) : (s.loseOut o).expect = s.expect := by cases o <;> rfl
@[simp] theorem State.loseOut_result (s : State) (o : OutEffect) : (s.loseOut o).result = s.result := by cases o <;> rfl
@[simp] theorem State.loseOut_src (s : State) (o : OutEffect) : (s.loseOut o).src = s.src := by cases o <;> rfl
@[simp] theorem State.loseOut_pat (s : State) (o : OutEffect) : (s.loseOut o).pat = s.pat := by cases o <;> rfl
@[simp] theorem State.loseOut_seq (s : State) (o : OutEffect) : (s.loseOut o).seq = s.seq := by cases o <;> rfl
@[simp] theorem State.loseOut_srcMax (s : State) (o : OutEffect) : (s.loseOut o).srcMax = s.srcMax := by cases o <;> rfl
@[simp] theorem State.loseOut_patMax (s : State) (o : OutEffect) : (s.loseOut o).patMax = s.patMax := by cases o <;> rfl
@[simp] theorem State.loseOut_outMax (s : State) (o : OutEffect) : (s.loseOut o).outMax = s.outMax := by cases o <;> rfl
@[simp] theorem State.loseOut_rst (s : State) (o : OutEffect) : (s.loseOut o).rst = s.rst := by cases o <;> rfl
@[simp] theorem State.loseOut_host (s : State) (o : OutEffect) : (s.loseOut o).host = s.host := by cases o <;> rfl
@[simp] theorem State.loseOut_rdata (s : State) (o : OutEffect) : (s.loseOut o).rdata = s.rdata := by cases o <;> rfl
@[simp] theorem State.loseOut_kept_outLen (s : State) : (s.loseOut .kept).outLen = s.outLen := rfl
@[simp] theorem State.loseOut_kept_out (s : State) : (s.loseOut .kept).out = s.out := rfl
@[simp] theorem State.loseOut_kept_freeCount (s : State) : (s.loseOut .kept).freeCount = s.freeCount := rfl
@[simp] theorem State.loseOut_emptied_outLen (s : State) : (s.loseOut .emptied).outLen = 0 := rfl
@[simp] theorem State.loseOut_emptied_out (s : State) : (s.loseOut .emptied).out = s.out := rfl
@[simp] theorem State.loseOut_emptied_freeCount (s : State) : (s.loseOut .emptied).freeCount = s.freeCount := rfl
@[simp] theorem State.loseOut_voided_outLen (s : State) : (s.loseOut .voided).outLen = 0 := rfl
@[simp] theorem State.loseOut_voided_out (s : State) : (s.loseOut .voided).out = s.out.void s.outCap.toNat s.freeCount := rfl
@[simp] theorem State.loseOut_voided_freeCount (s : State) : (s.loseOut .voided).freeCount = s.freeCount + 1 := rfl
@[simp] theorem State.raise_cmd (s : State) (e : ErrKind) (o : OutEffect) : (s.raise e o).cmd = s.cmd := by cases o <;> rfl
@[simp] theorem State.raise_busy (s : State) (e : ErrKind) (o : OutEffect) : (s.raise e o).busy = false := rfl
@[simp] theorem State.raise_done (s : State) (e : ErrKind) (o : OutEffect) : (s.raise e o).done = true := rfl
@[simp] theorem State.raise_err (s : State) (e : ErrKind) (o : OutEffect) : (s.raise e o).err = true := rfl
@[simp] theorem State.raise_matched (s : State) (e : ErrKind) (o : OutEffect) : (s.raise e o).matched = false := rfl
@[simp] theorem State.raise_errcode (s : State) (e : ErrKind) (o : OutEffect) : (s.raise e o).errcode = some e := rfl
@[simp] theorem State.raise_ie (s : State) (e : ErrKind) (o : OutEffect) : (s.raise e o).ie = s.ie := by cases o <;> rfl
@[simp] theorem State.raise_srcLen (s : State) (e : ErrKind) (o : OutEffect) : (s.raise e o).srcLen = s.srcLen := by cases o <;> rfl
@[simp] theorem State.raise_patLen (s : State) (e : ErrKind) (o : OutEffect) : (s.raise e o).patLen = s.patLen := by cases o <;> rfl
@[simp] theorem State.raise_outCap (s : State) (e : ErrKind) (o : OutEffect) : (s.raise e o).outCap = s.outCap := by cases o <;> rfl
@[simp] theorem State.raise_outLen (s : State) (e : ErrKind) (o : OutEffect) : (s.raise e o).outLen = (s.loseOut o).outLen := rfl
@[simp] theorem State.raise_pos (s : State) (e : ErrKind) (o : OutEffect) : (s.raise e o).pos = s.pos := by cases o <;> rfl
@[simp] theorem State.raise_len (s : State) (e : ErrKind) (o : OutEffect) : (s.raise e o).len = s.len := by cases o <;> rfl
@[simp] theorem State.raise_expect (s : State) (e : ErrKind) (o : OutEffect) : (s.raise e o).expect = s.expect := by cases o <;> rfl
@[simp] theorem State.raise_result (s : State) (e : ErrKind) (o : OutEffect) : (s.raise e o).result = s.result := by cases o <;> rfl
@[simp] theorem State.raise_src (s : State) (e : ErrKind) (o : OutEffect) : (s.raise e o).src = s.src := by cases o <;> rfl
@[simp] theorem State.raise_pat (s : State) (e : ErrKind) (o : OutEffect) : (s.raise e o).pat = s.pat := by cases o <;> rfl
@[simp] theorem State.raise_out (s : State) (e : ErrKind) (o : OutEffect) : (s.raise e o).out = (s.loseOut o).out := rfl
@[simp] theorem State.raise_seq (s : State) (e : ErrKind) (o : OutEffect) : (s.raise e o).seq = .idle := rfl
@[simp] theorem State.raise_srcMax (s : State) (e : ErrKind) (o : OutEffect) : (s.raise e o).srcMax = s.srcMax := by cases o <;> rfl
@[simp] theorem State.raise_patMax (s : State) (e : ErrKind) (o : OutEffect) : (s.raise e o).patMax = s.patMax := by cases o <;> rfl
@[simp] theorem State.raise_outMax (s : State) (e : ErrKind) (o : OutEffect) : (s.raise e o).outMax = s.outMax := by cases o <;> rfl
@[simp] theorem State.raise_rst (s : State) (e : ErrKind) (o : OutEffect) : (s.raise e o).rst = s.rst := by cases o <;> rfl
@[simp] theorem State.raise_host (s : State) (e : ErrKind) (o : OutEffect) : (s.raise e o).host = s.host := by cases o <;> rfl
@[simp] theorem State.raise_rdata (s : State) (e : ErrKind) (o : OutEffect) : (s.raise e o).rdata = s.rdata := by cases o <;> rfl
@[simp] theorem State.raise_freeCount (s : State) (e : ErrKind) (o : OutEffect) : (s.raise e o).freeCount = (s.loseOut o).freeCount := rfl

/-! ### Views of the state that an update keeps -/

@[simp] theorem State.mem_src (s : State) : s.mem .src = s.src := rfl
@[simp] theorem State.mem_pat (s : State) : s.mem .pat = s.pat := rfl
@[simp] theorem State.mem_out (s : State) : s.mem .out = s.out := rfl
@[simp] theorem State.bufLen_src (s : State) : s.bufLen .src = s.srcLen.toNat := rfl
@[simp] theorem State.bufLen_pat (s : State) : s.bufLen .pat = s.patLen.toNat := rfl
@[simp] theorem State.bufLen_out (s : State) : s.bufLen .out = s.outLen.toNat := rfl

@[simp] theorem State.withResult_byte (s : State) (v : DWord) (b : Buf) (a : Nat) : (s.withResult v).byte b a = s.byte b a := by cases b <;> rfl
@[simp] theorem State.withResult_mem (s : State) (v : DWord) (b : Buf) : (s.withResult v).mem b = s.mem b := by cases b <;> rfl
@[simp] theorem State.withResult_bufLen (s : State) (v : DWord) (b : Buf) : (s.withResult v).bufLen b = s.bufLen b := by cases b <;> rfl
@[simp] theorem State.withResult_operandsOk (s : State) (v : DWord) : (s.withResult v).operandsOk = s.operandsOk := rfl
@[simp] theorem State.withPos_byte (s : State) (v : Word) (b : Buf) (a : Nat) : (s.withPos v).byte b a = s.byte b a := by cases b <;> rfl
@[simp] theorem State.withPos_mem (s : State) (v : Word) (b : Buf) : (s.withPos v).mem b = s.mem b := by cases b <;> rfl
@[simp] theorem State.withPos_bufLen (s : State) (v : Word) (b : Buf) : (s.withPos v).bufLen b = s.bufLen b := by cases b <;> rfl
@[simp] theorem State.withPos_operandsOk (s : State) (v : Word) : (s.withPos v).operandsOk = s.operandsOk := rfl
@[simp] theorem State.withOutLen_byte (s : State) (v : Word) (b : Buf) (a : Nat) : (s.withOutLen v).byte b a = s.byte b a := by cases b <;> rfl
@[simp] theorem State.withOutLen_mem (s : State) (v : Word) (b : Buf) : (s.withOutLen v).mem b = s.mem b := by cases b <;> rfl
@[simp] theorem State.withSeq_byte (s : State) (q : Sequencer) (b : Buf) (a : Nat) : (s.withSeq q).byte b a = s.byte b a := by cases b <;> rfl
@[simp] theorem State.withSeq_mem (s : State) (q : Sequencer) (b : Buf) : (s.withSeq q).mem b = s.mem b := by cases b <;> rfl
@[simp] theorem State.withSeq_bufLen (s : State) (q : Sequencer) (b : Buf) : (s.withSeq q).bufLen b = s.bufLen b := by cases b <;> rfl
@[simp] theorem State.withSeq_operandsOk (s : State) (q : Sequencer) : (s.withSeq q).operandsOk = s.operandsOk := rfl
@[simp] theorem State.withRdata_byte (s : State) (v : Word) (b : Buf) (a : Nat) : (s.withRdata v).byte b a = s.byte b a := by cases b <;> rfl
@[simp] theorem State.withRdata_mem (s : State) (v : Word) (b : Buf) : (s.withRdata v).mem b = s.mem b := by cases b <;> rfl
@[simp] theorem State.withRdata_bufLen (s : State) (v : Word) (b : Buf) : (s.withRdata v).bufLen b = s.bufLen b := by cases b <;> rfl
@[simp] theorem State.withRdata_operandsOk (s : State) (v : Word) : (s.withRdata v).operandsOk = s.operandsOk := rfl
@[simp] theorem State.voidOut_bufLen (s : State) (b : Buf) : s.voidOut.bufLen b = s.bufLen b := by cases b <;> rfl
@[simp] theorem State.voidOut_operandsOk (s : State) : s.voidOut.operandsOk = s.operandsOk := rfl
@[simp] theorem State.issue_byte (s : State) (w : Word) (b : Buf) (a : Nat) : (s.issue w).byte b a = s.byte b a := by cases b <;> rfl
@[simp] theorem State.issue_mem (s : State) (w : Word) (b : Buf) : (s.issue w).mem b = s.mem b := by cases b <;> rfl
@[simp] theorem State.issue_bufLen (s : State) (w : Word) (b : Buf) : (s.issue w).bufLen b = s.bufLen b := by cases b <;> rfl
@[simp] theorem State.issue_operandsOk (s : State) (w : Word) : (s.issue w).operandsOk = s.operandsOk := rfl
@[simp] theorem State.complete_byte (s : State) (m : Bool) (b : Buf) (a : Nat) : (s.complete m).byte b a = s.byte b a := by cases b <;> rfl
@[simp] theorem State.complete_mem (s : State) (m : Bool) (b : Buf) : (s.complete m).mem b = s.mem b := by cases b <;> rfl
@[simp] theorem State.complete_bufLen (s : State) (m : Bool) (b : Buf) : (s.complete m).bufLen b = s.bufLen b := by cases b <;> rfl
@[simp] theorem State.complete_operandsOk (s : State) (m : Bool) : (s.complete m).operandsOk = s.operandsOk := rfl
@[simp] theorem State.withMem_mem_same (s : State) (b : Buf) (m : Memory) : (s.withMem b m).mem b = m := by cases b <;> rfl

theorem State.withMem_mem_other (s : State) {b b' : Buf} (m : Memory) (h : b' ≠ b) : (s.withMem b m).mem b' = s.mem b' := by
  cases b <;> cases b' <;> first | rfl | exact absurd rfl h

@[simp] theorem State.withMem_bufLen (s : State) (b b' : Buf) (m : Memory) : (s.withMem b m).bufLen b' = s.bufLen b' := by
  cases b <;> cases b' <;> rfl

@[simp] theorem State.withMem_operandsOk (s : State) (b : Buf) (m : Memory) : (s.withMem b m).operandsOk = s.operandsOk := by
  cases b <;> rfl

@[simp] theorem State.withMem_physSize (s : State) (b b' : Buf) (m : Memory) : (s.withMem b m).physSize b' = s.physSize b' := by
  cases b <;> cases b' <;> rfl

/-! ### What the host reads of a register -/

@[simp] theorem State.withMem_reg (s : State) (b : Buf) (m : Memory) (r : RegName) : (s.withMem b m).reg r = s.reg r := by
  cases b <;> cases r <;> rfl
@[simp] theorem State.withRdata_reg (s : State) (v : Word) (r : RegName) : (s.withRdata v).reg r = s.reg r := by cases r <;> rfl
@[simp] theorem State.voidOut_reg (s : State) (r : RegName) : s.voidOut.reg r = s.reg r := by cases r <;> rfl
@[simp] theorem State.withSeq_reg (s : State) (q : Sequencer) (r : RegName) : (s.withSeq q).reg r = s.reg r := by cases r <;> rfl

end Sys2Proof.Machine
end

