-- ==== Sys2Proof/Laws/Ops.lean ====
section
/-! SUPPORT. For each shared operation, once, what it can do. -/

namespace Sys2Proof.Machine

/-! ### Reading bytes -/

@[simp] theorem State.bytes_length (s : State) (b : Buf) (a n : Nat) : (s.bytes b a n).length = n := by
  induction n generalizing a with
  | zero => rfl
  | succ n ih => simp [State.bytes, ih]

theorem State.bytes_getElem? (s : State) (b : Buf) (a n : Nat) {i : Nat} (h : i < n) :
    (s.bytes b a n)[i]? = some (s.byte b (a + i)) := by
  induction n generalizing a i with
  | zero => omega
  | succ n ih =>
    cases i with
    | zero => simp [State.bytes]
    | succ i => simp [State.bytes, ih (a + 1) (i := i) (by omega), show a + 1 + i = a + (i + 1) by omega]

/-- The bytes read depend on the memory alone. -/
theorem State.bytes_congr {s t : State} {b : Buf} {a n : Nat} (h : ∀ i, a ≤ i → i < a + n → t.byte b i = s.byte b i) :
    t.bytes b a n = s.bytes b a n := by
  induction n generalizing a with
  | zero => rfl
  | succ n ih =>
    rw [State.bytes, State.bytes, h a (Nat.le_refl _) (by omega), ih (fun i h1 h2 => h i (by omega) (by omega))]

/-- MemRead answers with the bytes exactly when the range lies below the readable length. -/
theorem State.memRead_ok_iff {s : State} {b : Buf} {a n : Nat} {xs : List Byte} :
    s.memRead b a n = .ok xs ↔ a + n ≤ s.bufLen b ∧ xs = s.bytes b a n := by
  unfold State.memRead
  split
  · simp; omega
  · simp; constructor
    · rintro rfl; exact ⟨by omega, rfl⟩
    · rintro ⟨-, rfl⟩; rfl

/-- The only error of MemRead is TruncatedInput, exactly when the range passes the readable length. -/
theorem State.memRead_error_iff {s : State} {b : Buf} {a n : Nat} {e : ErrKind} :
    s.memRead b a n = .error e ↔ s.bufLen b < a + n ∧ e = .truncatedInput := by
  unfold State.memRead
  split
  · simp [*]; exact eq_comm
  · simp [*]

theorem State.memRead_of_le {s : State} {b : Buf} {a n : Nat} (h : a + n ≤ s.bufLen b) :
    s.memRead b a n = .ok (s.bytes b a n) := State.memRead_ok_iff.2 ⟨h, rfl⟩

theorem State.memRead_of_lt {s : State} {b : Buf} {a n : Nat} (h : s.bufLen b < a + n) :
    s.memRead b a n = .error .truncatedInput := State.memRead_error_iff.2 ⟨h, rfl⟩

theorem State.bufLen_lt (s : State) (b : Buf) : s.bufLen b < 2 ^ 32 := by cases b <;> exact BitVec.isLt _

/-! ### Byte order -/

theorem beFold_append (acc : Nat) (xs ys : List Byte) : beFold acc (xs ++ ys) = beFold (beFold acc xs) ys := by
  induction xs generalizing acc with
  | nil => rfl
  | cons x xs ih => exact ih _

theorem beFold_lt {acc : Nat} {xs : List Byte} {k : Nat} (h : acc < 256 ^ k) : beFold acc xs < 256 ^ (k + xs.length) := by
  induction xs generalizing acc k with
  | nil => simpa [beFold] using h
  | cons x xs ih =>
    have hx := x.isLt
    have := ih (acc := acc * 256 + x.toNat) (k := k + 1) (by rw [Nat.pow_succ]; omega)
    simpa [beFold, Nat.add_assoc, Nat.add_comm 1] using this

theorem beNat_lt (xs : List Byte) : beNat xs < 256 ^ xs.length := by
  simpa [beNat] using beFold_lt (acc := 0) (xs := xs) (k := 0) (by simp)

theorem leNat_lt (xs : List Byte) : leNat xs < 256 ^ xs.length := by
  induction xs with
  | nil => simp [leNat]
  | cons x xs ih =>
    have hx := x.isLt
    rw [leNat, List.length_cons, Nat.pow_succ]
    omega

/-- A field of at most eight bytes fits RESULT. -/
theorem fieldValue_lt {be : Bool} {xs : List Byte} (h : xs.length ≤ 8) : fieldValue be xs < 2 ^ 64 := by
  have : 256 ^ xs.length ≤ 2 ^ 64 := by
    calc 256 ^ xs.length ≤ 256 ^ 8 := Nat.pow_le_pow_right (by omega) h
      _ = 2 ^ 64 := by norm_num
  unfold fieldValue
  split
  · exact Nat.lt_of_lt_of_le (beNat_lt xs) this
  · exact Nat.lt_of_lt_of_le (leNat_lt xs) this

theorem beNat_two (x y : Byte) : beNat [x, y] = 256 * x.toNat + y.toNat := by
  simp only [beNat, beFold]; omega

theorem beNat_four (x y z u : Byte) :
    beNat [x, y, z, u] = 65536 * (256 * x.toNat + y.toNat) + (256 * z.toNat + u.toNat) := by
  simp only [beNat, beFold]; omega

/-! ### The common operand check -/

theorem State.operandsOk_iff (s : State) : s.operandsOk = true ↔
    s.srcLen.toNat ≤ s.srcMax.toNat ∧ s.patLen.toNat ≤ s.patMax.toNat ∧
      s.outCap.toNat ≤ s.outMax.toNat ∧ s.outLen.toNat ≤ s.outCap.toNat := by
  simp [State.operandsOk, and_assoc]

theorem State.checked_ok {s : State} {i : Instr} (own : Result) (hi : i.wellFormed = true) (hs : s.operandsOk = true) :
    s.checked i own = own := by simp [State.checked, hi, hs]

theorem State.checked_bad {s : State} {i : Instr} (own : Result) (h : i.wellFormed = false ∨ s.operandsOk = false) :
    s.checked i own = .next (s.raise .illegalCommand .kept) := by
  rcases h with h | h <;> simp [State.checked, h]

/-- The check either lets the command's own steps run or raises IllegalCommand with OUT kept. -/
theorem State.checked_cases (s : State) (i : Instr) (own : Result) :
    (i.wellFormed = true ∧ s.operandsOk = true ∧ s.checked i own = own) ∨
    ((i.wellFormed = false ∨ s.operandsOk = false) ∧ s.checked i own = .next (s.raise .illegalCommand .kept)) := by
  cases hi : i.wellFormed
  · exact .inr ⟨.inl rfl, State.checked_bad own (.inl hi)⟩
  · cases hs : s.operandsOk
    · exact .inr ⟨.inr rfl, State.checked_bad own (.inr hs)⟩
    · exact .inl ⟨rfl, rfl, State.checked_ok own hi hs⟩

/-! ### Completion with an error -/

/-- An error leaves every byte of OUT at or beyond OUT_CAP as it was. -/
theorem State.raise_byte_out_above (s : State) (e : ErrKind) (o : OutEffect) {a : Nat} (h : s.outCap.toNat ≤ a) :
    (s.raise e o).byte .out a = s.byte .out a := by
  cases o
  · rfl
  · rfl
  · exact Memory.byteAt_void_above _ _ _ _ h

/-- An error leaves every byte of SRC and PAT as it was. -/
theorem State.raise_byte_input (s : State) (e : ErrKind) (o : OutEffect) {b : Buf} (h : b ≠ .out) (a : Nat) :
    (s.raise e o).byte b a = s.byte b a := by
  cases b
  · simp [State.byte]
  · simp [State.byte]
  · exact absurd rfl h

/-- What a completion leaves does not depend on the sequencer it ends. -/
@[simp] theorem State.raise_withSeq (s : State) (q : Sequencer) (e : ErrKind) (o : OutEffect) :
    (s.withSeq q).raise e o = s.raise e o := by cases o <;> rfl

theorem State.yay0Copy_withSeq (s : State) (x : Sequencer) (b : Buf) (q : Yay0Seq) (n d : Nat) :
    (s.withSeq x).yay0Copy b q n d = s.yay0Copy b q n d := by
  unfold State.yay0Copy
  split
  · exact State.raise_withSeq _ _ _ _
  · simp only [State.withSeq_out]
    split
    · exact State.raise_withSeq _ _ _ _
    · rfl

/-! ### The cursors of the YAY0 sequencer -/

@[simp] theorem Yay0Seq.takeBit_size (q : Yay0Seq) : q.takeBit.size = q.size := rfl
@[simp] theorem Yay0Seq.takeBit_cp (q : Yay0Seq) : q.takeBit.cp = q.cp := rfl
@[simp] theorem Yay0Seq.takeBit_cw (q : Yay0Seq) : q.takeBit.cw = q.cw <<< 1 := rfl
@[simp] theorem Yay0Seq.takeBit_cb (q : Yay0Seq) : q.takeBit.cb = q.cb - 1 := rfl
@[simp] theorem Yay0Seq.takeBit_pp (q : Yay0Seq) : q.takeBit.pp = q.pp := rfl
@[simp] theorem Yay0Seq.takeBit_kp (q : Yay0Seq) : q.takeBit.kp = q.kp := rfl
@[simp] theorem Yay0Seq.takeBit_op (q : Yay0Seq) : q.takeBit.op = q.op := rfl
@[simp] theorem Yay0Seq.takeChunk_size (q : Yay0Seq) : q.takeChunk.size = q.size := rfl
@[simp] theorem Yay0Seq.takeChunk_cp (q : Yay0Seq) : q.takeChunk.cp = q.cp := rfl
@[simp] theorem Yay0Seq.takeChunk_cw (q : Yay0Seq) : q.takeChunk.cw = q.cw := rfl
@[simp] theorem Yay0Seq.takeChunk_cb (q : Yay0Seq) : q.takeChunk.cb = q.cb := rfl
@[simp] theorem Yay0Seq.takeChunk_pp (q : Yay0Seq) : q.takeChunk.pp = q.pp := rfl
@[simp] theorem Yay0Seq.takeChunk_kp (q : Yay0Seq) : q.takeChunk.kp = q.kp + 1 := rfl
@[simp] theorem Yay0Seq.takeChunk_op (q : Yay0Seq) : q.takeChunk.op = q.op := rfl
@[simp] theorem Yay0Seq.takePair_size (q : Yay0Seq) : q.takePair.size = q.size := rfl
@[simp] theorem Yay0Seq.takePair_cp (q : Yay0Seq) : q.takePair.cp = q.cp := rfl
@[simp] theorem Yay0Seq.takePair_cw (q : Yay0Seq) : q.takePair.cw = q.cw := rfl
@[simp] theorem Yay0Seq.takePair_cb (q : Yay0Seq) : q.takePair.cb = q.cb := rfl
@[simp] theorem Yay0Seq.takePair_pp (q : Yay0Seq) : q.takePair.pp = q.pp + 2 := rfl
@[simp] theorem Yay0Seq.takePair_kp (q : Yay0Seq) : q.takePair.kp = q.kp := rfl
@[simp] theorem Yay0Seq.takePair_op (q : Yay0Seq) : q.takePair.op = q.op := rfl
@[simp] theorem Yay0Seq.produce_size (q : Yay0Seq) (n : Nat) : (q.produce n).size = q.size := rfl
@[simp] theorem Yay0Seq.produce_cp (q : Yay0Seq) (n : Nat) : (q.produce n).cp = q.cp := rfl
@[simp] theorem Yay0Seq.produce_cw (q : Yay0Seq) (n : Nat) : (q.produce n).cw = q.cw := rfl
@[simp] theorem Yay0Seq.produce_cb (q : Yay0Seq) (n : Nat) : (q.produce n).cb = q.cb := rfl
@[simp] theorem Yay0Seq.produce_pp (q : Yay0Seq) (n : Nat) : (q.produce n).pp = q.pp := rfl
@[simp] theorem Yay0Seq.produce_kp (q : Yay0Seq) (n : Nat) : (q.produce n).kp = q.kp := rfl
@[simp] theorem Yay0Seq.produce_op (q : Yay0Seq) (n : Nat) : (q.produce n).op = q.op + n := rfl

/-! ### The continuation of YAY0's loop -/

/-- Go on with the sequencer, or complete with the declared size. -/
theorem State.yay0Go_cases (s : State) (b : Buf) (q : Yay0Seq) :
    (q.op < q.size ∧ s.yay0Go b q = s.withSeq (.yay0 b q)) ∨
    (q.size ≤ q.op ∧ s.yay0Go b q =
      ((s.withOutLen (BitVec.ofNat 32 q.size)).withResult (BitVec.ofNat 64 q.size)).complete false) := by
  unfold State.yay0Go
  split
  · exact .inl ⟨by assumption, rfl⟩
  · exact .inr ⟨by omega, rfl⟩

/-! ### The copy loop -/

/-- The copy loop answers exactly when the last byte lies below the declared size. -/
theorem copyLoop_isSome {d size n : Nat} {m : Memory} {op : Nat} (h : n = 0 ∨ op + n ≤ size) :
    ∃ m', copyLoop d size n m op = some m' := by
  induction n generalizing m op with
  | zero => exact ⟨m, rfl⟩
  | succ n ih =>
    rw [copyLoop, if_neg (by omega)]
    exact ih (by omega)

theorem copyLoop_some {d size n : Nat} {m m' : Memory} {op : Nat} (h : copyLoop d size n m op = some m') :
    n = 0 ∨ op + n ≤ size := by
  induction n generalizing m op with
  | zero => exact .inl rfl
  | succ n ih =>
    rw [copyLoop] at h
    split at h
    · cases h
    · rcases ih h with h' | h' <;> omega

theorem copyLoop_none {d size n : Nat} {m : Memory} {op : Nat} (h : copyLoop d size n m op = none) : size < op + n := by
  apply Nat.lt_of_not_le
  intro hle
  obtain ⟨m', hm⟩ := copyLoop_isSome (d := d) (m := m) (.inr hle)
  rw [hm] at h
  cases h

/-- The copy loop changes no byte but the `n` from `op` on. -/
theorem copyLoop_outside {d size n : Nat} {m m' : Memory} {op : Nat} (h : copyLoop d size n m op = some m') {a : Nat}
    (ha : a < op ∨ op + n ≤ a) : m'.byteAt .out a = m.byteAt .out a := by
  induction n generalizing m op with
  | zero => cases h; rfl
  | succ n ih =>
    rw [copyLoop] at h
    split at h
    · cases h
    · rw [ih h (by omega), Memory.byteAt_write_other _ _ _ (by omega)]

/-- What COPY and LCOPY share ends in BadReference, in BoundsViolation, or in the copy. -/
theorem State.yay0Copy_cases (s : State) (b : Buf) (q : Yay0Seq) (n d : Nat) :
    (q.op < d + 1 ∧ s.yay0Copy b q n d = s.raise .badReference q.outEffect) ∨
    (d + 1 ≤ q.op ∧ q.size < q.op + n ∧ s.yay0Copy b q n d = s.raise .boundsViolation .voided) ∨
    (d + 1 ≤ q.op ∧ (n = 0 ∨ q.op + n ≤ q.size) ∧
      ∃ m, copyLoop d q.size n s.out q.op = some m ∧
        s.yay0Copy b q n d = (s.withMem .out m).yay0Go b (q.produce n)) := by
  unfold State.yay0Copy
  split
  · exact .inl ⟨by assumption, rfl⟩
  · split
    · rename_i hc
      exact .inr (.inl ⟨by omega, copyLoop_none hc, rfl⟩)
    · rename_i m hc
      exact .inr (.inr ⟨by omega, copyLoop_some hc, m, hc, rfl⟩)

/-- Each byte the copy loop writes equals the byte `d + 1` before it, which the same copy may have written. -/
theorem copyLoop_inside {d size n : Nat} {m m' : Memory} {op : Nat} (h : copyLoop d size n m op = some m')
    (hd : d + 1 ≤ op) {j : Nat} (hj : j < n) : m'.byteAt .out (op + j) = m'.byteAt .out (op + j - d - 1) := by
  induction n generalizing m op j with
  | zero => omega
  | succ n ih =>
    rw [copyLoop] at h
    split at h
    · cases h
    · cases j with
      | zero =>
        rw [copyLoop_outside h (by omega), copyLoop_outside h (by omega)]
        simp only [Nat.add_zero, Memory.byteAt_write_same]
        rw [Memory.byteAt_write_other _ _ _ (by omega)]
      | succ j =>
        have := ih h (by omega) (j := j) (by omega)
        rwa [show op + 1 + j = op + (j + 1) by omega] at this

theorem copyLoop_wf {d size n : Nat} {m m' : Memory} {op : Nat} (h : copyLoop d size n m op = some m')
    (hm : m.wf = true) : m'.wf = true := by
  induction n generalizing m op with
  | zero => cases h; exact hm
  | succ n ih =>
    rw [copyLoop] at h
    split at h
    · cases h
    · exact ih h (Memory.write_wf _ _ hm)

/-! ### The cells and ranges that an operation leaves -/

theorem Memory.write_cells {m : Memory} {a : Nat} {v : Byte} {c : Host.Cell} (h : c ∈ (m.write a v).cells) :
    c.1 = a ∨ c ∈ m.cells := by
  rcases mem_cellPut h with h | h
  · exact .inl (by rw [h])
  · exact .inr h

theorem Memory.writeAll_cells {m : Memory} {a : Nat} {vs : List Byte} {c : Host.Cell} (h : c ∈ (m.writeAll a vs).cells) :
    (a ≤ c.1 ∧ c.1 < a + vs.length) ∨ c ∈ m.cells := by
  induction vs generalizing m a with
  | nil => exact .inr h
  | cons v vs ih =>
    rw [List.length_cons]
    rcases ih h with h | h
    · exact .inl (by omega)
    · rcases Memory.write_cells h with h | h
      · exact .inl (by omega)
      · exact .inr h

theorem Memory.void_cells {m : Memory} {n e : Nat} {c : Host.Cell} (h : c ∈ (m.void n e).cells) : c ∈ m.cells := by
  unfold Memory.void at h
  split at h
  · exact h
  · exact (List.mem_filter.1 h).1

theorem copyLoop_cells {d size n : Nat} {m m' : Memory} {op : Nat} (h : copyLoop d size n m op = some m') {c : Host.Cell}
    (hc : c ∈ m'.cells) : c.1 < size ∨ c ∈ m.cells := by
  induction n generalizing m op with
  | zero => cases h; exact .inr hc
  | succ n ih =>
    rw [copyLoop] at h
    split at h
    · cases h
    · rcases ih h with h' | h'
      · exact .inl h'
      · rcases Memory.write_cells h' with h' | h'
        · exact .inl (by omega)
        · exact .inr h'

theorem Memory.write_epochs {m : Memory} {a : Nat} {v : Byte} {n : Nat} (h : ∀ r ∈ m.stale, r.epoch < n) :
    ∀ r ∈ (m.write a v).stale, r.epoch < n := by
  intro r hr
  obtain ⟨q, hq, he⟩ := mem_staleCut hr
  rw [← he]
  exact h q hq

theorem Memory.writeAll_epochs {m : Memory} {a : Nat} {vs : List Byte} {n : Nat} (h : ∀ r ∈ m.stale, r.epoch < n) :
    ∀ r ∈ (m.writeAll a vs).stale, r.epoch < n := by
  induction vs generalizing m a with
  | nil => exact h
  | cons v vs ih => exact ih (Memory.write_epochs h)

theorem copyLoop_epochs {d size n : Nat} {m m' : Memory} {op k : Nat} (h : copyLoop d size n m op = some m')
    (hm : ∀ r ∈ m.stale, r.epoch < k) : ∀ r ∈ m'.stale, r.epoch < k := by
  induction n generalizing m op with
  | zero => cases h; exact hm
  | succ n ih =>
    rw [copyLoop] at h
    split at h
    · cases h
    · exact ih h (Memory.write_epochs hm)

theorem Memory.void_epochs {m : Memory} {n e : Nat} (h : ∀ r ∈ m.stale, r.epoch < e) :
    ∀ r ∈ (m.void n e).stale, r.epoch < e + 1 := by
  intro r hr
  unfold Memory.void at hr
  split at hr
  · have := h r hr
    omega
  · rcases List.mem_cons.1 hr with rfl | hr
    · exact Nat.lt_succ_self _
    · obtain ⟨q, hq, he⟩ := mem_staleAbove hr
      have := h q hq
      omega

theorem Memory.write_stale_nil {m : Memory} {a : Nat} {v : Byte} (h : m.stale = []) : (m.write a v).stale = [] := by
  simp [Memory.write, h, staleCut]

/-! ### The exchange of pairs -/

@[simp] theorem swapPairs_length (xs : List Byte) : (swapPairs xs).length = xs.length := by
  fun_induction swapPairs xs <;> simp_all

/-- The two bytes of pair `i` are exchanged. -/
theorem swapPairs_getElem? (xs : List Byte) {i : Nat} (h : 2 * i + 1 < xs.length) :
    (swapPairs xs)[2 * i]? = xs[2 * i + 1]? ∧ (swapPairs xs)[2 * i + 1]? = xs[2 * i]? := by
  induction i generalizing xs with
  | zero =>
    match xs, h with
    | x :: y :: r, _ => simp [swapPairs]
  | succ i ih =>
    match xs, h with
    | x :: y :: r, h =>
      have := ih r (by simp at h; omega)
      simpa [swapPairs, show 2 * (i + 1) = 2 * i + 1 + 1 by omega] using this

/-! ### The fetch -/

/-- A control word is read exactly when none is left; nothing else of the sequencer changes. -/
theorem State.yay0Refill_ok {s : State} {b : Buf} {q q' : Yay0Seq} (h : s.yay0Refill b q = .ok q') :
    (q.cb ≠ 0 ∧ q' = q) ∨
    (q.cb = 0 ∧ q.cp + 4 ≤ s.bufLen b ∧ q' = { q with cw := be32 (s.bytes b q.cp 4), cp := q.cp + 4, cb := 32 }) := by
  unfold State.yay0Refill at h
  split at h
  · rename_i hz
    split at h
    · cases h
    · rename_i w hw
      obtain ⟨hle, rfl⟩ := State.memRead_ok_iff.1 hw
      cases h
      exact .inr ⟨hz, hle, rfl⟩
  · cases h
    exact .inl ⟨by assumption, rfl⟩

theorem State.yay0Refill_error {s : State} {b : Buf} {q : Yay0Seq} {e : ErrKind} (h : s.yay0Refill b q = .error e) :
    q.cb = 0 ∧ s.bufLen b < q.cp + 4 ∧ e = .truncatedInput := by
  unfold State.yay0Refill at h
  split at h
  · rename_i hz
    split at h
    · rename_i hw
      cases h
      exact ⟨hz, State.memRead_error_iff.1 hw⟩
    · cases h
  · cases h

/-- The bytes a Yay0 operation is fetched from: the control bit selects LIT, and otherwise the pair selects COPY or LCOPY. -/
theorem State.yay0Fetch_ok {s : State} {b : Buf} {q q' : Yay0Seq} {c : Code} (h : s.yay0Fetch b q = .ok (c, q')) :
    s.yay0Refill b q = .ok q' ∧
    ((q'.cw.getLsbD 31 = true ∧ q'.kp + 1 ≤ s.bufLen b ∧ c = .yay0Op true [] [s.byte b q'.kp]) ∨
     (q'.cw.getLsbD 31 = false ∧ q'.pp + 2 ≤ s.bufLen b ∧
       let p := pairOf (s.byte b q'.pp) (s.byte b (q'.pp + 1))
       ((p / 4096 = 0 ∧ q'.kp + 1 ≤ s.bufLen b ∧
          c = .yay0Op false [s.byte b q'.pp, s.byte b (q'.pp + 1)] [s.byte b q'.kp]) ∨
        (p / 4096 ≠ 0 ∧ c = .yay0Op false [s.byte b q'.pp, s.byte b (q'.pp + 1)] [])))) := by
  unfold State.yay0Fetch at h
  split at h
  · cases h
  · rename_i q1 hr
    split at h
    · rename_i hbit
      split at h
      · cases h
      · rename_i x hx
        obtain ⟨hle, rfl⟩ := State.memRead_ok_iff.1 hx
        cases h
        exact ⟨hr, .inl ⟨hbit, hle, rfl⟩⟩
    · rename_i hbit
      split at h
      · cases h
      · rename_i p hp
        obtain ⟨hle, rfl⟩ := State.memRead_ok_iff.1 hp
        split at h
        · rename_i hf
          split at h
          · cases h
          · rename_i x hx
            obtain ⟨hle', rfl⟩ := State.memRead_ok_iff.1 hx
            cases h
            refine ⟨hr, .inr ⟨by simpa using hbit, hle, .inl ⟨?_, hle', rfl⟩⟩⟩
            simpa [State.bytes, beNat_two, pairOf] using hf
        · rename_i hf
          cases h
          refine ⟨hr, .inr ⟨by simpa using hbit, hle, .inr ⟨?_, rfl⟩⟩⟩
          simpa only [State.bytes, beNat_two, pairOf] using hf

/-- The only error of the fetch of a Yay0 operation is TruncatedInput. -/
theorem State.yay0Fetch_error {s : State} {b : Buf} {q : Yay0Seq} {e : ErrKind} (h : s.yay0Fetch b q = .error e) :
    e = .truncatedInput := by
  unfold State.yay0Fetch at h
  split at h
  · rename_i hr
    cases h
    exact (State.yay0Refill_error hr).2.2
  · split at h
    · split at h
      · rename_i hx
        cases h
        exact (State.memRead_error_iff.1 hx).2
      · cases h
    · split at h
      · rename_i hx
        cases h
        exact (State.memRead_error_iff.1 hx).2
      · split at h
        · split at h
          · rename_i hx
            cases h
            exact (State.memRead_error_iff.1 hx).2
          · cases h
        · cases h

/-- What is fetched from the Yay0 streams always decodes, to LIT, COPY or LCOPY. -/
theorem State.yay0Fetch_decodes {s : State} {b : Buf} {q q' : Yay0Seq} {c : Code} (h : s.yay0Fetch b q = .ok (c, q')) :
    (∃ k, decode c = .ok (.lit k)) ∨ (∃ f d, f ≠ 0 ∧ decode c = .ok (.copy f d)) ∨ (∃ d e, decode c = .ok (.lcopy d e)) := by
  obtain ⟨-, ⟨-, -, rfl⟩ | ⟨-, -, h⟩⟩ := State.yay0Fetch_ok h
  · exact .inl ⟨_, rfl⟩
  · have hp := pairOf_lt (s.byte b q'.pp) (s.byte b (q'.pp + 1))
    obtain ⟨hz, -, rfl⟩ | ⟨hz, rfl⟩ := h
    · refine .inr (.inr ⟨pairD (pairOf (s.byte b q'.pp) (s.byte b (q'.pp + 1))), s.byte b q'.kp, ?_⟩)
      simp [decode, decodeYay0Op, pairF, hz]
    · have hne : pairF (pairOf (s.byte b q'.pp) (s.byte b (q'.pp + 1))) ≠ 0 := by
        intro h0
        have := congrArg BitVec.toNat h0
        simp only [pairF, BitVec.toNat_ofNat] at this
        simp at this
        omega
      exact .inr (.inl ⟨_, pairD (pairOf (s.byte b q'.pp) (s.byte b (q'.pp + 1))), hne, by
        simp only [decode, decodeYay0Op]; rw [if_pos hne]⟩)

/-- A varint byte is fetched when it lies below the readable length. -/
theorem State.varintFetch_ok {s : State} {b : Buf} {q : VarintSeq} {c : Code} (h : s.varintFetch b q = .ok c) :
    q.p + 1 ≤ s.bufLen b ∧ c = .varintByte (s.byte b q.p) := by
  unfold State.varintFetch at h
  split at h
  · cases h
  · rename_i x hx
    cases h
    exact ⟨(State.memRead_ok_iff.1 hx).1, rfl⟩

theorem State.varintFetch_error {s : State} {b : Buf} {q : VarintSeq} {e : ErrKind} (h : s.varintFetch b q = .error e) :
    s.bufLen b < q.p + 1 ∧ e = .truncatedInput := by
  unfold State.varintFetch at h
  split at h
  · rename_i hx
    cases h
    exact State.memRead_error_iff.1 hx
  · cases h

/-! ### Whose turn it is -/

/-- With no pending operation the step is the block's. -/
theorem step_of_host_nil {s : State} (h : s.host = []) : step s = blockStep s := by simp [step, State.turn, h]

theorem step_of_run {s : State} {rest : List HostOp} (h : s.host = .run :: rest) :
    step s = blockStep { s with host := rest } := by simp [step, State.turn, h]

theorem step_of_wait {s : State} {rest : List HostOp} (h : s.host = .wait :: rest) :
    step s = if s.busy then blockStep s
      else .next (({ s with host := rest } : State).withRdata (({ s with host := rest } : State).reg .status)) := by
  cases hb : s.busy <;> simp [step, State.turn, h, hb]

/-! ### Reset -/

/-- What `rst` does to the buffers is nothing, or leaving the content of OUT below OUT_CAP unspecified. -/
theorem State.abandon_cases (s : State) : s.abandon = s ∨ (s.busy = true ∧ s.abandon = s.voidOut) := by
  unfold State.abandon
  split
  · rename_i h
    split
    · exact .inr ⟨h, rfl⟩
    · exact .inr ⟨h, rfl⟩
    · exact .inl rfl
  · exact .inl rfl

/-- Every register has its reset value (R46, R270). -/
@[simp] theorem State.applyReset_reg (s : State) (r : RegName) : s.applyReset.reg r = 0 := by
  cases r with
  | resultLo => show resultLo 0 = 0; decide
  | resultHi => show resultHi 0 = 0; decide
  | _ => rfl
@[simp] theorem State.applyReset_irq (s : State) : s.applyReset.irq = false := rfl
@[simp] theorem State.applyReset_seq (s : State) : s.applyReset.seq = .idle := rfl
@[simp] theorem State.applyReset_busy (s : State) : s.applyReset.busy = false := rfl

/-- Asserting the input, or releasing it while it is asserted, resets; otherwise nothing happens (R270). -/
theorem State.driveRst_cases (s : State) (level : Bool) :
    ((level = true ∨ s.rst = true) ∧ s.driveRst level = { s.applyReset with rst := level }) ∨
    (level = false ∧ s.rst = false ∧ s.driveRst level = s) := by
  cases level <;> cases h : s.rst <;> simp [State.driveRst, h]

/-- A register write has no effect while a command runs (R33) or `rst` is asserted (R270). -/
theorem State.busWrite_ignored {s : State} (off : Nat) (v : Word) (h : s.busy = true ∨ s.rst = true) :
    s.busWrite off v = s := by
  rcases h with h | h <;> simp [State.busWrite, h]

/-- Registers that all read 0 are idle flags, no error and no interrupt. -/
theorem State.idle_of_reg_zero {s : State} (h : ∀ r, s.reg r = 0) :
    s.busy = false ∧ s.done = false ∧ s.err = false ∧ s.matched = false ∧ s.errcode = none ∧ s.ie = false ∧ s.result = 0 := by
  have hs := h .status
  have he := h .errcode
  have hi := h .ctrl
  have hl := h .resultLo
  have hh := h .resultHi
  simp only [State.reg] at hs he hi hl hh
  refine ⟨?_, ?_, ?_, ?_, ?_, ?_, ?_⟩
  · revert hs; cases s.busy <;> cases s.done <;> cases s.err <;> cases s.matched <;> simp [statusWord]
  · revert hs; cases s.busy <;> cases s.done <;> cases s.err <;> cases s.matched <;> simp [statusWord]
  · revert hs; cases s.busy <;> cases s.done <;> cases s.err <;> cases s.matched <;> simp [statusWord]
  · revert hs; cases s.busy <;> cases s.done <;> cases s.err <;> cases s.matched <;> simp [statusWord]
  · revert he; cases s.errcode with
    | none => exact fun _ => rfl
    | some k => cases k <;> simp [errWord, ErrKind.code]
  · revert hi; cases s.ie <;> simp [ctrlWord]
  · apply BitVec.eq_of_getLsbD_eq
    intro i hi
    by_cases hk : i < 32
    · have := congrArg (fun x : Word => x.getLsbD i) hl
      simpa [resultLo, hk] using this
    · have := congrArg (fun x : Word => x.getLsbD (i - 32)) hh
      simpa [resultHi, show i - 32 < 32 by omega, show 32 + (i - 32) = i by omega] using this

/-! ### What the block can do in one step -/

/-- The steps of the block, by what its sequencer holds. -/
theorem blockStep_idle {s : State} (h : s.seq = .idle) : blockStep s = .next s := by simp [blockStep, State.fetch, h]

theorem blockStep_issued {s : State} {i : Instr} (h : s.seq = .issued) (hd : decode (.command s.cmd) = .ok i) :
    blockStep s = exec i s := by simp [blockStep, State.fetch, h, hd]

theorem blockStep_illegal {s : State} {r : Reject} (h : s.seq = .issued) (hd : decode (.command s.cmd) = .error r) :
    blockStep s = .next (s.raise .illegalCommand .kept) := by simp [blockStep, State.fetch, h, hd]

theorem blockStep_yay0 {s : State} {b : Buf} {q : Yay0Seq} (h : s.seq = .yay0 b q) :
    (∃ e, s.yay0Fetch b q = .error e ∧ blockStep s = .next (s.raise e q.outEffect)) ∨
    (∃ c q' i, s.yay0Fetch b q = .ok (c, q') ∧ decode c = .ok i ∧ blockStep s = exec i (s.withSeq (.yay0 b q'))) := by
  cases hf : s.yay0Fetch b q with
  | error e => exact .inl ⟨e, rfl, by simp [blockStep, State.fetch, h, hf]⟩
  | ok p =>
    obtain ⟨c, q'⟩ := p
    rcases State.yay0Fetch_decodes hf with ⟨k, hd⟩ | ⟨f, d, -, hd⟩ | ⟨d, e, hd⟩ <;>
      exact .inr ⟨c, q', _, rfl, hd, by simp [blockStep, State.fetch, h, hf, hd]⟩

theorem blockStep_varint {s : State} {signed : Bool} {b : Buf} {q : VarintSeq} (h : s.seq = .varint signed b q) :
    (s.bufLen b < q.p + 1 ∧ blockStep s = .next (s.raise .truncatedInput .kept)) ∨
    (q.p + 1 ≤ s.bufLen b ∧ blockStep s = exec (decodeVarintByte (s.byte b q.p)) s) := by
  cases hf : s.varintFetch b q with
  | error e =>
    obtain ⟨hl, rfl⟩ := State.varintFetch_error hf
    exact .inl ⟨hl, by simp [blockStep, State.fetch, h, hf]⟩
  | ok c =>
    obtain ⟨hl, rfl⟩ := State.varintFetch_ok hf
    exact .inr ⟨hl, by simp [blockStep, State.fetch, h, hf, decode]⟩

end Sys2Proof.Machine
end

