-- ==== Sys2Proof/Laws/PerInstr.lean ====
section
/-! SUPPORT. What is said of every instruction as syntax, one lemma per constructor. -/

namespace Sys2Proof.Laws.MatchesRow

/-- The code has the fixed bits of the instruction's row in the opcode tables of R92, R98 and R100, and meets the row's side
conditions. -/
def RowMatches : Instr → Code → Prop
  | .nop, .command w => w &&& 0xFFFFFFFF = 0x00000000
  | .crc _, .command w => w &&& 0xFFFFFFCF = 0x00000001 ∧ w.toNat / 16 % 4 ≠ 3
  | .crcchk _ _, .command w => w &&& 0xFFFFFF8F = 0x00000002 ∧ w.toNat / 16 % 4 ≠ 3
  | .yay0 _, .command w => w &&& 0xFFFFFFEF = 0x00000003
  | .varu _, .command w => w &&& 0xFFFFFFCF = 0x00000004 ∧ w.toNat / 16 % 4 ≠ 3
  | .vars _, .command w => w &&& 0xFFFFFFCF = 0x00000005 ∧ w.toNat / 16 % 4 ≠ 3
  | .swap16 _, .command w => w &&& 0xFFFFFFEF = 0x00000006
  | .rd _ _ _, .command w =>
    w &&& 0xFFFFF04F = 0x00000007 ∧ w.toNat / 16 % 4 ≠ 3 ∧ 1 ≤ w.toNat / 256 % 16 ∧ w.toNat / 256 % 16 ≤ 8
  | .lit k, .yay0Op bit pair chunk => bit = true ∧ pair = [] ∧ chunk = [k]
  | .copy _ _, .yay0Op bit pair chunk => bit = false ∧ chunk = [] ∧ ∃ p0 p1, pair = [p0, p1] ∧ p0.toNat / 16 ≠ 0
  | .lcopy _ e, .yay0Op bit pair chunk => bit = false ∧ chunk = [e] ∧ ∃ p0 p1, pair = [p0, p1] ∧ p0.toNat / 16 = 0
  | .vbCont _, .varintByte x => x &&& 0x80 = 0x00
  | .vbEnd _, .varintByte x => x &&& 0x80 = 0x80
  | _, _ => False

/-- A well-formed instruction's code matches the instruction's row. -/
def Statement (i : Instr) : Prop := i.wellFormed = true → RowMatches i (encode i)

theorem nop : Statement .nop := by intro _; simp only [RowMatches, encode]; decide

theorem crc (b : Buf) : Statement (.crc b) := by
  intro _; simp only [RowMatches, encode]; cases b <;> decide

theorem crcchk (b : Buf) (ign : Bool) : Statement (.crcchk b ign) := by
  intro _; simp only [RowMatches, encode]; cases b <;> cases ign <;> decide

theorem yay0 (b : Buf) : Statement (.yay0 b) := by
  intro h; simp only [RowMatches, encode]; cases b <;> first | decide | cases h

theorem varu (b : Buf) : Statement (.varu b) := by intro _; simp only [RowMatches, encode]; cases b <;> decide

theorem vars (b : Buf) : Statement (.vars b) := by intro _; simp only [RowMatches, encode]; cases b <;> decide

theorem swap16 (b : Buf) : Statement (.swap16 b) := by
  intro h; simp only [RowMatches, encode]; cases b <;> first | decide | cases h

theorem rd (b : Buf) (be : Bool) (n : BitVec 4) : Statement (.rd b be n) := by
  unfold Statement
  simp only [RowMatches, encode, Instr.wellFormed]
  revert n
  cases b <;> cases be <;> decide

theorem lit (k : Byte) : Statement (.lit k) := fun _ => ⟨rfl, rfl, rfl⟩

theorem copy (f : BitVec 4) (d : BitVec 12) : Statement (.copy f d) := by
  intro h
  refine ⟨rfl, rfl, _, _, rfl, ?_⟩
  have h1 := f.isLt
  have h2 := d.isLt
  have hf : f.toNat ≠ 0 := fun hz => by
    have : f = 0 := BitVec.eq_of_toNat_eq (by simpa using hz)
    simp [Instr.wellFormed, this] at h
  simp only [BitVec.toNat_ofNat]
  omega

theorem lcopy (d : BitVec 12) (e : Byte) : Statement (.lcopy d e) := by
  intro _
  refine ⟨rfl, rfl, _, _, rfl, ?_⟩
  have h2 := d.isLt
  have h0 : (0 : BitVec 4).toNat = 0 := rfl
  simp only [BitVec.toNat_ofNat, h0]
  omega

theorem vbCont (v : BitVec 7) : Statement (.vbCont v) := by
  intro _; simp only [RowMatches, encode]; revert v; decide

theorem vbEnd (v : BitVec 7) : Statement (.vbEnd v) := by
  intro _; simp only [RowMatches, encode]; revert v; decide

end Sys2Proof.Laws.MatchesRow
end

