-- ==== Sys2Proof/Tests/Slice0.lean ====
section
/-! SUPPORT. The model's own tests: the side conditions of WellFormed, decoding of words written out from the encodings, one
step of each instruction against the spec's vectors (95_test_vectors.md), and states that meet the hypotheses of the
statements. -/

namespace Sys2Proof.Tests

open Sys2Proof Sys2Proof.Machine

/-! ### WellFormed: what the checks refuse -/

theorem test_yay0_may_not_read_out : (Instr.yay0 .out).wellFormed = false := by decide
theorem test_swap16_may_not_read_out : (Instr.swap16 .out).wellFormed = false := by decide
theorem test_rd_of_no_byte_is_ill_formed : (Instr.rd .src true 0).wellFormed = false := by decide
theorem test_rd_of_nine_bytes_is_ill_formed : (Instr.rd .src true 9).wellFormed = false := by decide
theorem test_copy_with_length_field_0_is_ill_formed : (Instr.copy 0 5).wellFormed = false := by decide

/-! ### Decoding of words written out from R91, R92, R97, R98 and R100 -/

-- OP 0, all other bits 0
theorem test_decode_nop : decode (.command 0b00000000000000000000000000000000) = .ok .nop := by decide
-- OP 1, BUF 2
theorem test_decode_crc : decode (.command 0b00000000000000000000000000100001) = .ok (.crc .out) := by decide
-- OP 2, BUF 1, IGN 1
theorem test_decode_crcchk : decode (.command 0b00000000000000000000000001010010) = .ok (.crcchk .pat true) := by decide
-- OP 3, BUF 1
theorem test_decode_yay0 : decode (.command 0b00000000000000000000000000010011) = .ok (.yay0 .pat) := by decide
-- OP 4, BUF 0
theorem test_decode_varu : decode (.command 0b00000000000000000000000000000100) = .ok (.varu .src) := by decide
-- OP 5, BUF 2
theorem test_decode_vars : decode (.command 0b00000000000000000000000000100101) = .ok (.vars .out) := by decide
-- OP 6, BUF 1
theorem test_decode_swap16 : decode (.command 0b00000000000000000000000000010110) = .ok (.swap16 .pat) := by decide
-- OP 7, BUF 1, BE 1, N 8 (vector D8: 0x897)
theorem test_decode_rd : decode (.command 0b00000000000000000000100010010111) = .ok (.rd .pat true 8) := by decide
-- control bit 1, chunk byte 0x85
theorem test_decode_lit : decode (.yay0Op true [] [0x85]) = .ok (.lit 0x85) := by decide
-- control bit 0, pair 0001 1111 1111 1111 (vector Y11)
theorem test_decode_copy : decode (.yay0Op false [0b00011111, 0b11111111] []) = .ok (.copy 1 0xFFF) := by decide
-- control bit 0, pair 0000 0001 0000 0010, chunk byte 0xFF
theorem test_decode_lcopy : decode (.yay0Op false [0b00000001, 0b00000010] [0xFF]) = .ok (.lcopy 0x102 0xFF) := by decide
-- bit 7 = 0
theorem test_decode_vbCont : decode (.varintByte 0b01111110) = .ok (.vbCont 0x7E) := by decide
-- bit 7 = 1
theorem test_decode_vbEnd : decode (.varintByte 0b10000011) = .ok (.vbEnd 3) := by decide
-- vectors X1, X4, X5, X8, X11, X12, X15: illegal words, each rejected by name
theorem test_decode_rejects_by_name :
    decode (.command 0x00000008) = .error .reservedOpcode ∧ decode (.command 0x00000031) = .error .reservedBuffer ∧
    decode (.command 0x00000023) = .error .outputAsInput ∧ decode (.command 0x00000041) = .error .unusedField ∧
    decode (.command 0x00000007) = .error .badCount ∧ decode (.command 0x00000907) = .error .badCount ∧
    decode (.command 0x80000000) = .error .reservedBits := by decide
theorem test_table_words : decodeTableWord 32 0x00000417 = some (.rd .pat false 4) ∧
    decodeTableWord 8 0x85 = some (.vbEnd 5) ∧ decodeTableWord 16 0x141 = some (.lit 0x41) ∧
    decodeTableWord 24 0x1FFF = some (.copy 1 0xFFF) ∧ decodeTableWord 25 0x0FFF03 = some (.lcopy 0xFFF 3) := by decide

/-! ### A small state, and one step of each instruction -/

/-- The 23 bytes of vector Y1. -/
def y1 : List Byte :=
  [0x59, 0x61, 0x79, 0x30, 0, 0, 0, 4, 0, 0, 0, 0x14, 0, 0, 0, 0x16, 0x80, 0, 0, 0, 0x10, 0, 0x41]

/-- SRC = 61 62 63 83, PAT = Y1's bytes, OUT = 11 22, OUT_CAP = 8. -/
def small : State :=
  { State.reset with
    srcLen := 4, patLen := 23, outCap := 8, outLen := 2, len := 1, result := 0x55
    src := Memory.blank.writeAll 0 [0x61, 0x62, 0x63, 0x83]
    pat := Memory.blank.writeAll 0 y1
    out := Memory.blank.writeAll 0 [0x11, 0x22] }

/-- The small state with the command word `w` issued. -/
def issued (w : Word) : State := small.issue w

/-- A YAY0 PAT in flight over Y1's streams that has produced `op` of `size` bytes, the next control bit being `bit`. -/
def inYay0 (bit : Bool) (size op : Nat) : State :=
  { issued 0x13 with
    seq := .yay0 .pat
      { size := size, cp := 20, cw := if bit then 0x80000000 else 0, cb := 1, pp := 20, kp := 22, op := op } }

/-- A VARS SRC in flight from POS = 3, at the byte 83. -/
def inVars : State :=
  { issued 0x05 with pos := 3, seq := .varint true .src { p := 3, data := 0, shift := 1 } }

/-- What a next state shows; none for a stop. -/
def got {α : Type} (r : Result) (f : State → α) : Option α :=
  match r with
  | .next t => some (f t)
  | .fault _ => none
  | .refused _ => none

-- N1
theorem test_nop : got (step (issued 0x00)) (fun t => (t.reg .status, t.reg .errcode)) = some (0x2, 0) := by decide
-- N3
theorem test_nop_checks_operands :
    got (step { issued 0x00 with outLen := 9 }) (fun t => (t.reg .status, t.reg .errcode, t.outLen)) = some (0x6, 7, 9) := by
  decide
-- K2
theorem test_crc : got (step (issued 0x01)) (fun t => (t.reg .status, t.result)) = some (0x2, 0xE8B7BE43) := by decide +kernel
-- K13b
theorem test_crc_truncated : got (step { issued 0x01 with pos := 4 }) (fun t => (t.reg .status, t.reg .errcode, t.result)) =
    some (0x6, 5, 0x55) := by decide +kernel
-- K15
theorem test_crcchk_mismatch : got (step { issued 0x02 with expect := 0xE8B7BE42 })
    (fun t => (t.reg .status, t.reg .errcode, t.result)) = some (0x6, 3, 0xE8B7BE43) := by decide +kernel
-- K17
theorem test_crcchk_ign_match : got (step { issued 0x42 with expect := 0xE8B7BE43 }) (fun t => t.reg .status) = some 0xA := by
  decide +kernel
-- Y1: the sequencer at the header's offsets
theorem test_yay0_starts : got (step (issued 0x13)) (fun t => t.seq) =
    some (.yay0 .pat { size := 4, cp := 16, cw := 0, cb := 0, pp := 20, kp := 22, op := 0 }) := by decide
-- E18
theorem test_yay0_magic : got (step { issued 0x13 with pos := 19 }) (fun t => (t.reg .errcode, t.outLen)) = some (1, 0) := by
  decide
theorem test_varu_starts : got (step { issued 0x04 with pos := 3 }) (fun t => (t.seq, t.busy)) =
    some (.varint false .src { p := 3, data := 0, shift := 1 }, true) := by decide
theorem test_vars_starts : got (step { issued 0x15 with pos := 2 }) (fun t => t.seq) =
    some (.varint true .pat { p := 2, data := 0, shift := 1 }) := by decide
-- R210: pairs are counted from POS
theorem test_swap16 : got (step { issued 0x06 with pos := 1, len := 2 })
    (fun t => (t.byte .out 0, t.byte .out 1, t.outLen, t.result)) = some (0x63, 0x62, 2, 2) := by decide
-- B4
theorem test_swap16_odd : got (step { issued 0x06 with len := 3 })
    (fun t => (t.reg .errcode, t.outLen, t.byte .out 0)) = some (7, 0, 0x11) := by decide
-- R214
theorem test_rd_be : got (step { issued 0x287 with pos := 1 }) (fun t => (t.result, t.pos)) = some (0x6263, 3) := by decide
-- D10
theorem test_rd_le_truncated : got (step { issued 0x207 with pos := 3 }) (fun t => (t.reg .errcode, t.result, t.pos)) =
    some (5, 0x55, 3) := by decide
-- Y1, first operation
theorem test_lit : got (step (inYay0 true 4 0)) (fun t => (t.byte .out 0, t.seq)) =
    some (0x41, .yay0 .pat { size := 4, cp := 20, cw := 0, cb := 0, pp := 20, kp := 23, op := 1 }) := by decide
-- Y1, second operation: the copy repeats OUT[0] and completes the command
theorem test_copy : got (step (inYay0 false 4 1))
    (fun t => (t.byte .out 1, t.byte .out 3, t.outLen, t.result, t.reg .status)) = some (0x11, 0x11, 4, 4, 0x2) := by decide
-- E5: the pair's distance reaches before the output
theorem test_copy_bad_reference : got (step (inYay0 false 4 0)) (fun t => (t.reg .errcode, t.outLen, t.freeCount)) =
    some (8, 0, 0) := by decide
-- Y2: E = 0, n = 18
theorem test_lcopy : got (exec (.lcopy 0 0) { inYay0 false 19 1 with outCap := 19 })
    (fun t => (t.byte .out 18, t.outLen, t.reg .status)) = some (0x11, 19, 0x2) := by decide
-- E10: E = 1, n = 19
theorem test_lcopy_too_long : got (exec (.lcopy 0 1) { inYay0 false 19 1 with outCap := 19 })
    (fun t => (t.reg .errcode, t.outLen, t.freeCount)) = some (4, 0, 1) := by decide +kernel
-- V6: 7F FF
theorem test_vbCont : got (exec (.vbCont 0x7F) inVars) (fun t => t.seq) =
    some (.varint true .src { p := 4, data := 255, shift := 128 }) := by decide
-- V23: the tenth non-final byte
theorem test_vbCont_overflow : got (exec (.vbCont 0)
    { inVars with seq := .varint true .src { p := 9, data := 0x8102040810204080, shift := 128 ^ 9 } })
    (fun t => (t.reg .errcode, t.pos, t.result)) = some (9, 3, 0x55) := by decide
-- W4: 83 is -1
theorem test_vbEnd_signed : got (step inVars) (fun t => (t.result, t.pos, t.reg .status)) =
    some (0xFFFFFFFFFFFFFFFF, 4, 0x2) := by decide
-- V2
theorem test_vbEnd_unsigned : got (exec (.vbEnd 1)
    { inVars with seq := .varint false .src { p := 3, data := 0, shift := 1 } }) (fun t => t.result) = some 1 := by decide

/-! ### States that meet the hypotheses of the statements

One theorem for each statement that has hypotheses, a conjunct for each clause, at a boundary of its range. -/

/-- The checks that make a state without a flag set sound, but for its sequencer. -/
def dataOk (s : State) : Bool :=
  s.src.wf && s.pat.wf && s.out.wf && s.src.cells.all (fun c => decide (c.1 < s.srcMax.toNat)) &&
    s.pat.cells.all (fun c => decide (c.1 < s.patMax.toNat)) && s.out.cells.all (fun c => decide (c.1 < s.outMax.toNat)) &&
    s.src.stale.isEmpty && s.pat.stale.isEmpty && s.out.stale.isEmpty && !s.done && !s.err && !s.matched &&
    decide (s.errcode = none) && !s.rst

theorem inv_of_dataOk {s : State} (h : dataOk s = true) (hs : s.SeqOk) : s.Inv := by
  simp only [dataOk, Bool.and_eq_true, List.all_eq_true, decide_eq_true_eq, List.isEmpty_iff, Bool.not_eq_true'] at h
  obtain ⟨⟨⟨⟨⟨⟨⟨⟨⟨⟨⟨⟨⟨w1, w2⟩, w3⟩, p1⟩, p2⟩, p3⟩, s1⟩, s2⟩, s3⟩, d⟩, e⟩, m⟩, c⟩, r⟩ := h
  refine ⟨?_, ?_, ⟨s1, s2⟩, ?_, ?_, ?_, ?_, ?_, hs⟩
  · intro b; cases b <;> assumption
  · intro b; cases b <;> assumption
  · simp [s3]
  · simp [e, c]
  · simp [m]
  · simp [d, e, m]
  · simp [r]

theorem inv_issued (w : Word) : (issued w).Inv :=
  inv_of_dataOk (by show dataOk (issued 0) = true; decide) rfl

theorem inv_inYay0 : (inYay0 true 4 3).Inv := inv_of_dataOk (by decide) ⟨rfl, by decide, by decide, by decide, by decide, by decide⟩

theorem inv_inVars : inVars.Inv :=
  inv_of_dataOk (by decide) ⟨rfl, by decide, by decide, 0, by decide, by decide, rfl, by decide, by decide, .inl rfl⟩

theorem inv_small : small.Inv := inv_of_dataOk (by decide) rfl

/-- The state `s` with one pending operation of the outside. -/
def before (op : HostOp) (s : State) : State := { s with host := [op] }

theorem test_witness_DecodeReadsEncode : (Instr.rd .out true 8).wellFormed = true ∧ (Instr.copy 1 0xFFF).wellFormed = true := by
  decide
theorem test_witness_DecodedIsItsEncoding : decode (.yay0Op false [0x10, 0x00] []) = .ok (.copy 1 0) := by decide
theorem test_witness_IllegalWordsRaiseIllegalCommand : IllegalWord 0x00001000 ∧ IllegalWord 0x00000907 ∧
    small.rst = false ∧ ({ small with host := [.regWrite 0x00 4 0x00001000, .run] } : State).busy = false := by
  refine ⟨?_, ?_, rfl, rfl⟩ <;> (unfold IllegalWord; decide)
theorem test_witness_StepKeepsInvariant : (inYay0 true 4 3).Inv ∧ ∃ t, step (inYay0 true 4 3) = .next t := ⟨inv_inYay0, _, rfl⟩
/-- The state after the reset input is asserted in the small state, with one pending operation. -/
def held (op : HostOp) : State := { small.driveRst true with host := [op] }
theorem inv_held (op : HostOp) : (held op).Inv where
  wf := (inv_of_dataOk (s := { small.driveRst true with rst := false }) (by decide) rfl).wf
  physical := (inv_of_dataOk (s := { small.driveRst true with rst := false }) (by decide) rfl).physical
  inputsKnown := ⟨rfl, rfl⟩
  epochs := fun _ h => by cases h
  errIff := by simp [held, State.driveRst, State.applyReset, State.reset]
  matchNoErr := fun _ => rfl
  busyFlags := fun _ => ⟨rfl, rfl, rfl⟩
  heldReset := fun _ r => by cases r <;> first | rfl | (show resultHi 0 = 0; decide)
  seqOk := rfl
theorem test_witness_RstInputResets : (before (.rst true) (issued 0x01)).host = [.rst true] ∧
    (before (.rst true) small).busy = false ∧
    (∀ b, decode (.command (issued 0x01).cmd) ≠ .ok (.yay0 b) ∧ decode (.command (issued 0x01).cmd) ≠ .ok (.swap16 b)) ∧
    small.outCap.toNat ≤ 8 ∧ (before (.rst false) small).rst = false := by
  refine ⟨rfl, rfl, ?_, by decide, rfl⟩
  intro b
  cases b <;> decide
theorem test_witness_RstInputResets_held : (held (.regWrite 0x00 4 0x01)).Inv ∧ (held (.regWrite 0x30 4 0x01)).rst = true ∧
    (∃ t, step (held (.regWrite 0x00 4 0x01)) = .next t) ∧ (held (.rst false)).Inv ∧ (held (.rst false)).rst = true ∧
    0x30 % 4 = 0 ∧ ∀ level, (held .run).host.head? ≠ some (.rst level) :=
  ⟨inv_held _, rfl, ⟨_, rfl⟩, inv_held _, rfl, rfl, by simp [held]⟩
-- R270: a write to CMD while `rst` is held issues nothing, and the command runs no more after the release
theorem test_rst_held_ignores_cmd :
    got (runSteps 4 { issued 0x13 with host := [.rst true, .regWrite 0x00 4 0x01, .rst false, .run] })
      (fun t => (t.cmd, t.busy, t.reg .status, t.rst)) = some (0, false, 0, false) := by decide
theorem test_witness_StepRunsTheDecodedInstruction : small.host = [] ∧
    ((issued 0x01).seq = .issued ∧ decode (.command (issued 0x01).cmd) = .ok (.crc .src)) ∧
    (∃ q, inVars.seq = .varint true .src q ∧ q.p + 1 ≤ inVars.bufLen .src ∧
      decode (.varintByte (inVars.byte .src q.p)) = .ok (.vbEnd 3)) ∧
    (∃ q c q', (inYay0 true 4 3).seq = .yay0 .pat q ∧ (inYay0 true 4 3).yay0Fetch .pat q = .ok (c, q') ∧
      decode c = .ok (.lit 0x41) ∧ q.cb ≠ 0) ∧
    (∃ c q', (issued 0x13).yay0Fetch .pat { size := 4, cp := 16, cw := 0, cb := 0, pp := 20, kp := 22, op := 0 } = .ok (c, q') ∧
      decode c = .ok (.lit 0x41)) :=
  ⟨rfl, ⟨rfl, by decide⟩, ⟨_, rfl, by decide, by decide⟩, ⟨_, _, _, rfl, rfl, by decide, by decide⟩, ⟨_, _, rfl, by decide⟩⟩
theorem test_witness_PlacedInstructionRunsNext : decodeTableWord 32 0x00000897 = some (.rd .pat true 8) ∧
    decodeTableWord 8 0x83 = some (.vbEnd 3) ∧ decodeTableWord 9 0x1FF = some (.lit 0xFF) ∧
    decodeTableWord 16 0x100 = some (.lit 0) ∧ decodeTableWord 17 0xFFFF = some (.copy 0xF 0xFFF) ∧
    decodeTableWord 24 0x1000 = some (.copy 1 0) ∧ decodeTableWord 25 0x0FFFFF = some (.lcopy 0xFFF 0xFF) := by decide
theorem test_witness_Yay0FetchSelectsOperation :
    let q : Yay0Seq := { size := 4, cp := 20, cw := 0x80000000, cb := 1, pp := 20, kp := 22, op := 0 }
    let z : Yay0Seq := { q with cw := 0 }
    0 < q.cb ∧ q.cw.getLsbD 31 = true ∧ z.cw.getLsbD 31 = false ∧ ¬small.bufLen .pat < q.kp + 1 ∧
    small.bufLen .pat < ({ q with kp := 23 } : Yay0Seq).kp + 1 ∧ ¬small.bufLen .pat < z.pp + 2 ∧
    small.bufLen .pat < ({ z with pp := 22 } : Yay0Seq).pp + 2 ∧
    (256 * (small.byte .pat 20).toNat + (small.byte .pat 21).toNat) / 4096 ≠ 0 ∧
    (256 * (small.byte .pat 17).toNat + (small.byte .pat 18).toNat) / 4096 = 0 := by decide
theorem test_witness_BlockNeverStops : (issued 0x13).host = [] := rfl
theorem test_witness_EveryCommandTerminates : (inYay0 true 4 3).Inv ∧ inVars.Inv ∧ (issued 0x06).Inv ∧
    (inYay0 true 4 3).host = [] ∧ inVars.host = [] ∧ (issued 0x06).host = [] :=
  ⟨inv_inYay0, inv_inVars, inv_issued _, rfl, rfl, rfl⟩
theorem test_witness_WaitEndsIdle : (before .wait (issued 0x13)).Inv ∧ (before .wait (issued 0x13)).host = .wait :: [] :=
  ⟨inv_of_dataOk (by decide) rfl, rfl⟩
theorem test_witness_CmdWriteIssues : small.busy = false ∧ small.rst = false ∧ (small.driveRst true).rst = true ∧ (issued 0).busy = true ∧
    (before (.regWrite 0x00 4 0x13) small).host = [.regWrite 0x00 4 0x13] ∧ (before (.regRead 0x00 4) small).host = [.regRead 0x00 4] ∧
    (∃ t, step (issued 0x01) = .next t) := ⟨rfl, rfl, rfl, rfl, rfl, rfl, _, rfl⟩
theorem test_witness_StatusBitsAndWrite : small.busy = false ∧ small.rst = false ∧ (small.driveRst true).rst = true ∧ (issued 0).busy = true ∧ (2 : Word).getLsbD 1 = true ∧
    (0xFFFFFFFD : Word).getLsbD 1 = false ∧ (before (.regWrite 0x04 4 2) small).host = [.regWrite 0x04 4 2] := by decide
theorem test_witness_RegisterMap : small.busy = false ∧ small.rst = false ∧
    (before (.regWrite 0x28 4 7) small).host = [.regWrite 0x28 4 7] ∧ 0x28 % 4 = 0 ∧ 0x0C % 4 = 0 ∧ 0x34 % 4 = 0 ∧
    (before (.regRead 0x20 4) (issued 0)).host = [.regRead 0x20 4] ∧ 0x28 ∈ [0x10, 0x14, 0x18, 0x1C, 0x20, 0x24, 0x28] ∧
    0x30 ∈ [0x08, 0x2C, 0x30] ∧ (0x33 % 4 ≠ 0 ∨ 0x34 ≤ 0x33) ∧ (0x34 % 4 ≠ 0 ∨ 0x34 ≤ 0x34) := by decide
theorem test_witness_RegistersFrozenWhileBusy : (issued 0x04).Inv ∧ (issued 0x04).busy = true ∧ (issued 0x04).host = [] ∧
    0x20 % 4 = 0 ∧ ∃ t, step (issued 0x04) = .next t ∧ t.busy = true :=
  ⟨inv_issued _, rfl, rfl, rfl, _, rfl, rfl⟩
theorem test_witness_IrqRaisedByEveryCompletion : (issued 0x00).Inv ∧ (issued 0x00).busy = true ∧ (issued 0x00).host = [] ∧
    (∃ t, step (issued 0x00) = .next t ∧ t.busy = false) ∧ small.busy = false ∧ small.rst = false ∧ (2 : Word).getLsbD 1 = true ∧
    (held .run).Inv ∧ (held .run).rst = true :=
  ⟨inv_issued _, rfl, rfl, ⟨_, rfl, rfl⟩, rfl, rfl, by decide, inv_held _, rfl⟩
theorem test_witness_ErrIffErrcode : small.Inv := inv_small
theorem test_witness_BufferHazardsRefused : (issued 0x13).busy = true ∧
    (before (.bufWrite .src 0 1) (issued 0x13)).host = [.bufWrite .src 0 1] ∧
    (before (.bufRead .out 0) (issued 0x13)).host = [.bufRead .out 0] ∧ Buf.pat ≠ .out ∧
    0xFFFFFFFE < (issued 0x13).physSize .pat := by decide
theorem test_witness_HostBufferWrite : (before (.bufWrite .out 0xFFFFFFFE 7) small).busy = false ∧
    0xFFFFFFFE < small.physSize .out ∧ small.physSize .out ≤ 0xFFFFFFFF := by decide
theorem test_witness_HostBufferRead : (before (.bufRead .out 0xFFFFFFFE) small).host = [.bufRead .out 0xFFFFFFFE] ∧
    small.busy = false ∧ 0xFFFFFFFE < small.physSize .out ∧ small.physSize .out ≤ 0xFFFFFFFF ∧ (issued 0).busy = true ∧
    Buf.src ≠ .out ∧ (issued 0).physSize .src ≤ 0xFFFFFFFF := by decide
theorem test_witness_OddRegisterAccessRefused : ((2 ≠ 4) ∨ (0x20 % 4 ≠ 0)) ∧ ((4 ≠ 4) ∨ (0x21 % 4 ≠ 0)) := by decide
theorem test_witness_MemReadIsExact : small.bufLen .src < 3 + 2 ∧ 2 + 2 ≤ small.bufLen .src ∧ 4 + 0 ≤ small.bufLen .src ∧
    2 ^ 32 ≤ 2 ^ 32 ∧ 1 ≤ 1 := by decide
theorem test_witness_CommonOperandCheck : small.operandsOk = true ∧ ({ small with outLen := 9 } : State).operandsOk = false ∧
    (Instr.vars .out).isCommand = true := by decide
theorem test_witness_IllFormedCommandsRaiseIllegalCommand : (Instr.rd .pat false 9).isCommand = true ∧
    (Instr.rd .pat false 9).wellFormed = false := by decide
theorem test_witness_StreamOperationsNeedTheirCommand :
    (∀ b q, (issued 0x13).seq ≠ .yay0 b q) ∧ (∀ g b q, (inYay0 true 4 3).seq ≠ .varint g b q) :=
  ⟨fun _ _ => by simp [issued, State.issue], fun _ _ _ => by simp [inYay0]⟩
theorem test_witness_NopCompletes : small.operandsOk = true ∧ ({ small with outCap := 1 } : State).operandsOk = false := by decide
theorem test_witness_CrcComputes : small.operandsOk = true ∧ ({ small with outCap := 1 } : State).operandsOk = false ∧
    ({ small with pos := 4 } : State).bufLen .src < 4 + small.len.toNat ∧
    3 + small.len.toNat ≤ small.bufLen .src ∧ ({ small with len := 0 } : State).len = 0 ∧ 4 ≤ small.bufLen .src ∧
    ({ small with srcLen := 1 } : State).operandsOk = true ∧ small.pos = 0 ∧ small.len = 1 ∧ small.byte .src 0 = 0x61 := by decide
theorem test_witness_CrcchkCompares :
    let c := crc32 (small.bytes .src small.pos.toNat small.len.toNat)
    small.operandsOk = true ∧ ({ small with outCap := 1 } : State).operandsOk = false ∧
    small.bufLen .src < ({ small with pos := 4 } : State).pos.toNat + small.len.toNat ∧
    small.pos.toNat + small.len.toNat ≤ small.bufLen .src ∧ c ≠ small.expect ∧
    c = ({ small with expect := 0xE8B7BE43 } : State).expect := by decide +kernel
theorem test_witness_IgnSuppressesOnlyMismatch :
    got (exec (.crcchk .src false) small) (·.errcode) = some (some .checksumMismatch) ∧
    got (exec (.crcchk .src true) small) (·.errcode) = some none ∧
    got (exec (.crcchk .src false) { small with expect := 0xE8B7BE43 }) (·.errcode) = some none := by decide +kernel
theorem test_witness_Yay0ChecksAndStarts :
    let base := small.pos.toNat
    let x := small.byte .pat
    let magic := x base = 0x59 ∧ x (base + 1) = 0x61 ∧ x (base + 2) = 0x79 ∧ x (base + 3) = 0x30
    small.operandsOk = true ∧ Buf.pat ≠ .out ∧ magic ∧ base + 16 ≤ small.bufLen .pat ∧ ref32 x (base + 4) = 4 ∧
    4 ≤ small.outCap.toNat ∧ ({ small with outCap := 3 } : State).outCap.toNat < 4 ∧
    ({ small with patLen := 15 } : State).bufLen .pat < base + 16 ∧ ({ small with patLen := 3 } : State).bufLen .pat < base + 4 ∧
    19 + 4 ≤ small.bufLen .pat ∧ ¬(x 19 = 0x59) := by decide
theorem test_witness_Yay0ChecksAndStarts_size_0 :
    let s := { small with pat := small.pat.write 7 0 }
    s.operandsOk = true ∧ ref32 (s.byte .pat) (s.pos.toNat + 4) = 0 ∧ s.pos.toNat + 16 ≤ s.bufLen .pat ∧
    s.byte .pat 0 = 0x59 ∧ s.byte .pat 1 = 0x61 ∧ s.byte .pat 2 = 0x79 ∧ s.byte .pat 3 = 0x30 := by decide
theorem test_witness_LitAppendsOneByte : (∃ q, (inYay0 true 4 2).seq = .yay0 .pat q ∧ q.op + 1 < q.size ∧ q.size < 2 ^ 32) ∧
    (∃ q, (inYay0 true 4 3).seq = .yay0 .pat q ∧ q.op < q.size ∧ q.op + 1 = q.size) :=
  ⟨⟨_, rfl, by decide, by decide⟩, ⟨_, rfl, by decide, by decide⟩⟩
theorem test_witness_CopiesAppendBytes :
    (∃ q, (inYay0 false 4 0).seq = .yay0 .pat q ∧ q.op < 0 + 1 ∧ q.op < q.size ∧ q.size < 2 ^ 32) ∧
    (∃ q, (inYay0 false 4 1).seq = .yay0 .pat q ∧ 0 + 1 ≤ q.op ∧ q.size < q.op + 18) ∧
    (∃ q, (inYay0 false 4 1).seq = .yay0 .pat q ∧ 0 + 1 ≤ q.op ∧ q.op + 3 = q.size) ∧
    (∃ q, (inYay0 false 5 1).seq = .yay0 .pat q ∧ 0 + 1 ≤ q.op ∧ q.op + 3 < q.size) ∧
    (1 : BitVec 4) ≠ 0 ∧ 3 = (1 : BitVec 4).toNat + 2 ∧ 18 = (0 : Byte).toNat + 18 := by
  refine ⟨⟨_, rfl, ?_⟩, ⟨_, rfl, ?_⟩, ⟨_, rfl, ?_⟩, ⟨_, rfl, ?_⟩, ?_⟩ <;> decide
theorem test_witness_OverlappingCopyRepeats : 0 + 1 ≤ 1 ∧ 2 < 3 ∧ ∃ m, copyLoop 0 4 3 small.out 1 = some m :=
  ⟨by decide, by decide, _, rfl⟩
theorem test_witness_Yay0RunsToReference : (issued 0x13).host = [] ∧ (issued 0x13).seq = .issued ∧
    decode (.command (issued 0x13).cmd) = .ok (.yay0 .pat) ∧ (issued 0x13).operandsOk = true ∧
    refYay0 (small.byte .pat) (small.bufLen .pat) small.pos.toNat small.outCap.toNat = .ok [0x41, 0x41, 0x41, 0x41] := by decide
theorem test_witness_VarintCommandsStart : small.operandsOk = true := by decide
theorem test_witness_VbContAccumulates : (∃ q, inVars.seq = .varint true .src q ∧
      q.data + (0x7F : BitVec 7).toNat * q.shift + 128 * q.shift < 2 ^ 64) ∧
    ∃ q, ({ inVars with seq := .varint true .src { p := 12, data := 0x8102040810204080, shift := 128 ^ 9 } } : State).seq =
      .varint true .src q ∧ 2 ^ 64 ≤ q.data + (0 : BitVec 7).toNat * q.shift + 128 * q.shift :=
  ⟨⟨_, rfl, by decide⟩, ⟨_, rfl, by decide⟩⟩
theorem test_witness_VbEndCompletes : (∃ q, inVars.seq = .varint true .src q ∧
      q.data + (3 : BitVec 7).toNat * q.shift < 2 ^ 64 ∧ q.p + 1 < 2 ^ 32) ∧
    ∃ q, ({ inVars with seq := .varint false .src { p := 12, data := 0x8102040810204080, shift := 128 ^ 9 } } : State).seq =
      .varint false .src q ∧ q.data + (0 : BitVec 7).toNat * q.shift < 2 ^ 64 ∧
      2 ^ 64 ≤ q.data + (1 : BitVec 7).toNat * q.shift :=
  ⟨⟨_, rfl, by decide⟩, ⟨_, rfl, by decide⟩⟩
theorem test_witness_VarintCommandsRunToReference : (issued 0x05).host = [] ∧ (issued 0x05).seq = .issued ∧
    decode (.command (issued 0x05).cmd) = .ok (if true then .vars .src else .varu .src) ∧
    decode (.command (issued 0x04).cmd) = .ok (if false then .vars .src else .varu .src) ∧
    (issued 0x05).operandsOk = true ∧ varintDecode [0x83] = .ok (3, 1) ∧ varintDecode [] = .error .truncatedInput := by decide
theorem test_witness_VarintEncodingIsUnique : 2 ^ 64 - 1 < 2 ^ 64 ∧ varintDecode [0x00, 0x80] = .ok (128, 2) := by decide
theorem test_witness_VarintValueFormula : isVarint [0x7F, 0xFF] = true ∧ varintGroups [0x7F, 0xFF] + varintOffset 2 = 16511 ∧
    isVarint [0, 0, 0, 0, 0, 0, 0, 0, 0, 0x81] = true ∧
    2 ^ 64 ≤ varintGroups [0, 0, 0, 0, 0, 0, 0, 0, 0, 0x81] + varintOffset 10 := by decide
theorem test_witness_VarintLengthsAndRanges : 1 ≤ 1 ∧ varintOffset 2 ≤ 128 ∧ 128 < varintOffset 3 ∧
    10 ≤ (List.replicate 10 (0 : Byte)).length ∧ ∀ x ∈ (List.replicate 10 (0 : Byte)).take 10, x &&& 0x80 = 0 := by decide
theorem test_witness_Swap16ExchangesPairs : Buf.pat ≠ .out ∧ ({ small with len := 8, pos := 15 } : State).operandsOk = true ∧
    ({ small with len := 8 } : State).len.toNat % 2 = 0 ∧ 15 + 8 ≤ small.bufLen .pat ∧ 8 ≤ small.outCap.toNat := by decide
theorem test_witness_Swap16ChecksInOrder : Buf.pat ≠ .out ∧ ({ small with outLen := 9 } : State).operandsOk = false ∧
    small.operandsOk = true ∧ small.len.toNat % 2 = 1 ∧ ({ small with len := 8 } : State).len.toNat % 2 = 0 ∧
    small.bufLen .pat < 16 + 8 ∧ 15 + 8 ≤ small.bufLen .pat ∧ ({ small with outCap := 7 } : State).outCap.toNat < 8 := by decide
theorem test_witness_SwapTwiceIsIdentity : ∃ t, exec (.swap16 .pat) { small with len := 2 } = .next t := ⟨_, rfl⟩
theorem test_witness_RdReadsField : 1 ≤ (8 : BitVec 4).toNat ∧ (8 : BitVec 4).toNat ≤ 8 ∧ small.operandsOk = true ∧
    ({ small with outLen := 9 } : State).operandsOk = false ∧ small.bufLen .pat < 16 + (8 : BitVec 4).toNat ∧
    15 + (8 : BitVec 4).toNat ≤ small.bufLen .pat := by decide
theorem test_witness_SetupNeverWritten : ∃ t, exec .nop small = .next t := ⟨_, rfl⟩
theorem test_witness_OnlyWritersWriteOutAndPos : (∃ t, exec (.vbCont 0x7F) inVars = .next t) ∧
    (∀ b, Instr.vbCont 0x7F ≠ .yay0 b ∧ Instr.vbCont 0x7F ≠ .swap16 b) ∧ (∀ k, Instr.vbCont 0x7F ≠ .lit k) ∧
    (∀ f d, Instr.vbCont 0x7F ≠ .copy f d) ∧ (∀ d e, Instr.vbCont 0x7F ≠ .lcopy d e) ∧
    (∀ b be n, Instr.vbCont 0x7F ≠ .rd b be n) ∧ ∀ v, Instr.vbCont 0x7F ≠ .vbEnd v := by
  refine ⟨⟨_, rfl⟩, ?_, ?_, ?_, ?_, ?_, ?_⟩ <;> simp
theorem test_witness_WritesStayBelowCapacity : (inYay0 true 4 3).Inv ∧ (inYay0 true 4 3).host = [] ∧
    (∃ t, step (inYay0 true 4 3) = .next t) ∧ (inYay0 true 4 3).outCap.toNat ≤ 8 ∧ ∃ q, (inYay0 true 4 3).seq = .yay0 .pat q :=
  ⟨inv_inYay0, rfl, ⟨_, rfl⟩, by decide, _, rfl⟩
theorem test_witness_ErrorCompletion :
    ((issued 0x13).Inv ∧ (issued 0x13).busy = true ∧ (issued 0x13).operandsOk = true) ∧
    (∃ t, step { issued 0x13 with pos := 19 } = .next t ∧ t.errcode = some .malformedHeader) ∧
    ({ issued 0x13 with pos := 19 } : State).Inv ∧
    (∃ t, step (issued 0x0F) = .next t ∧ t.errcode = some .illegalCommand) ∧ (issued 0x0F).Inv ∧
    (∀ b, decode (.command 0x0F) ≠ .ok (.yay0 b) ∧ decode (.command 0x0F) ≠ .ok (.swap16 b)) := by
  refine ⟨⟨inv_issued _, rfl, by decide⟩, ⟨_, rfl, rfl⟩, inv_of_dataOk (by decide) rfl, ⟨_, rfl, rfl⟩, inv_issued _, ?_⟩
  intro b
  cases b <;> decide
theorem test_witness_ErrorsAreThoseListed : (issued 0x06).Inv ∧ (issued 0x06).host = [] ∧ (issued 0x06).busy = true ∧
    decode (.command (issued 0x06).cmd) = .ok (.swap16 .src) ∧
    (∃ t, step (issued 0x06) = .next t ∧ t.errcode = some .illegalCommand) ∧ (issued 0x0F).Inv ∧
    (¬∃ i, decode (.command (issued 0x0F).cmd) = .ok i) ∧ ∃ t, step (issued 0x0F) = .next t ∧ t.errcode = some .illegalCommand :=
  ⟨inv_issued _, rfl, rfl, by decide, ⟨_, rfl, rfl⟩, inv_issued _, (by
    rintro ⟨i, h⟩
    rw [show decode (.command (issued 0x0F).cmd) = .error .reservedOpcode by decide] at h
    cases h), ⟨_, rfl, rfl⟩⟩
theorem test_witness_CommandsReadNoFlag : (∃ t, exec .nop (issued 0x00) = .next t ∧ t.seq = .idle) ∧
    (∃ t, exec (.varu .src) (issued 0x04) = .next t ∧ t.seq ≠ .idle) ∧ (issued 0x13).seq ≠ .idle ∧
    (∃ t, blockStep (issued 0x13) = .next t ∧ t.seq ≠ .idle) ∧ ∃ t, blockStep (issued 0x00) = .next t ∧ t.seq = .idle := by
  refine ⟨⟨_, rfl, rfl⟩, ⟨_, rfl, ?_⟩, by simp [issued, State.issue], ⟨_, rfl, ?_⟩, _, rfl, rfl⟩ <;> intro h <;> cases h
theorem test_witness_UndeclaredBytesDoNotMatter :
    let s' : State := { issued 0x13 with src := (issued 0x13).src.write 4 0x77 }
    (issued 0x13).Inv ∧ SameDeclared (issued 0x13) s' ∧ (issued 0x13).host = [] ∧ ∃ t, step (issued 0x13) = .next t := by
  refine ⟨inv_issued _, ⟨rfl, ?_, fun _ _ => rfl, fun _ _ => rfl⟩, rfl, _, rfl⟩
  intro a ha
  have h4 : a < 4 := ha
  interval_cases a <;> rfl
theorem test_witness_CanonicalMemoryIsUnique : small.pat.wf = true ∧
    (∀ a, cellAt small.pat.cells a = cellAt small.pat.cells a) ∧ ∀ a, staleAt small.pat.stale a = staleAt small.pat.stale a :=
  ⟨by decide, fun _ => rfl, fun _ => rfl⟩

/-- Byte 61 alone in SRC, as in R146's examples. -/
def oneByte : State := { small with srcLen := 1 }
theorem test_witness_CrcchkCompares_examples : oneByte.operandsOk = true ∧ oneByte.srcLen = 1 ∧ oneByte.pos = 0 ∧
    oneByte.len = 1 ∧ oneByte.byte .src 0 = 0x61 ∧ oneByte.expect = 0 ∧
    ({ oneByte with expect := 0xE8B7BE43 } : State).operandsOk = true ∧ ({ oneByte with len := 0 } : State).len = 0 := by decide
theorem test_witness_Swap16ChecksInOrder_word : (issued 0x26).host = [] ∧ (issued 0x26).seq = .issued ∧
    (issued 0x26).cmd = 0x00000026 := ⟨rfl, rfl, rfl⟩
theorem test_witness_RdReadsField_counts : (0 : BitVec 4).toNat = 0 ∧ 8 < (9 : BitVec 4).toNat := by decide
theorem test_witness_ErrorCompletion_mismatch : (issued 0x02).Inv ∧ (issued 0x02).busy = true ∧
    ∃ t, step (issued 0x02) = .next t ∧ t.errcode = some .checksumMismatch :=
  ⟨inv_issued _, rfl, _, rfl, by decide +kernel⟩

end Sys2Proof.Tests
end

/-! PROOFS. The registers of the host's side: CMD (R23), STATUS (R24), and the freeze of all registers while BUSY = 1 (R33). -/

namespace Sys2Proof.Machine

/-! ### Where a step of the block can lead -/

/-- The states one step of the block can lead to from `s`. Its constructors list every field a command writes, so a
field that stands in none of them is never written by the block. -/
inductive BlockNext (s : State) : State → Prop where
  /-- nothing completes: of the registers none changes (R33) -/
  | holds (m : Memory) (q : Sequencer) : BlockNext s ((s.withMem .out m).withSeq q)
  /-- the command completes without an error (R123) -/
  | completes (m : Memory) (outLen pos : Word) (result : DWord) (matched : Bool) :
      BlockNext s (((((s.withMem .out m).withOutLen outLen).withPos pos).withResult result).complete matched)
  /-- the command completes with an error (R233), RESULT written before it by CRCCHK alone (R146) -/
  | raises (result : DWord) (e : ErrKind) (o : OutEffect) : BlockNext s ((s.withResult result).raise e o)

theorem BlockNext.refl (s : State) : BlockNext s s := .holds s.out s.seq

theorem BlockNext.withSeq (s : State) (q : Sequencer) : BlockNext s (s.withSeq q) := .holds s.out q

theorem BlockNext.complete (s : State) (matched : Bool) : BlockNext s (s.complete matched) :=
  .completes s.out s.outLen s.pos s.result matched

theorem BlockNext.completes_at_pos (s : State) (m : Memory) (outLen : Word) (result : DWord) (matched : Bool) :
    BlockNext s ((((s.withMem .out m).withOutLen outLen).withResult result).complete matched) :=
  .completes m outLen s.pos result matched

theorem BlockNext.raise (s : State) (e : ErrKind) (o : OutEffect) : BlockNext s (s.raise e o) := .raises s.result e o

/-- A step of the block may start from another value of the sequencer, as it does after a control word was read (R165). -/
theorem BlockNext.of_withSeq {s t : State} {q : Sequencer} (h : BlockNext (s.withSeq q) t) : BlockNext s t := by
  cases h with
  | holds m q' => exact .holds m q'
  | completes m outLen pos result matched => exact .completes m outLen pos result matched
  | raises result e o =>
    have hsame : ((s.withSeq q).withResult result).raise e o = (s.withResult result).raise e o :=
      State.raise_withSeq (s.withResult result) q e o
    exact hsame ▸ .raises result e o

theorem BlockNext.cmd {s t : State} (h : BlockNext s t) : t.cmd = s.cmd := by
  cases h <;> simp

/-- Registers change at a completion only. -/
theorem BlockNext.reg_of_busy {s t : State} (h : BlockNext s t) (hb : t.busy = true) (r : RegName) : t.reg r = s.reg r := by
  cases h with
  | holds m q => simp
  | completes => simp at hb
  | raises => simp at hb

/-! ### Each instruction leads there -/

/-- It is enough to look at the command's own steps: what the checks before them do is an error. -/
theorem BlockNext.of_checked {s t : State} {i : Instr} {own : Result} (h : s.checked i own = .next t)
    (hown : own = .next t → BlockNext s t) : BlockNext s t := by
  obtain ⟨-, -, hc⟩ | ⟨-, hc⟩ := s.checked_cases i own
  · exact hown (hc ▸ h)
  · cases hc ▸ h
    exact .raise s _ _

theorem blockNext_yay0Go (s : State) (m : Memory) (b : Buf) (q : Yay0Seq) :
    BlockNext s ((s.withMem .out m).yay0Go b q) := by
  obtain ⟨-, h⟩ | ⟨-, h⟩ := (s.withMem .out m).yay0Go_cases b q
  · exact h ▸ .holds m _
  · exact h ▸ .completes_at_pos s m _ _ _

theorem blockNext_yay0Copy (s : State) (b : Buf) (q : Yay0Seq) (n d : Nat) : BlockNext s (s.yay0Copy b q n d) := by
  obtain ⟨-, h⟩ | ⟨-, -, h⟩ | ⟨-, -, m, -, h⟩ := s.yay0Copy_cases b q n d
  · exact h ▸ .raise s _ _
  · exact h ▸ .raise s _ _
  · exact h ▸ blockNext_yay0Go s m b _

theorem blockNext_execNop {s t : State} (h : execNop s = .next t) : BlockNext s t := by
  refine .of_checked h fun h => ?_
  cases h
  exact .complete s _

theorem blockNext_execCrc {b : Buf} {s t : State} (h : execCrc b s = .next t) : BlockNext s t := by
  refine .of_checked h fun h => ?_
  split at h <;> cases h
  · exact .raise s _ _
  · exact .completes s.out s.outLen s.pos _ _

theorem blockNext_execCrcchk {b : Buf} {ign : Bool} {s t : State} (h : execCrcchk b ign s = .next t) : BlockNext s t := by
  refine .of_checked h fun h => ?_
  split at h
  · cases h
    exact .raise s _ _
  · dsimp only at h
    split at h <;> cases h
    · exact .raises _ _ _
    · exact .completes s.out s.outLen s.pos _ _

theorem blockNext_execYay0 {b : Buf} {s t : State} (h : execYay0 b s = .next t) : BlockNext s t := by
  refine .of_checked h fun h => ?_
  split at h <;> cases h
  · exact .raise s _ _
  · exact blockNext_yay0Go s s.out b _

theorem blockNext_execVaru {b : Buf} {s t : State} (h : execVaru b s = .next t) : BlockNext s t := by
  refine .of_checked h fun h => ?_
  cases h
  exact .withSeq s _

theorem blockNext_execVars {b : Buf} {s t : State} (h : execVars b s = .next t) : BlockNext s t := by
  refine .of_checked h fun h => ?_
  cases h
  exact .withSeq s _

theorem blockNext_execSwap16 {b : Buf} {s t : State} (h : execSwap16 b s = .next t) : BlockNext s t := by
  refine .of_checked h fun h => ?_
  dsimp only at h
  split_ifs at h <;> cases h
  · exact .raise s _ _
  · exact .raise s _ _
  · exact .raise s _ _
  · exact .completes_at_pos s _ _ _ _

theorem blockNext_execRd {b : Buf} {be : Bool} {n : BitVec 4} {s t : State} (h : execRd b be n s = .next t) :
    BlockNext s t := by
  refine .of_checked h fun h => ?_
  split at h <;> cases h
  · exact .raise s _ _
  · exact .completes s.out s.outLen _ _ _

theorem blockNext_execLit {k : Byte} {s t : State} (h : execLit k s = .next t) : BlockNext s t := by
  unfold execLit at h
  split at h <;> cases h
  exact blockNext_yay0Go s _ _ _

theorem blockNext_execCopy {f : BitVec 4} {d : BitVec 12} {s t : State} (h : execCopy f d s = .next t) : BlockNext s t := by
  unfold execCopy at h
  split at h <;> cases h
  exact blockNext_yay0Copy s _ _ _ _

theorem blockNext_execLcopy {d : BitVec 12} {e : Byte} {s t : State} (h : execLcopy d e s = .next t) : BlockNext s t := by
  unfold execLcopy at h
  split at h <;> cases h
  exact blockNext_yay0Copy s _ _ _ _

theorem blockNext_execVbCont {v : BitVec 7} {s t : State} (h : execVbCont v s = .next t) : BlockNext s t := by
  unfold execVbCont at h
  split at h
  · dsimp only at h
    split_ifs at h <;> cases h
    · exact .raise s _ _
    · exact .raise s _ _
    · exact .withSeq s _
  · cases h

theorem blockNext_execVbEnd {v : BitVec 7} {s t : State} (h : execVbEnd v s = .next t) : BlockNext s t := by
  unfold execVbEnd at h
  split at h
  · dsimp only at h
    split_ifs at h <;> cases h
    · exact .raise s _ _
    · exact .completes s.out s.outLen _ _ _
  · cases h

theorem blockNext_exec {i : Instr} {s t : State} (h : exec i s = .next t) : BlockNext s t := by
  cases i with
  | nop => exact blockNext_execNop h
  | crc => exact blockNext_execCrc h
  | crcchk => exact blockNext_execCrcchk h
  | yay0 => exact blockNext_execYay0 h
  | varu => exact blockNext_execVaru h
  | vars => exact blockNext_execVars h
  | swap16 => exact blockNext_execSwap16 h
  | rd => exact blockNext_execRd h
  | lit => exact blockNext_execLit h
  | copy => exact blockNext_execCopy h
  | lcopy => exact blockNext_execLcopy h
  | vbCont => exact blockNext_execVbCont h
  | vbEnd => exact blockNext_execVbEnd h

theorem blockNext_blockStep {s t : State} (h : blockStep s = .next t) : BlockNext s t := by
  cases hq : s.seq with
  | idle =>
    cases (blockStep_idle hq).symm.trans h
    exact .refl s
  | issued =>
    cases hd : decode (.command s.cmd) with
    | ok i => exact blockNext_exec ((blockStep_issued hq hd).symm.trans h)
    | error r =>
      cases (blockStep_illegal hq hd).symm.trans h
      exact .raise s _ _
  | yay0 b q =>
    obtain ⟨e, -, hs⟩ | ⟨c, q', i, -, -, hs⟩ := blockStep_yay0 hq
    · cases hs.symm.trans h
      exact .raise s _ _
    · exact .of_withSeq (blockNext_exec (hs.symm.trans h))
  | varint signed b q =>
    obtain ⟨-, hs⟩ | ⟨-, hs⟩ := blockStep_varint hq
    · cases hs.symm.trans h
      exact .raise s _ _
    · exact blockNext_exec (hs.symm.trans h)

/-- With no host operation pending, a step is one of the block. -/
theorem blockNext_step {s t : State} (hh : s.host = []) (h : step s = .next t) : BlockNext s t :=
  blockNext_blockStep ((step_of_host_nil hh).symm.trans h)

/-! ### Register accesses of the host, through the step -/

theorem wordAccess_of_aligned {off : Nat} (ha : off % 4 = 0) : wordAccess off 4 = true := by
  simp [wordAccess, ha]

theorem step_of_regWrite {s : State} {rest : List HostOp} {off : Nat} {v : Word} (h : s.host = .regWrite off 4 v :: rest)
    (ha : off % 4 = 0) : step s = .next (({ s with host := rest } : State).busWrite off v) := by
  simp [step, State.turn, h, wordAccess_of_aligned ha]

theorem step_of_regRead {s : State} {rest : List HostOp} {off : Nat} (h : s.host = .regRead off 4 :: rest)
    (ha : off % 4 = 0) : step s = .next { s with host := rest, rdata := s.busRead off } := by
  simp only [step, State.turn, h, wordAccess_of_aligned ha]
  have hread : ({ s with host := rest } : State).busRead off = s.busRead off := by
    unfold State.busRead
    split
    · next r _ => cases r <;> rfl
    · rfl
  simp [hread, State.withRdata]

/-- A register write while BUSY = 1 or `rst` is asserted does nothing (R33, R270). -/
theorem step_of_regWrite_ignored {s : State} {rest : List HostOp} {off : Nat} {v : Word}
    (h : s.host = .regWrite off 4 v :: rest) (ha : off % 4 = 0) (hi : s.busy = true ∨ s.rst = true) :
    step s = .next { s with host := rest } := by
  have hkeep : ({ s with host := rest } : State).busWrite off v = { s with host := rest } :=
    State.busWrite_ignored off v hi
  rw [step_of_regWrite h ha, hkeep]

/-- A register write while BUSY = 0 and `rst` is released reaches the register at the offset (R22). -/
theorem step_of_regWrite_idle {s : State} {rest : List HostOp} {off : Nat} {v : Word} {r : RegName}
    (h : s.host = .regWrite off 4 v :: rest) (ha : off % 4 = 0) (hr : regAt off = some r) (hb : s.busy = false)
    (hrst : s.rst = false) : step s = .next (({ s with host := rest } : State).regWrite v r) := by
  rw [step_of_regWrite h ha]
  simp [State.busWrite, hb, hrst, hr]

/-! ### STATUS and ERRCODE -/

/-- The acknowledgement of a completion: bit 1 of a word written to STATUS clears DONE (R24). -/
theorem State.regWrite_status_of_bit (s : State) {v : Word} (h : v.getLsbD 1 = true) :
    s.regWrite v .status = { s with done := false } := if_pos h

theorem State.regWrite_status_of_no_bit (s : State) {v : Word} (h : v.getLsbD 1 = false) :
    s.regWrite v .status = s := if_neg (Bool.eq_false_iff.1 h)

theorem statusWord_toNat (busy done err matched : Bool) :
    (statusWord busy done err matched).toNat = busy.toNat + 2 * done.toNat + 4 * err.toNat + 8 * matched.toNat := by
  have hbusy := busy.toNat_le
  have hdone := done.toNat_le
  have herr := err.toNat_le
  have hmatched := matched.toNat_le
  simp only [statusWord, BitVec.toNat_ofNat]
  omega

/-- While a command is in flight STATUS is BUSY alone (R33). -/
theorem State.Inv.reg_status_of_busy {s : State} (hs : s.Inv) (hb : s.busy = true) : s.reg .status = 1 := by
  obtain ⟨hdone, herr, hmatched⟩ := hs.busyFlags hb
  simp [State.reg, hb, hdone, herr, hmatched, statusWord]

/-- While a command is in flight ERRCODE is 0 (R33). -/
theorem State.Inv.reg_errcode_of_busy {s : State} (hs : s.Inv) (hb : s.busy = true) : s.reg .errcode = 0 := by
  obtain ⟨-, herr, -⟩ := hs.busyFlags hb
  have hnone : s.errcode = none := by simpa [herr] using hs.errIff
  simp [State.reg, hnone, errWord]

/-! ### The obligations -/

/-- Settles O19: a register write is ignored while BUSY = 1, and a step of the block changes registers at a completion
only. -/
theorem registersFrozenWhileBusy : Obligations.RegistersFrozenWhileBusy := by
  intro s hs hb
  refine ⟨?_, hs.reg_status_of_busy hb, hs.reg_errcode_of_busy hb, ?_⟩
  · intro off v rest hh ha
    exact step_of_regWrite_ignored hh ha (.inl hb)
  · intro t hh hstep htb r
    exact (blockNext_step hh hstep).reg_of_busy htb r

/-- Settles O16: a write is busWrite at offset 0, and no step of the block leads to another CMD. -/
theorem cmdWriteIssues : Obligations.CmdWriteIssues := by
  refine ⟨rfl, fun s rest => ⟨?issues, ?ignored, ?reads, ?kept⟩⟩
  case issues =>
    intro w hh hb hrst
    exact step_of_regWrite_idle (r := .cmd) hh rfl rfl hb hrst
  case ignored =>
    intro w hh hi
    exact step_of_regWrite_ignored hh rfl hi
  case reads =>
    intro hh
    exact step_of_regRead hh rfl
  case kept =>
    intro t hh hstep
    exact (blockNext_step hh hstep).cmd

/-- Settles O17: STATUS is a sum of four bits, and a write reaches DONE through bit 1 alone. -/
theorem statusBitsAndWrite : Obligations.StatusBitsAndWrite := by
  intro s
  refine ⟨statusWord_toNat _ _ _ _, rfl, fun rest v hh => ⟨?clears, ?noEffect, ?ignored⟩⟩
  case clears =>
    intro hb hrst hv
    rw [step_of_regWrite_idle (r := .status) hh rfl rfl hb hrst, State.regWrite_status_of_bit _ hv]
  case noEffect =>
    intro hb hv
    rcases Bool.eq_false_or_eq_true s.rst with hrst | hrst
    · exact step_of_regWrite_ignored hh rfl (.inr hrst)
    · rw [step_of_regWrite_idle (r := .status) hh rfl rfl hb hrst, State.regWrite_status_of_no_bit _ hv]
  case ignored => exact step_of_regWrite_ignored hh rfl

end Sys2Proof.Machine


/-! PROOFS. The memory: what a read of the block gives (R66). -/

namespace Sys2Proof.Machine

/-- The length registers are 32 bits wide and the sum `a + n` does not wrap, so not even an empty read passes at an offset
beyond 32 bits. -/
theorem State.memRead_of_wide {s : State} {b : Buf} {a n : Nat} (ha : 2 ^ 32 ≤ a) :
    s.memRead b a n = .error .truncatedInput := by
  have hlen := s.bufLen_lt b
  exact State.memRead_of_lt (by omega)

/-- Settles O25: MemRead compares the exact sum with BufLen, and a read that passes gives the bytes in order. -/
theorem memReadIsExact : Obligations.MemReadIsExact := by
  intro s b a n
  refine ⟨⟨s.bufLen_src, s.bufLen_pat, s.bufLen_out⟩, State.memRead_of_lt, ?inside,
    fun ha _ => State.memRead_of_wide ha⟩
  case inside =>
    intro hle
    exact ⟨s.bytes b a n, State.memRead_of_le hle, s.bytes_length b a n, fun _ hi => s.bytes_getElem? b a n hi⟩

end Sys2Proof.Machine


/-! PROOFS. The command words: the rows of R92, the illegal words of R93, and the 68 legal words. -/

namespace Sys2Proof.Machine

/-! ### Decoding a command word is finding its encoding -/

/-- The encoder and the decoder agree on commands. -/
theorem decode_encode_of_isCommand {i : Instr} (hc : i.isCommand = true) (hw : i.wellFormed = true) :
    decode (encode i) = .ok i := by
  cases i with
  | nop => simp [encode, decode, decodeCommand, ifUnused]
  | crc b => simp [encode, decode, decodeCommand, ifUnused, withBuf]
  | crcchk b ign => simp [encode, decode, decodeCommand, ifUnused, withBuf]
  | yay0 b =>
    have hin : b.isInput = true := hw
    simp [encode, decode, decodeCommand, ifUnused, withInput, hin]
  | varu b => simp [encode, decode, decodeCommand, ifUnused, withBuf]
  | vars b => simp [encode, decode, decodeCommand, ifUnused, withBuf]
  | swap16 b =>
    have hin : b.isInput = true := hw
    simp [encode, decode, decodeCommand, ifUnused, withInput, hin]
  | rd b be n =>
    have hn : countLegal n = true := hw
    simp [encode, decode, decodeCommand, ifUnused, withBuf, hn]
  | lit | copy | lcopy | vbCont | vbEnd => cases hc

theorem wellFormed_and_encode_of_decode {w : Word} {i : Instr} (h : decode (.command w) = .ok i) :
    i.wellFormed = true ∧ encode i = .command w := by
  obtain ⟨hz, hrow⟩ := decodeCommand_ok h
  have hw := commandWord_fields w hz
  obtain ⟨rfl, hop, hbuf, hign, hbe, hn⟩ | ⟨b, hbuf, hrow⟩ := hrow
  · rw [hop, hbuf, hign, hbe, hn] at hw
    exact ⟨rfl, congrArg Code.command hw⟩
  obtain ⟨rfl, hop, hign, hbe, hn⟩ | ⟨rfl, hop, hbe, hn⟩ | ⟨rfl, hin, hop, hign, hbe, hn⟩ | ⟨rfl, hop, hign, hbe, hn⟩ |
    ⟨rfl, hop, hign, hbe, hn⟩ | ⟨rfl, hin, hop, hign, hbe, hn⟩ | ⟨rfl, hn, hop, hign⟩ := hrow
  · rw [hop, hbuf, hign, hbe, hn] at hw
    exact ⟨rfl, congrArg Code.command hw⟩
  · rw [hop, hbuf, hbe, hn] at hw
    exact ⟨rfl, congrArg Code.command hw⟩
  · rw [hop, hbuf, hign, hbe, hn] at hw
    exact ⟨hin, congrArg Code.command hw⟩
  · rw [hop, hbuf, hign, hbe, hn] at hw
    exact ⟨rfl, congrArg Code.command hw⟩
  · rw [hop, hbuf, hign, hbe, hn] at hw
    exact ⟨rfl, congrArg Code.command hw⟩
  · rw [hop, hbuf, hign, hbe, hn] at hw
    exact ⟨hin, congrArg Code.command hw⟩
  · rw [hop, hbuf, hign] at hw
    exact ⟨hn, congrArg Code.command hw⟩

/-- A word has at most one meaning, and it is a well-formed instruction whose encoding the word is. -/
theorem decode_command_iff {w : Word} {i : Instr} :
    decode (.command w) = .ok i ↔ i.wellFormed = true ∧ encode i = .command w := by
  refine ⟨wellFormed_and_encode_of_decode, fun ⟨hw, he⟩ => ?_⟩
  have hc : i.isCommand = true := by
    cases i with
    | nop | crc | crcchk | yay0 | varu | vars | swap16 | rd => rfl
    | lit | copy | lcopy | vbCont | vbEnd => cases he
  exact he ▸ decode_encode_of_isCommand hc hw

/-! ### The encodings as numbers (R106) -/

theorem commandWord_eq_iff {op : BitVec 4} {buf : BitVec 2} {ign be : Bool} {n : BitVec 4} {w : Word} :
    commandWord op buf ign be n = w ↔
      w.toNat = op.toNat + 16 * buf.toNat + 64 * ign.toNat + 128 * be.toNat + 256 * n.toNat := by
  rw [← BitVec.toNat_inj, commandWord_toNat, eq_comm]

section
variable {w : Word} {b : Buf}

theorem encode_nop_eq_iff : encode .nop = .command w ↔ w.toNat = 0 := by
  simp [encode, commandWord_eq_iff]

theorem encode_crc_eq_iff : encode (.crc b) = .command w ↔ w.toNat = 1 + 16 * b.field.toNat := by
  simp [encode, commandWord_eq_iff]

theorem encode_crcchk_eq_iff {ign : Bool} :
    encode (.crcchk b ign) = .command w ↔ w.toNat = 2 + 16 * b.field.toNat + 64 * ign.toNat := by
  simp [encode, commandWord_eq_iff]

theorem encode_yay0_eq_iff : encode (.yay0 b) = .command w ↔ w.toNat = 3 + 16 * b.field.toNat := by
  simp [encode, commandWord_eq_iff]

theorem encode_varu_eq_iff : encode (.varu b) = .command w ↔ w.toNat = 4 + 16 * b.field.toNat := by
  simp [encode, commandWord_eq_iff]

theorem encode_vars_eq_iff : encode (.vars b) = .command w ↔ w.toNat = 5 + 16 * b.field.toNat := by
  simp [encode, commandWord_eq_iff]

theorem encode_swap16_eq_iff : encode (.swap16 b) = .command w ↔ w.toNat = 6 + 16 * b.field.toNat := by
  simp [encode, commandWord_eq_iff]

theorem encode_rd_eq_iff {be : Bool} {n : BitVec 4} : encode (.rd b be n) = .command w ↔
    w.toNat = 7 + 16 * b.field.toNat + 128 * be.toNat + 256 * n.toNat := by
  simp [encode, commandWord_eq_iff]

end

theorem field_toNat_lt (b : Buf) : b.field.toNat < 3 := by cases b <;> decide

theorem isInput_iff_field_lt {b : Buf} : b.isInput = true ↔ b.field.toNat < 2 := by cases b <;> decide

theorem exists_buf_of_lt {k : Nat} (hk : k < 3) : ∃ b : Buf, b.field.toNat = k := by
  match k with
  | 0 => exact ⟨.src, rfl⟩
  | 1 => exact ⟨.pat, rfl⟩
  | 2 => exact ⟨.out, rfl⟩

theorem countLegal_iff {n : BitVec 4} : countLegal n = true ↔ 1 ≤ n.toNat ∧ n.toNat ≤ 8 := by
  simp [countLegal]

/-! ### The legal words are those R93 does not list -/

/-- The opcode of a command (R90); 8, a reserved one, for the stream operations, which have none. -/
def opcode : Instr → Nat
  | .nop => 0
  | .crc _ => 1
  | .crcchk _ _ => 2
  | .yay0 _ => 3
  | .varu _ => 4
  | .vars _ => 5
  | .swap16 _ => 6
  | .rd _ _ _ => 7
  | .lit _ | .copy _ _ | .lcopy _ _ | .vbCont _ | .vbEnd _ => 8

/-- A word that decodes is none of those R93 lists, and its field OP names the command. -/
theorem legal_of_decode {w : Word} {i : Instr} (h : decode (.command w) = .ok i) :
    ¬IllegalWord w ∧ w.toNat % 16 = opcode i := by
  obtain ⟨hwf, he⟩ := decode_command_iff.1 h
  unfold IllegalWord
  cases i with
  | nop =>
    have hw := encode_nop_eq_iff.1 he
    simp only [opcode]
    omega
  | crc b =>
    have hw := encode_crc_eq_iff.1 he
    have hb := field_toNat_lt b
    simp only [opcode]
    omega
  | crcchk b ign =>
    have hw := encode_crcchk_eq_iff.1 he
    have hb := field_toNat_lt b
    have hign := ign.toNat_le
    simp only [opcode]
    omega
  | yay0 b =>
    have hw := encode_yay0_eq_iff.1 he
    have hb := isInput_iff_field_lt.1 hwf
    simp only [opcode]
    omega
  | varu b =>
    have hw := encode_varu_eq_iff.1 he
    have hb := field_toNat_lt b
    simp only [opcode]
    omega
  | vars b =>
    have hw := encode_vars_eq_iff.1 he
    have hb := field_toNat_lt b
    simp only [opcode]
    omega
  | swap16 b =>
    have hw := encode_swap16_eq_iff.1 he
    have hb := isInput_iff_field_lt.1 hwf
    simp only [opcode]
    omega
  | rd b be n =>
    have hw := encode_rd_eq_iff.1 he
    have hb := field_toNat_lt b
    have hbe := be.toNat_le
    have hn := countLegal_iff.1 hwf
    simp only [opcode]
    omega
  | lit | copy | lcopy | vbCont | vbEnd => cases he

/-- Every word R93 does not list is the encoding of a command. -/
theorem exists_encode_of_not_illegalWord {w : Word} (h : ¬IllegalWord w) :
    ∃ i : Instr, i.wellFormed = true ∧ encode i = .command w := by
  unfold IllegalWord at h
  obtain ⟨b, hb⟩ := exists_buf_of_lt (by omega : w.toNat / 16 % 4 < 3)
  have hop : w.toNat % 16 = 0 ∨ w.toNat % 16 = 1 ∨ w.toNat % 16 = 2 ∨ w.toNat % 16 = 3 ∨ w.toNat % 16 = 4 ∨
    w.toNat % 16 = 5 ∨ w.toNat % 16 = 6 ∨ w.toNat % 16 = 7 := by omega
  obtain hop | hop | hop | hop | hop | hop | hop | hop := hop
  · exact ⟨.nop, rfl, encode_nop_eq_iff.2 (by omega)⟩
  · exact ⟨.crc b, rfl, encode_crc_eq_iff.2 (by omega)⟩
  · exact ⟨.crcchk b (fieldIGN w), rfl, encode_crcchk_eq_iff.2 (by rw [fieldIGN_toNat]; omega)⟩
  · exact ⟨.yay0 b, isInput_iff_field_lt.2 (by omega), encode_yay0_eq_iff.2 (by omega)⟩
  · exact ⟨.varu b, rfl, encode_varu_eq_iff.2 (by omega)⟩
  · exact ⟨.vars b, rfl, encode_vars_eq_iff.2 (by omega)⟩
  · exact ⟨.swap16 b, isInput_iff_field_lt.2 (by omega), encode_swap16_eq_iff.2 (by omega)⟩
  · have hn : countLegal (fieldN w) = true := countLegal_iff.2 (by rw [fieldN_toNat]; omega)
    exact ⟨.rd b (fieldBE w) (fieldN w), hn, encode_rd_eq_iff.2 (by rw [fieldBE_toNat, fieldN_toNat]; omega)⟩

theorem exists_decode_iff {w : Word} : (∃ i, decode (.command w) = .ok i) ↔ ¬IllegalWord w := by
  constructor
  · rintro ⟨i, h⟩
    exact (legal_of_decode h).1
  · intro h
    obtain ⟨i, hi⟩ := exists_encode_of_not_illegalWord h
    exact ⟨i, decode_command_iff.2 hi⟩

/-! ### The masks of R92

A word matches a row exactly when it is legal and has the row's opcode. -/

/-- The six fields of R91 are all of a word. -/
theorem eq_iff_fields {v w : Word} : v = w ↔ fieldOP v = fieldOP w ∧ fieldBUF v = fieldBUF w ∧ fieldIGN v = fieldIGN w ∧
    fieldBE v = fieldBE w ∧ fieldN v = fieldN w ∧ fieldZero v = fieldZero w := by
  refine ⟨fun h => h ▸ ⟨rfl, rfl, rfl, rfl, rfl, rfl⟩, fun ⟨hop, hbuf, hign, hbe, hn, hz⟩ => BitVec.eq_of_toNat_eq ?_⟩
  replace hop := congrArg BitVec.toNat hop
  replace hbuf := congrArg BitVec.toNat hbuf
  replace hign := congrArg Bool.toNat hign
  replace hbe := congrArg Bool.toNat hbe
  replace hn := congrArg BitVec.toNat hn
  replace hz := congrArg BitVec.toNat hz
  simp only [fieldOP_toNat, fieldBUF_toNat, fieldIGN_toNat, fieldBE_toNat, fieldN_toNat, fieldZero_toNat] at *
  omega

section
variable (v w : Word)

theorem fieldOP_and : fieldOP (v &&& w) = fieldOP v &&& fieldOP w := by
  simp only [fieldOP, BitVec.extractLsb'_and]

theorem fieldBUF_and : fieldBUF (v &&& w) = fieldBUF v &&& fieldBUF w := by
  simp only [fieldBUF, BitVec.extractLsb'_and]

theorem fieldIGN_and : fieldIGN (v &&& w) = (fieldIGN v && fieldIGN w) := BitVec.getLsbD_and

theorem fieldBE_and : fieldBE (v &&& w) = (fieldBE v && fieldBE w) := BitVec.getLsbD_and

theorem fieldN_and : fieldN (v &&& w) = fieldN v &&& fieldN w := by
  simp only [fieldN, BitVec.extractLsb'_and]

theorem fieldZero_and : fieldZero (v &&& w) = fieldZero v &&& fieldZero w := by
  simp only [fieldZero, BitVec.extractLsb'_and]

end

/-- The mask keeps OP and bits 31:12, as in every row of R92, and of BUF, IGN, BE and N the bits given. -/
structure Keeps (mask : Word) (buf : BitVec 2) (ign be : Bool) (n : BitVec 4) : Prop where
  op : fieldOP mask = BitVec.allOnes 4
  buf : fieldBUF mask = buf
  ign : fieldIGN mask = ign
  be : fieldBE mask = be
  n : fieldN mask = n
  zero : fieldZero mask = BitVec.allOnes 20

/-- Matching a row, field by field: of every field, what the mask keeps is as in the row's match. -/
theorem Keeps.and_eq_iff {mask w : Word} {buf : BitVec 2} {ign be : Bool} {n op : BitVec 4} (h : Keeps mask buf ign be n) :
    w &&& mask = commandWord op 0 false false 0 ↔
      w.toNat % 16 = op.toNat ∧ fieldBUF w &&& buf = 0 ∧ (fieldIGN w && ign) = false ∧ (fieldBE w && be) = false ∧
        fieldN w &&& n = 0 ∧ w.toNat / 4096 = 0 := by
  rw [eq_iff_fields, fieldOP_and, fieldBUF_and, fieldIGN_and, fieldBE_and, fieldN_and, fieldZero_and, h.op, h.buf, h.ign,
    h.be, h.n, h.zero, BitVec.and_allOnes, BitVec.and_allOnes, ← BitVec.toNat_inj (x := fieldOP w),
    ← BitVec.toNat_inj (x := fieldZero w), fieldOP_toNat, fieldZero_toNat]
  simp

theorem fieldBUF_and_three_eq_iff {w : Word} : fieldBUF w &&& 3 = 0 ↔ w.toNat / 16 % 4 = 0 := by
  have hsmall : ∀ f : BitVec 2, f &&& 3 = 0 ↔ f.toNat = 0 := by decide
  rw [hsmall, fieldBUF_toNat]

theorem fieldBUF_and_two_eq_iff {w : Word} : fieldBUF w &&& 2 = 0 ↔ w.toNat / 16 % 4 < 2 := by
  have hsmall : ∀ f : BitVec 2, f &&& 2 = 0 ↔ f.toNat < 2 := by decide
  rw [hsmall, fieldBUF_toNat]

theorem fieldN_and_fifteen_eq_iff {w : Word} : fieldN w &&& 15 = 0 ↔ w.toNat / 256 % 16 = 0 := by
  have hsmall : ∀ f : BitVec 4, f &&& 15 = 0 ↔ f.toNat = 0 := by decide
  rw [hsmall, fieldN_toNat]

theorem fieldIGN_eq_false_iff {w : Word} : fieldIGN w = false ↔ w.toNat / 64 % 2 = 0 := by
  rw [← fieldIGN_toNat, Bool.toNat_eq_zero]

theorem fieldBE_eq_false_iff {w : Word} : fieldBE w = false ↔ w.toNat / 128 % 2 = 0 := by
  rw [← fieldBE_toNat, Bool.toNat_eq_zero]

section
variable (w : Word) {op : BitVec 4}

theorem row_nop_iff : w &&& 0xFFFFFFFF = commandWord 0 0 false false 0 ↔ ¬IllegalWord w ∧ w.toNat % 16 = 0 := by
  have hmask : Keeps 0xFFFFFFFF 3 true true 15 := ⟨rfl, rfl, rfl, rfl, rfl, rfl⟩
  rw [hmask.and_eq_iff, fieldBUF_and_three_eq_iff, Bool.and_true, Bool.and_true, fieldIGN_eq_false_iff,
    fieldBE_eq_false_iff, fieldN_and_fifteen_eq_iff]
  unfold IllegalWord
  simp only [BitVec.ofNat_eq_ofNat, BitVec.toNat_ofNat]
  omega

/-- The rows of CRC, VARU and VARS. -/
theorem row_anyBuffer_iff (hop : op = 1 ∨ op = 4 ∨ op = 5) :
    w &&& 0xFFFFFFCF = commandWord op 0 false false 0 ∧ w.toNat / 16 % 4 ≠ 3 ↔
      ¬IllegalWord w ∧ w.toNat % 16 = op.toNat := by
  have hmask : Keeps 0xFFFFFFCF 0 true true 15 := ⟨rfl, rfl, rfl, rfl, rfl, rfl⟩
  have hnat : op.toNat = 1 ∨ op.toNat = 4 ∨ op.toNat = 5 := by
    rcases hop with rfl | rfl | rfl <;> decide
  rw [hmask.and_eq_iff, Bool.and_true, Bool.and_true, fieldIGN_eq_false_iff, fieldBE_eq_false_iff,
    fieldN_and_fifteen_eq_iff]
  unfold IllegalWord
  simp only [BitVec.and_zero, true_and, BitVec.ofNat_eq_ofNat]
  omega

theorem row_crcchk_iff : w &&& 0xFFFFFF8F = commandWord 2 0 false false 0 ∧ w.toNat / 16 % 4 ≠ 3 ↔
    ¬IllegalWord w ∧ w.toNat % 16 = 2 := by
  have hmask : Keeps 0xFFFFFF8F 0 false true 15 := ⟨rfl, rfl, rfl, rfl, rfl, rfl⟩
  rw [hmask.and_eq_iff, Bool.and_true, fieldBE_eq_false_iff, fieldN_and_fifteen_eq_iff]
  unfold IllegalWord
  simp only [BitVec.toNat_ofNat, Bool.and_false, BitVec.and_zero, true_and, BitVec.ofNat_eq_ofNat]
  omega

/-- The rows of YAY0 and SWAP16, which have no side condition: the mask shuts out BUF = 2 and 3. -/
theorem row_inputBuffer_iff (hop : op = 3 ∨ op = 6) :
    w &&& 0xFFFFFFEF = commandWord op 0 false false 0 ↔ ¬IllegalWord w ∧ w.toNat % 16 = op.toNat := by
  have hmask : Keeps 0xFFFFFFEF 2 true true 15 := ⟨rfl, rfl, rfl, rfl, rfl, rfl⟩
  have hnat : op.toNat = 3 ∨ op.toNat = 6 := by
    rcases hop with rfl | rfl <;> decide
  rw [hmask.and_eq_iff, fieldBUF_and_two_eq_iff, Bool.and_true, Bool.and_true, fieldIGN_eq_false_iff, fieldBE_eq_false_iff,
    fieldN_and_fifteen_eq_iff]
  unfold IllegalWord
  omega

theorem row_rd_iff : w &&& 0xFFFFF04F = commandWord 7 0 false false 0 ∧ w.toNat / 16 % 4 ≠ 3 ∧ 1 ≤ w.toNat / 256 % 16 ∧
    w.toNat / 256 % 16 ≤ 8 ↔ ¬IllegalWord w ∧ w.toNat % 16 = 7 := by
  have hmask : Keeps 0xFFFFF04F 0 true false 0 := ⟨rfl, rfl, rfl, rfl, rfl, rfl⟩
  rw [hmask.and_eq_iff, Bool.and_true, fieldIGN_eq_false_iff]
  unfold IllegalWord
  simp only [BitVec.toNat_ofNat, Bool.and_false, BitVec.and_zero, true_and, BitVec.ofNat_eq_ofNat]
  omega

end

/-! ### The 68 legal words -/

def allBufs : List Buf := [.src, .pat, .out]

def inputBufs : List Buf := [.src, .pat]

def flagValues : List Bool := [false, true]

def legalCounts : List (BitVec 4) := [1, 2, 3, 4, 5, 6, 7, 8]

/-- The commands that have an encoding, row by row of R92. -/
def legalCommands : List Instr :=
  List.flatten [[.nop], allBufs.map .crc, allBufs.flatMap (fun b => flagValues.map (.crcchk b)), inputBufs.map .yay0,
    allBufs.map .varu, allBufs.map .vars, inputBufs.map .swap16,
    allBufs.flatMap (fun b => flagValues.flatMap (fun be => legalCounts.map (.rd b be)))]

@[simp] theorem mem_allBufs (b : Buf) : b ∈ allBufs := by cases b <;> decide

@[simp] theorem mem_inputBufs (b : Buf) : b ∈ inputBufs ↔ b.isInput = true := by cases b <;> decide

@[simp] theorem mem_flagValues (x : Bool) : x ∈ flagValues := by cases x <;> decide

@[simp] theorem mem_legalCounts (n : BitVec 4) : n ∈ legalCounts ↔ countLegal n = true := by
  revert n
  decide

theorem mem_legalCommands_iff {i : Instr} : i ∈ legalCommands ↔ i.isCommand = true ∧ i.wellFormed = true := by
  cases i <;> simp [legalCommands, Instr.isCommand, Instr.wellFormed]

/-- The word of a command; 0 for a stream operation, which has none. -/
def wordOf (i : Instr) : Word :=
  match encode i with
  | .command w => w
  | _ => 0

theorem encode_eq_command_iff {i : Instr} {w : Word} : encode i = .command w ↔ i.isCommand = true ∧ wordOf i = w := by
  cases i with
  | nop | crc | crcchk | yay0 | varu | vars | swap16 | rd => simp [encode, wordOf, Instr.isCommand]
  | lit | copy | lcopy | vbCont | vbEnd => simp [encode, Instr.isCommand]

/-- The 68 words of R92. -/
def legalWords : List Word := legalCommands.map wordOf

theorem mem_legalWords_iff {w : Word} : w ∈ legalWords ↔ ∃ i, decode (.command w) = .ok i := by
  simp only [legalWords, List.mem_map, mem_legalCommands_iff, decode_command_iff, encode_eq_command_iff]
  exact exists_congr fun i => by tauto

theorem nodup_legalWords : legalWords.Nodup := by decide

/-- How many words each opcode has, as R92 counts them. -/
theorem count_legalWords_by_opcode :
    (List.range 8).map (fun k => (legalWords.filter (fun w => w.toNat % 16 == k)).length) = [1, 3, 6, 2, 3, 3, 2, 48] := by
  decide

/-! ### The decoder, row by row -/

/-- The words of one row are the legal words of its opcode. -/
theorem exists_decode_row_iff {α : Type} {row : α → Instr} {w : Word} {k : Nat}
    (hrow : ∀ i, opcode i = k ↔ ∃ a, row a = i) :
    (∃ a, decode (.command w) = .ok (row a)) ↔ ¬IllegalWord w ∧ w.toNat % 16 = k := by
  constructor
  · rintro ⟨a, h⟩
    obtain ⟨hlegal, hop⟩ := legal_of_decode h
    exact ⟨hlegal, hop.trans ((hrow _).2 ⟨a, rfl⟩)⟩
  · rintro ⟨hlegal, hop⟩
    obtain ⟨i, h⟩ := exists_decode_iff.2 hlegal
    obtain ⟨a, rfl⟩ := (hrow i).1 ((legal_of_decode h).2.symm.trans hop)
    exact ⟨a, h⟩

section
variable {w : Word}

theorem decode_nop_iff : decode (.command w) = .ok .nop ↔ ¬IllegalWord w ∧ w.toNat % 16 = 0 := by
  simpa using exists_decode_row_iff (w := w) (row := fun _ : Unit => .nop) fun i => by cases i <;> simp [opcode]

theorem exists_decode_crc_iff : (∃ b, decode (.command w) = .ok (.crc b)) ↔ ¬IllegalWord w ∧ w.toNat % 16 = 1 :=
  exists_decode_row_iff fun i => by cases i <;> simp [opcode]

theorem exists_decode_crcchk_iff :
    (∃ b ign, decode (.command w) = .ok (.crcchk b ign)) ↔ ¬IllegalWord w ∧ w.toNat % 16 = 2 := by
  simpa using exists_decode_row_iff (w := w) (row := fun p : Buf × Bool => .crcchk p.1 p.2) fun i => by
    cases i <;> simp [opcode]

theorem exists_decode_yay0_iff : (∃ b, decode (.command w) = .ok (.yay0 b)) ↔ ¬IllegalWord w ∧ w.toNat % 16 = 3 :=
  exists_decode_row_iff fun i => by cases i <;> simp [opcode]

theorem exists_decode_varu_iff : (∃ b, decode (.command w) = .ok (.varu b)) ↔ ¬IllegalWord w ∧ w.toNat % 16 = 4 :=
  exists_decode_row_iff fun i => by cases i <;> simp [opcode]

theorem exists_decode_vars_iff : (∃ b, decode (.command w) = .ok (.vars b)) ↔ ¬IllegalWord w ∧ w.toNat % 16 = 5 :=
  exists_decode_row_iff fun i => by cases i <;> simp [opcode]

theorem exists_decode_swap16_iff :
    (∃ b, decode (.command w) = .ok (.swap16 b)) ↔ ¬IllegalWord w ∧ w.toNat % 16 = 6 :=
  exists_decode_row_iff fun i => by cases i <;> simp [opcode]

theorem exists_decode_rd_iff :
    (∃ b be n, decode (.command w) = .ok (.rd b be n)) ↔ ¬IllegalWord w ∧ w.toNat % 16 = 7 := by
  simpa using exists_decode_row_iff (w := w) (row := fun p : Buf × Bool × BitVec 4 => .rd p.1 p.2.1 p.2.2) fun i => by
    cases i <;> simp [opcode]

end

/-! ### The obligations -/

/-- Settles O4: decoding to a row's command and matching the row's mask both mean that the word is legal and has the row's
opcode; the 68 words are those of the listed commands. -/
theorem legalWordsAreTheRows : Obligations.LegalWordsAreTheRows := by
  refine ⟨fun w => ⟨?nop, ?crc, ?crcchk, ?yay0, ?varu, ?vars, ?swap16, ?rd, fun i => decodeCommand_isCommand⟩,
    legalWords, nodup_legalWords, rfl, fun w => mem_legalWords_iff, count_legalWords_by_opcode⟩
  case nop => exact decode_nop_iff.trans (row_nop_iff w).symm
  case crc => exact exists_decode_crc_iff.trans (row_anyBuffer_iff w (.inl rfl)).symm
  case crcchk => exact exists_decode_crcchk_iff.trans (row_crcchk_iff w).symm
  case yay0 => exact exists_decode_yay0_iff.trans (row_inputBuffer_iff w (.inl rfl)).symm
  case varu => exact exists_decode_varu_iff.trans (row_anyBuffer_iff w (.inr (.inl rfl))).symm
  case vars => exact exists_decode_vars_iff.trans (row_anyBuffer_iff w (.inr (.inr rfl))).symm
  case swap16 => exact exists_decode_swap16_iff.trans (row_inputBuffer_iff w (.inr rfl)).symm
  case rd => exact exists_decode_rd_iff.trans (row_rd_iff w).symm

/-- Settles O5: the words that do not decode are those R93 lists; a write to CMD issues any word, and the block's next step
raises IllegalCommand for one that does not decode. -/
theorem illegalWordsRaiseIllegalCommand : Obligations.IllegalWordsRaiseIllegalCommand := by
  intro w
  have hillegal : IllegalWord w ↔ ¬∃ i, decode (.command w) = .ok i := by rw [exists_decode_iff, not_not]
  refine ⟨hillegal, fun s rest hw hb hrst hh => ?_⟩
  have hissue := step_of_regWrite_idle (r := .cmd) hh rfl rfl hb hrst
  refine ⟨_, hissue, rfl, rfl, ?_⟩
  rw [step_of_run rfl]
  cases hd : decode (.command w) with
  | ok i => exact absurd ⟨i, hd⟩ (hillegal.1 hw)
  | error r => exact blockStep_illegal rfl hd

end Sys2Proof.Machine


/-! PROOFS. What is common to the commands: the operand check (R122), and NOP, which does nothing else (R126). -/

namespace Sys2Proof.Machine

/-! ### The two completions, in the statements' terms -/

theorem State.raise_kept (s : State) (e : ErrKind) : s.raise e .kept = s.afterError e := rfl

theorem State.complete_eq_afterSuccess (s : State) (matched : Bool) : s.complete matched = s.afterSuccess matched := rfl

/-! ### The checks before every command -/

/-- Every command begins with the checks of R121 and R122; only what it does after them is its own (R132). -/
theorem exec_command_eq_checked {i : Instr} (hc : i.isCommand = true) (s : State) :
    ∃ own, exec i s = s.checked i own := by
  cases i with
  | nop | crc | crcchk | yay0 | varu | vars | swap16 | rd => exact ⟨_, rfl⟩
  | lit | copy | lcopy | vbCont | vbEnd => cases hc

/-- A command that fails a check of R121 or R122 raises IllegalCommand and leaves OUT as it was (R233). -/
theorem exec_command_of_check_fails {i : Instr} {s : State} (hc : i.isCommand = true)
    (h : i.wellFormed = false ∨ s.operandsOk = false) : exec i s = .next (s.afterError .illegalCommand) := by
  obtain ⟨own, hown⟩ := exec_command_eq_checked hc s
  rw [hown, State.checked_bad own h, State.raise_kept]

theorem State.operandsOk_iff_no_excess (s : State) : s.operandsOk = true ↔
    ¬(s.srcMax.toNat < s.srcLen.toNat ∨ s.patMax.toNat < s.patLen.toNat ∨
      s.outMax.toNat < s.outCap.toNat ∨ s.outCap.toNat < s.outLen.toNat) := by
  simp only [s.operandsOk_iff, not_or, not_lt]

/-- After the check every readable byte exists; for OUT by way of OUT_CAP. -/
theorem State.bufLen_le_physSize {s : State} (h : s.operandsOk = true) (b : Buf) : s.bufLen b ≤ s.physSize b := by
  obtain ⟨hsrc, hpat, hcap, hout⟩ := s.operandsOk_iff.1 h
  cases b with
  | src => exact hsrc
  | pat => exact hpat
  | out => exact hout.trans hcap

/-- After the check every byte below OUT_CAP can be written (R67). -/
theorem State.outCap_le_physSize {s : State} (h : s.operandsOk = true) : s.outCap.toNat ≤ s.physSize .out := by
  obtain ⟨-, -, hcap, -⟩ := s.operandsOk_iff.1 h
  exact hcap

/-! ### Runs of a few steps -/

theorem runSteps_succ_of_next {s t : State} (n : Nat) (h : step s = .next t) : runSteps (n + 1) s = runSteps n t := by
  simp [runSteps, h]

theorem runSteps_one (s : State) : runSteps 1 s = step s := by
  simp only [runSteps]
  cases step s <;> rfl

/-- A host that writes a legal word to CMD while BUSY = 0 and then gives the block one step has the command executed
(R23, R121). -/
theorem runSteps_two_of_command {s : State} {w : Word} {i : Instr} (hh : s.host = [.regWrite 0x00 4 w, .run])
    (hb : s.busy = false) (hrst : s.rst = false) (hd : decode (.command w) = .ok i) :
    runSteps 2 s = exec i (({ s with host := [] } : State).issue w) := by
  have hissue := step_of_regWrite_idle (r := .cmd) hh rfl rfl hb hrst
  rw [runSteps_succ_of_next 1 hissue, runSteps_one, step_of_run rfl]
  exact blockStep_issued rfl hd

/-! ### The command NOP -/

theorem decode_nop : decode (.command 0x00000000) = .ok .nop := decode_command_iff.2 ⟨rfl, rfl⟩

theorem exec_nop (s : State) : exec .nop s = s.checked .nop (.next (s.complete false)) := rfl

theorem exec_nop_of_operandsOk {s : State} (hs : s.operandsOk = true) : exec .nop s = .next (s.afterSuccess false) := by
  rw [exec_nop, State.checked_ok _ rfl hs, State.complete_eq_afterSuccess]

/-! ### The obligations -/

/-- Settles O26: every command begins with the same check, which compares the lengths with the limits. -/
theorem commonOperandCheck : Obligations.CommonOperandCheck := by
  intro s
  refine ⟨s.operandsOk_iff_no_excess, ?fails, ?passes⟩
  case fails =>
    intro i hc hs
    exact exec_command_of_check_fails hc (.inr hs)
  case passes =>
    intro hs
    exact ⟨State.bufLen_le_physSize hs, State.outCap_le_physSize hs⟩

/-- Settles O29: NOP is the common operand check and a completion; after reset, where every length is 0, it succeeds. -/
theorem nopCompletes : Obligations.NopCompletes := by
  refine ⟨decode_nop, fun s => exec_nop_of_operandsOk, ?fails, ?afterReset⟩
  case fails =>
    intro s hs
    exact exec_command_of_check_fails rfl (.inr hs)
  case afterReset =>
    have hrun := runSteps_two_of_command
      (s := { State.reset with host := [.regWrite 0x00 4 0x00000000, .run] }) rfl rfl rfl decode_nop
    exact ⟨_, hrun.trans (exec_nop_of_operandsOk rfl), rfl, rfl⟩

end Sys2Proof.Machine


/-! PROOFS. The CRC32 unit: the vectors of R142, CRC (R145), and CRCCHK with its field IGN (R146, R147). -/

namespace Sys2Proof.Machine

/-! ### The function on short messages -/

theorem crc32_nil : crc32 [] = 0 := rfl

theorem crc32_singleton (m : Byte) : crc32 [m] = crcShifts 8 (crcInit ^^^ m.setWidth 32) ^^^ crcXorOut := rfl

theorem crcInit_xor_0x61 : crcInit ^^^ (0x61 : Byte).setWidth 32 = 0xFFFFFF9E := rfl

/-- The register of the second vector of R142, before the first of the eight steps and after each of them. -/
theorem crcShifts_0x61 : (List.range 9).map (fun n => crcShifts n 0xFFFFFF9E) =
    [0xFFFFFF9E, 0x7FFFFFCF, 0xD2477CC7, 0x849B3D43, 0xAFF51D81, 0xBA420DE0, 0x5D2106F0, 0x2E908378, 0x174841BC] := by
  decide

theorem crcShifts_eight_0x61 : crcShifts 8 0xFFFFFF9E = 0x174841BC :=
  Option.some.inj (congrArg (fun cs : List Word => cs[8]?) crcShifts_0x61)

theorem crc32_0x61 : crc32 [0x61] = 0xE8B7BE43 :=
  calc crc32 [0x61] = crcShifts 8 (crcInit ^^^ (0x61 : Byte).setWidth 32) ^^^ crcXorOut := crc32_singleton 0x61
    _ = 0x174841BC ^^^ crcXorOut := by rw [crcInit_xor_0x61, crcShifts_eight_0x61]
    _ = 0xE8B7BE43 := rfl

/-! ### The commands CRC and CRCCHK, case by case -/

theorem zext64_eq_ofNat (w : Word) : zext64 w = BitVec.ofNat 64 w.toNat := (BitVec.ofNat_toNat 64 w).symm

theorem wellFormed_crc (b : Buf) : (Instr.crc b).wellFormed = true := rfl

theorem wellFormed_crcchk (b : Buf) (ign : Bool) : (Instr.crcchk b ign).wellFormed = true := rfl

theorem decode_crc (b : Buf) : decode (.command (BitVec.ofNat 32 (0x01 + 16 * b.field.toNat))) = .ok (.crc b) := by
  have hb := field_toNat_lt b
  refine decode_command_iff.2 ⟨wellFormed_crc b, encode_crc_eq_iff.2 ?_⟩
  rw [BitVec.toNat_ofNat]
  omega

theorem decode_crcchk (b : Buf) (ign : Bool) :
    decode (.command (BitVec.ofNat 32 (0x02 + 16 * b.field.toNat + 64 * ign.toNat))) = .ok (.crcchk b ign) := by
  have hb := field_toNat_lt b
  have hign := ign.toNat_le
  refine decode_command_iff.2 ⟨wellFormed_crcchk b ign, encode_crcchk_eq_iff.2 ?_⟩
  rw [BitVec.toNat_ofNat]
  omega

section
variable {b : Buf} {ign : Bool} {s : State} {c : Word}

theorem exec_crc_of_truncated (hs : s.operandsOk = true) (hlt : s.bufLen b < s.pos.toNat + s.len.toNat) :
    exec (.crc b) s = .next (s.afterError .truncatedInput) := by
  simp only [exec, execCrc, State.checked_ok _ (wellFormed_crc b) hs, State.memRead_of_lt hlt, State.raise_kept]

theorem exec_crc_of_inside (hs : s.operandsOk = true) (hle : s.pos.toNat + s.len.toNat ≤ s.bufLen b)
    (hc : crc32 (s.bytes b s.pos.toNat s.len.toNat) = c) :
    exec (.crc b) s = .next { s.afterSuccess false with result := BitVec.ofNat 64 c.toNat } := by
  simp only [exec, execCrc, State.checked_ok _ (wellFormed_crc b) hs, State.memRead_of_le hle, hc, zext64_eq_ofNat]
  rfl

theorem exec_crcchk_of_truncated (hs : s.operandsOk = true) (hlt : s.bufLen b < s.pos.toNat + s.len.toNat) :
    exec (.crcchk b ign) s = .next (s.afterError .truncatedInput) := by
  simp only [exec, execCrcchk, State.checked_ok _ (wellFormed_crcchk b ign) hs, State.memRead_of_lt hlt, State.raise_kept]

/-- RESULT gets the CRC whatever the comparison says; the raise needs a difference and IGN = 0 (R147). -/
theorem exec_crcchk_of_inside (hs : s.operandsOk = true) (hle : s.pos.toNat + s.len.toNat ≤ s.bufLen b)
    (hc : crc32 (s.bytes b s.pos.toNat s.len.toNat) = c) :
    exec (.crcchk b ign) s =
      if c ≠ s.expect ∧ ign = false then
        .next { s.afterError .checksumMismatch with result := BitVec.ofNat 64 c.toNat }
      else .next { s.afterSuccess (decide (c = s.expect)) with result := BitVec.ofNat 64 c.toNat } := by
  simp only [exec, execCrcchk, State.checked_ok _ (wellFormed_crcchk b ign) hs, State.memRead_of_le hle, hc,
    zext64_eq_ofNat]
  rfl

theorem exec_crcchk_of_match (hs : s.operandsOk = true) (hle : s.pos.toNat + s.len.toNat ≤ s.bufLen b)
    (hc : crc32 (s.bytes b s.pos.toNat s.len.toNat) = c) (he : c = s.expect) :
    exec (.crcchk b ign) s = .next { s.afterSuccess true with result := BitVec.ofNat 64 c.toNat } := by
  simp [exec_crcchk_of_inside hs hle hc, he]

theorem exec_crcchk_of_mismatch (hs : s.operandsOk = true) (hle : s.pos.toNat + s.len.toNat ≤ s.bufLen b)
    (hc : crc32 (s.bytes b s.pos.toNat s.len.toNat) = c) (he : c ≠ s.expect) :
    exec (.crcchk b false) s =
      .next { s.afterError .checksumMismatch with result := BitVec.ofNat 64 c.toNat } := by
  simp [exec_crcchk_of_inside hs hle hc, he]

theorem exec_crcchk_of_ignored_mismatch (hs : s.operandsOk = true) (hle : s.pos.toNat + s.len.toNat ≤ s.bufLen b)
    (hc : crc32 (s.bytes b s.pos.toNat s.len.toNat) = c) (he : c ≠ s.expect) :
    exec (.crcchk b true) s = .next { s.afterSuccess false with result := BitVec.ofNat 64 c.toNat } := by
  simp [exec_crcchk_of_inside hs hle hc, he]

end

/-- What the two forms of CRCCHK do: an error other than ChecksumMismatch in both, a match in both, or a difference, which
only the form without IGN raises (R147). -/
theorem exec_crcchk_cases (b : Buf) (s : State) :
    (∃ e, e ≠ .checksumMismatch ∧ ∀ ign, exec (.crcchk b ign) s = .next (s.afterError e)) ∨
    (∃ r, ∀ ign, exec (.crcchk b ign) s = .next { s.afterSuccess true with result := r }) ∨
    (∃ r, exec (.crcchk b false) s = .next { s.afterError .checksumMismatch with result := r } ∧
      exec (.crcchk b true) s = .next { s.afterSuccess false with result := r }) := by
  rcases Bool.eq_false_or_eq_true s.operandsOk with hs | hs
  · rcases Nat.lt_or_ge (s.bufLen b) (s.pos.toNat + s.len.toNat) with hlt | hle
    · exact .inl ⟨.truncatedInput, nofun, fun _ => exec_crcchk_of_truncated hs hlt⟩
    · by_cases he : crc32 (s.bytes b s.pos.toNat s.len.toNat) = s.expect
      · exact .inr (.inl ⟨_, fun _ => exec_crcchk_of_match hs hle rfl he⟩)
      · exact .inr (.inr ⟨_, exec_crcchk_of_mismatch hs hle rfl he, exec_crcchk_of_ignored_mismatch hs hle rfl he⟩)
  · exact .inl ⟨.illegalCommand, nofun, fun _ => exec_command_of_check_fails rfl (.inr hs)⟩

/-! ### The empty range, and the one-byte range of the rules' examples -/

theorem crc32_bytes_of_len_zero (b : Buf) {s : State} (hlen : s.len = 0) :
    crc32 (s.bytes b s.pos.toNat s.len.toNat) = 0 := by
  rw [hlen]
  exact crc32_nil

section
variable {s : State}

theorem oneByte_inside (hsrc : s.srcLen = 1) (hpos : s.pos = 0) (hlen : s.len = 1) :
    s.pos.toNat + s.len.toNat ≤ s.bufLen .src := by
  rw [State.bufLen_src, hsrc, hpos, hlen]
  decide

theorem crc32_bytes_of_oneByte (hpos : s.pos = 0) (hlen : s.len = 1) (hbyte : s.byte .src 0 = 0x61) :
    crc32 (s.bytes .src s.pos.toNat s.len.toNat) = 0xE8B7BE43 := by
  have hbytes : s.bytes .src s.pos.toNat s.len.toNat = [0x61] := by
    rw [hpos, hlen, ← hbyte]
    rfl
  rw [hbytes, crc32_0x61]

end

/-! ### The obligations -/

/-- Settles O33: the vectors of R142, with the values between the steps of the second. -/
theorem crcVectors : Obligations.CrcVectors :=
  ⟨crc32_nil, crc32_0x61, crcInit_xor_0x61, crcShifts_0x61⟩

/-- Settles O30: CRC by the outcome of its check and of its read; the CRC of an empty range is 0. -/
theorem crcComputes : Obligations.CrcComputes := by
  refine ⟨decode_crc, fun b s => ⟨?illegal, exec_crc_of_truncated, ?inside, ?empty⟩, ?oneByte⟩
  case illegal =>
    intro hs
    exact exec_command_of_check_fails rfl (.inr hs)
  case inside =>
    intro hs hle
    exact exec_crc_of_inside hs hle rfl
  case empty =>
    intro hs hlen hpos
    have hle : s.pos.toNat + s.len.toNat ≤ s.bufLen b := by simpa [hlen] using hpos
    exact exec_crc_of_inside hs hle (crc32_bytes_of_len_zero b hlen)
  case oneByte =>
    intro s hs hsrc hpos hlen hbyte
    exact exec_crc_of_inside hs (oneByte_inside hsrc hpos hlen) (crc32_bytes_of_oneByte hpos hlen hbyte)

/-- Settles O31: CRCCHK by the outcome of its check, of its read and of the comparison; the examples are the comparison of
the one-byte CRC with two values of EXPECT. -/
theorem crcchkCompares : Obligations.CrcchkCompares := by
  refine ⟨decode_crcchk, fun b ign s => ⟨?illegal, exec_crcchk_of_truncated, ?equal, ?ignored, ?raised, ?empty⟩,
    fun s hs hsrc hpos hlen hbyte => ?oneByte⟩
  case illegal =>
    intro hs
    exact exec_command_of_check_fails rfl (.inr hs)
  case equal =>
    intro hs hle he
    exact exec_crcchk_of_match hs hle rfl he
  case ignored =>
    rintro hs hle he rfl
    exact exec_crcchk_of_ignored_mismatch hs hle rfl he
  case raised =>
    rintro hs hle he rfl
    exact exec_crcchk_of_mismatch hs hle rfl he
  case empty => exact crc32_bytes_of_len_zero b
  case oneByte =>
    have hle := oneByte_inside hsrc hpos hlen
    have hcrc := crc32_bytes_of_oneByte hpos hlen hbyte
    have hne (he : s.expect = 0) : 0xE8B7BE43 ≠ s.expect := by
      rw [he]
      decide
    exact ⟨fun he => ⟨_, exec_crcchk_of_match hs hle hcrc he.symm, rfl⟩,
      fun he => ⟨_, exec_crcchk_of_mismatch hs hle hcrc (hne he), rfl, rfl, rfl⟩,
      fun he => ⟨_, exec_crcchk_of_ignored_mismatch hs hle hcrc (hne he), rfl⟩⟩

/-- Settles O32: the two forms of CRCCHK answer alike except on a difference, and there only ERR and ERRCODE differ. -/
theorem ignSuppressesOnlyMismatch : Obligations.IgnSuppressesOnlyMismatch := by
  intro b s t u ht hu
  obtain ⟨e, he, hboth⟩ | ⟨r, hboth⟩ | ⟨r, hraised, hignored⟩ := exec_crcchk_cases b s
  · cases (hboth false).symm.trans ht
    cases (hboth true).symm.trans hu
    have hkind : some e ≠ some ErrKind.checksumMismatch := fun h => he (Option.some.inj h)
    exact ⟨hkind, fun _ => rfl, fun h => absurd h hkind⟩
  · cases (hboth false).symm.trans ht
    cases (hboth true).symm.trans hu
    exact ⟨nofun, fun _ => rfl, nofun⟩
  · cases hraised.symm.trans ht
    cases hignored.symm.trans hu
    exact ⟨nofun, fun h => absurd rfl h, fun _ => ⟨rfl, rfl⟩⟩

end Sys2Proof.Machine


/-! PROOFS. The byte-order unit: the checks of SWAP16 (R211), and RD (R214). -/

namespace Sys2Proof.Machine

/-! ### The value of a field as a sum over its bytes -/

theorem leNat_bytes (s : State) (b : Buf) (a n : Nat) :
    leNat (s.bytes b a n) = ∑ i ∈ Finset.range n, (s.byte b (a + i)).toNat * 256 ^ i := by
  induction n generalizing a with
  | zero => rfl
  | succ n ih =>
    have htail : 256 * leNat (s.bytes b (a + 1) n) =
        ∑ i ∈ Finset.range n, (s.byte b (a + (i + 1))).toNat * 256 ^ (i + 1) := by
      rw [ih, Finset.mul_sum]
      refine Finset.sum_congr rfl fun i _ => ?_
      rw [Nat.add_right_comm a 1 i, Nat.add_assoc a i 1]
      ring
    rw [State.bytes, leNat, htail, Finset.sum_range_succ', pow_zero, mul_one, Nat.add_zero, Nat.add_comm]

theorem beFold_bytes (acc : Nat) (s : State) (b : Buf) (a n : Nat) :
    beFold acc (s.bytes b a n) =
      acc * 256 ^ n + ∑ i ∈ Finset.range n, (s.byte b (a + i)).toNat * 256 ^ (n - 1 - i) := by
  induction n generalizing acc a with
  | zero => simp [State.bytes, beFold]
  | succ n ih =>
    have htail : ∑ i ∈ Finset.range n, (s.byte b (a + 1 + i)).toNat * 256 ^ (n - 1 - i) =
        ∑ i ∈ Finset.range n, (s.byte b (a + (i + 1))).toNat * 256 ^ (n + 1 - 1 - (i + 1)) := by
      refine Finset.sum_congr rfl fun i _ => ?_
      rw [show a + 1 + i = a + (i + 1) by omega, show n - 1 - i = n + 1 - 1 - (i + 1) by omega]
    rw [State.bytes, beFold, ih, htail, Finset.sum_range_succ']
    simp only [Nat.add_zero, Nat.add_sub_cancel, Nat.sub_zero]
    ring

theorem beNat_bytes (s : State) (b : Buf) (a n : Nat) :
    beNat (s.bytes b a n) = ∑ i ∈ Finset.range n, (s.byte b (a + i)).toNat * 256 ^ (n - 1 - i) := by
  rw [beNat, beFold_bytes, Nat.zero_mul, Nat.zero_add]

/-- The byte order only chooses the power of 256 each byte stands for (R11). -/
theorem fieldValue_bytes (be : Bool) (s : State) (b : Buf) (a n : Nat) :
    fieldValue be (s.bytes b a n) =
      ∑ i ∈ Finset.range n, (s.byte b (a + i)).toNat * 256 ^ (if be then n - 1 - i else i) := by
  cases be with
  | false => exact leNat_bytes s b a n
  | true => exact beNat_bytes s b a n

/-! ### The command RD, case by case -/

theorem commandWord_rd (b : Buf) (be : Bool) (n : BitVec 4) :
    commandWord 7 b.field false be n = BitVec.ofNat 32 (0x007 + 16 * b.field.toNat + 128 * be.toNat + 256 * n.toNat) := by
  have hb := field_toNat_lt b
  have hbe := be.toNat_le
  have hn := n.isLt
  rw [commandWord_eq_iff, BitVec.toNat_ofNat, Bool.toNat_false, show (7 : BitVec 4).toNat = 7 from rfl]
  omega

theorem decode_rd (b : Buf) (be : Bool) {n : BitVec 4} (hn : countLegal n = true) :
    decode (.command (BitVec.ofNat 32 (0x007 + 16 * b.field.toNat + 128 * be.toNat + 256 * n.toNat))) =
      .ok (.rd b be n) := by
  rw [← commandWord_rd]
  exact decode_command_iff.2 ⟨hn, rfl⟩

theorem decode_rd_of_bad_count (b : Buf) (be : Bool) {n : BitVec 4} (hn : countLegal n = false) :
    decode (.command (BitVec.ofNat 32 (0x007 + 16 * b.field.toNat + 128 * be.toNat + 256 * n.toNat))) =
      .error .badCount := by
  rw [← commandWord_rd]
  simp [decode, decodeCommand, ifUnused, hn]

section
variable {b : Buf} {be : Bool} {n : BitVec 4} {s : State}

theorem exec_rd_of_truncated (hn : countLegal n = true) (hs : s.operandsOk = true)
    (hlt : s.bufLen b < s.pos.toNat + n.toNat) : exec (.rd b be n) s = .next (s.afterError .truncatedInput) := by
  have hwf : (Instr.rd b be n).wellFormed = true := hn
  simp only [exec, execRd, State.checked_ok _ hwf hs, State.memRead_of_lt hlt, State.raise_kept]

theorem exec_rd_of_inside (hn : countLegal n = true) (hs : s.operandsOk = true)
    (hle : s.pos.toNat + n.toNat ≤ s.bufLen b) :
    exec (.rd b be n) s = .next { s.afterSuccess false with
      result := BitVec.ofNat 64 (fieldValue be (s.bytes b s.pos.toNat n.toNat))
      pos := BitVec.ofNat 32 (s.pos.toNat + n.toNat) } := by
  have hwf : (Instr.rd b be n).wellFormed = true := hn
  simp only [exec, execRd, State.checked_ok _ hwf hs, State.memRead_of_le hle]
  rfl

/-- The cursor after a field that lies below the readable length fits POS. -/
theorem cursor_after_field_toNat (hle : s.pos.toNat + n.toNat ≤ s.bufLen b) :
    (BitVec.ofNat 32 (s.pos.toNat + n.toNat)).toNat = s.pos.toNat + n.toNat := by
  rw [BitVec.toNat_ofNat]
  exact Nat.mod_eq_of_lt (hle.trans_lt (s.bufLen_lt b))

/-- The value of a field that RD can read fits RESULT. -/
theorem result_of_field_toNat (a : Nat) (hn : countLegal n = true) :
    (BitVec.ofNat 64 (fieldValue be (s.bytes b a n.toNat))).toNat = fieldValue be (s.bytes b a n.toNat) := by
  have hlength : (s.bytes b a n.toNat).length ≤ 8 := by
    rw [State.bytes_length]
    exact (countLegal_iff.1 hn).2
  rw [BitVec.toNat_ofNat]
  exact Nat.mod_eq_of_lt (fieldValue_lt hlength)

end

/-! ### The checks of SWAP16 -/

theorem State.raise_emptied (s : State) (e : ErrKind) : s.raise e .emptied = s.afterOwnError e := rfl

theorem isInput_iff {b : Buf} : b.isInput = true ↔ b ≠ .out := bne_iff_ne

/-- SWAP16 with OUT as its input is no legal word (R94). -/
theorem decode_swap16_of_out : decode (.command 0x00000026) = .error .outputAsInput := by decide

section
variable {b : Buf} {s : State}

theorem exec_swap16_of_odd (hin : b.isInput = true) (hs : s.operandsOk = true) (hodd : s.len.toNat % 2 = 1) :
    exec (.swap16 b) s = .next (s.afterOwnError .illegalCommand) := by
  have hwf : (Instr.swap16 b).wellFormed = true := hin
  simp only [exec, execSwap16, State.checked_ok _ hwf hs, if_pos hodd, State.raise_emptied]

theorem exec_swap16_of_truncated (hin : b.isInput = true) (hs : s.operandsOk = true) (heven : s.len.toNat % 2 ≠ 1)
    (hlt : s.bufLen b < s.pos.toNat + s.len.toNat) :
    exec (.swap16 b) s = .next (s.afterOwnError .truncatedInput) := by
  have hwf : (Instr.swap16 b).wellFormed = true := hin
  simp only [exec, execSwap16, State.checked_ok _ hwf hs, if_neg heven, if_pos hlt, State.raise_emptied]

theorem exec_swap16_of_exceeded (hin : b.isInput = true) (hs : s.operandsOk = true) (heven : s.len.toNat % 2 ≠ 1)
    (hle : s.pos.toNat + s.len.toNat ≤ s.bufLen b) (hcap : s.outCap.toNat < s.len.toNat) :
    exec (.swap16 b) s = .next (s.afterOwnError .boundsViolation) := by
  have hwf : (Instr.swap16 b).wellFormed = true := hin
  simp only [exec, execSwap16, State.checked_ok _ hwf hs, if_neg heven, if_neg hle.not_gt, if_pos hcap,
    State.raise_emptied]

end

/-! ### The obligations -/

/-- Settles O51: RD by the outcome of its checks and of its read; a field of at most eight bytes below the readable length
fits RESULT, and the cursor behind it fits POS. -/
theorem rdReadsField : Obligations.RdReadsField := by
  intro b be n s hlo hhi
  have hn : countLegal n = true := countLegal_iff.2 ⟨hlo, hhi⟩
  refine ⟨decode_rd b be hn, ?badCount, ?illegal, exec_rd_of_truncated hn, ?inside⟩
  case badCount =>
    intro m hm
    have hillegal : countLegal m = false := by
      rw [Bool.eq_false_iff, ne_eq, countLegal_iff]
      omega
    exact decode_rd_of_bad_count b be hillegal
  case illegal =>
    intro hs
    exact exec_command_of_check_fails rfl (.inr hs)
  case inside =>
    intro hs hle
    exact ⟨_, exec_rd_of_inside hn hs hle, rfl, cursor_after_field_toNat hle,
      (result_of_field_toNat _ hn).trans (fieldValue_bytes be s b _ _)⟩

/-- Settles O49: the word of SWAP16 with OUT as its input does not decode; each later check of SWAP16 fails in a state
that passes those before it. -/
theorem swap16ChecksInOrder : Obligations.Swap16ChecksInOrder := by
  refine ⟨?outAsInput, fun b s hb => ?checks⟩
  case outAsInput =>
    intro s hh hq hw
    rw [step_of_host_nil hh]
    exact blockStep_illegal hq (hw ▸ decode_swap16_of_out)
  case checks =>
    have hin : b.isInput = true := isInput_iff.2 hb
    refine ⟨?illegal, exec_swap16_of_odd hin, ?truncated, ?exceeded⟩
    case illegal =>
      intro hs
      exact exec_command_of_check_fails rfl (.inr hs)
    case truncated =>
      intro hs heven hlt
      exact exec_swap16_of_truncated hin hs (by omega) hlt
    case exceeded =>
      intro hs heven hle hcap
      exact exec_swap16_of_exceeded hin hs (by omega) hle hcap

end Sys2Proof.Machine


/-! PROOFS. The ends of a command: the interrupt every completion raises (R240), and what a completion with an error writes
and leaves (R233). -/

namespace Sys2Proof.Machine

/-! ### The interrupt -/

theorem State.irq_of_not_done {s : State} (h : s.done = false) : s.irq = false := by
  simp [State.irq, h]

theorem BlockNext.ie {s t : State} (h : BlockNext s t) : t.ie = s.ie := by
  cases h <;> simp

/-- A step that ends the command sets DONE, with or without an error (R123, R233). -/
theorem BlockNext.done_of_ended {s t : State} (h : BlockNext s t) (hb : s.busy = true) (ht : t.busy = false) :
    t.done = true := by
  cases h with
  | holds m q => simp [hb] at ht
  | completes => rfl
  | raises => rfl

theorem State.busWrite_cmd {s : State} (w : Word) (hb : s.busy = false) (hrst : s.rst = false) :
    s.busWrite 0x00 w = s.issue w := by
  simp [State.busWrite, hb, hrst, regAt, State.regWrite]

/-- The acknowledgement of a completion reaches STATUS at its offset (R24). -/
theorem State.busWrite_status_of_bit {s : State} {v : Word} (hb : s.busy = false) (hrst : s.rst = false)
    (hv : v.getLsbD 1 = true) : s.busWrite 0x04 v = { s with done := false } := by
  simp [State.busWrite, hb, hrst, regAt, State.regWrite_status_of_bit s hv]

/-- While `rst` is asserted no completion stands in STATUS (R270). -/
theorem State.Inv.not_done_of_held {s : State} (hs : s.Inv) (hrst : s.rst = true) : s.done = false := by
  obtain ⟨-, hdone, -⟩ := State.idle_of_reg_zero (hs.heldReset hrst)
  exact hdone

/-- Settles O20: every step that ends a command sets DONE and keeps IE; the three ways to clear the interrupt clear DONE. -/
theorem irqRaisedByEveryCompletion : Obligations.IrqRaisedByEveryCompletion := by
  intro s
  refine ⟨rfl, ?raised, ?acknowledged, ?issued, s.applyReset_irq, ?held⟩
  case raised =>
    intro t _ hh hb hstep ht
    have hnext := blockNext_step hh hstep
    have hdone := hnext.done_of_ended hb ht
    exact ⟨hdone, by simp [State.irq, hdone, hnext.ie]⟩
  case acknowledged =>
    intro v hb hrst hv
    rw [State.busWrite_status_of_bit hb hrst hv]
    exact State.irq_of_not_done rfl
  case issued =>
    intro w hb hrst
    rw [State.busWrite_cmd w hb hrst]
    exact State.irq_of_not_done rfl
  case held =>
    intro hs hrst
    exact State.irq_of_not_done (hs.not_done_of_held hrst)

/-! ### What a completion with an error leaves -/

/-- The command in flight is one whose errors cost the content of OUT: YAY0 or SWAP16, past the common operand check
(R233). -/
def State.LosesOut (s : State) : Prop :=
  s.operandsOk = true ∧ ∃ b, decode (.command s.cmd) = .ok (.yay0 b) ∨ decode (.command s.cmd) = .ok (.swap16 b)

/-- The completions with an error that a step of the block can lead to from `s`, refining `BlockNext.raises` by the command
in flight: what becomes of OUT depends on `LosesOut`, and RESULT is written for ChecksumMismatch alone. -/
inductive ErrorNext (s : State) : ErrKind → State → Prop where
  /-- OUT is not at stake -/
  | kept {e : ErrKind} (he : e ≠ .checksumMismatch) (hout : ¬s.LosesOut) : ErrorNext s e (s.raise e .kept)
  /-- OUT_LEN is cleared, and the bytes of OUT are unwritten or unspecified -/
  | lost {e : ErrKind} {o : OutEffect} (he : e ≠ .checksumMismatch) (ho : o ≠ .kept) (hout : s.LosesOut) :
      ErrorNext s e (s.raise e o)
  /-- CRCCHK leaves the CRC it computed (R146) -/
  | mismatch {b : Buf} (hd : decode (.command s.cmd) = .ok (.crcchk b false)) :
      ErrorNext s .checksumMismatch
        ((s.withResult (zext64 (crc32 (s.bytes b s.pos.toNat s.len.toNat)))).raise .checksumMismatch .kept)

/-- Whatever error `r` ends in, it is one of those completions. -/
def ErrsAs (s : State) (r : Result) : Prop :=
  ∀ (t : State) (e : ErrKind), r = .next t → t.errcode = some e → ErrorNext s e t

section
variable {s t : State} {e : ErrKind} {i : Instr} {b : Buf}

theorem not_losesOut_of_operands (h : s.operandsOk = false) : ¬s.LosesOut := by
  rintro ⟨hs, -⟩
  simp [h] at hs

theorem not_losesOut_of_reject {r : Reject} (h : decode (.command s.cmd) = .error r) : ¬s.LosesOut := by
  rintro ⟨-, b, hd | hd⟩ <;> simp [h] at hd

theorem not_losesOut_of_decode (hd : decode (.command s.cmd) = .ok i) (hi : ∀ b, i ≠ .yay0 b ∧ i ≠ .swap16 b) :
    ¬s.LosesOut := by
  rintro ⟨-, b, hd' | hd'⟩
  · exact (hi b).1 (Except.ok.inj (hd.symm.trans hd'))
  · exact (hi b).2 (Except.ok.inj (hd.symm.trans hd'))

theorem ErrorNext.errcode (h : ErrorNext s e t) : t.errcode = some e := by
  cases h <;> rfl

/-- Every completion with an error goes through the one exception entry (R233), RESULT written before it at most. -/
theorem ErrorNext.exists_raise (h : ErrorNext s e t) : ∃ result o, t = (s.withResult result).raise e o := by
  cases h with
  | kept => exact ⟨s.result, .kept, rfl⟩
  | lost => exact ⟨s.result, _, rfl⟩
  | mismatch => exact ⟨_, .kept, rfl⟩

theorem State.withSeq_bytes (s : State) (q : Sequencer) (b : Buf) (a n : Nat) :
    (s.withSeq q).bytes b a n = s.bytes b a n :=
  State.bytes_congr fun i _ _ => s.withSeq_byte q b i

/-- A step of the block may start from another value of the sequencer, as it does after a control word was read (R165). -/
theorem ErrorNext.of_withSeq {q : Sequencer} (h : ErrorNext (s.withSeq q) e t) : ErrorNext s e t := by
  cases h with
  | kept he hout => exact s.raise_withSeq q e .kept ▸ .kept he hout
  | lost he ho hout => exact s.raise_withSeq q e _ ▸ .lost he ho hout
  | mismatch hd =>
    rw [State.withSeq_bytes]
    exact (s.withResult _).raise_withSeq q _ _ ▸ .mismatch hd

theorem ErrsAs.of_withSeq {q : Sequencer} {r : Result} (h : ErrsAs (s.withSeq q) r) : ErrsAs s r :=
  fun t e hr he => (h t e hr he).of_withSeq

theorem ErrsAs.of_error (h : ErrorNext s e t) : ErrsAs s (.next t) := by
  intro t' e' hr he
  cases hr
  cases h.errcode.symm.trans he
  exact h

theorem ErrsAs.of_no_error (h : t.errcode = none) : ErrsAs s (.next t) := by
  intro t' e' hr he
  cases hr
  simp [h] at he

theorem ErrsAs.of_refused {r : Refusal} : ErrsAs s (.refused r) := by
  rintro t e ⟨⟩

/-- A command that fails the common operand check leaves OUT (R233); past it, only the command's own steps matter. -/
theorem ErrsAs.of_checked {own : Result} (hd : decode (.command s.cmd) = .ok i)
    (hown : s.operandsOk = true → ErrsAs s own) : ErrsAs s (s.checked i own) := by
  obtain ⟨-, hs, hc⟩ | ⟨hbad, hc⟩ := s.checked_cases i own
  · rw [hc]
    exact hown hs
  · obtain ⟨hwf, -⟩ := wellFormed_and_encode_of_decode hd
    have hs : s.operandsOk = false := by simpa [hwf] using hbad
    rw [hc]
    exact .of_error (.kept nofun (not_losesOut_of_operands hs))

/-- A failing read of a command that does not write OUT (R66). -/
theorem ErrorNext.of_memRead {a n : Nat} (hr : s.memRead b a n = .error e) (hout : ¬s.LosesOut) :
    ErrorNext s e (s.raise e .kept) := by
  obtain ⟨-, rfl⟩ := State.memRead_error_iff.1 hr
  exact .kept nofun hout

/-- The header fails in one of its reads, in the magic check, or in the capacity check (R161, R162). -/
theorem State.yay0Header_error (h : s.yay0Header b = .error e) :
    e = .truncatedInput ∨ e = .malformedHeader ∨ e = .boundsViolation := by
  unfold State.yay0Header at h
  dsimp only at h
  split at h
  · next hm =>
    cases h
    exact .inl (State.memRead_error_iff.1 hm).2
  · split at h
    · cases h
      exact .inr (.inl rfl)
    · split at h
      · next hm =>
        cases h
        exact .inl (State.memRead_error_iff.1 hm).2
      · split_ifs at h
        cases h
        exact .inr (.inr rfl)

theorem Yay0Seq.outEffect_ne_kept (q : Yay0Seq) : q.outEffect ≠ .kept := by
  unfold Yay0Seq.outEffect
  split <;> nofun

theorem State.yay0Go_errcode (s : State) (b : Buf) (q : Yay0Seq) (h : s.errcode = none) :
    (s.yay0Go b q).errcode = none := by
  obtain ⟨-, hgo⟩ | ⟨-, hgo⟩ := s.yay0Go_cases b q
  · simp [hgo, h]
  · simp [hgo]

/-! ### The errors of each command, and of its stream -/

theorem errsAs_execNop (hd : decode (.command s.cmd) = .ok .nop) : ErrsAs s (execNop s) :=
  .of_checked hd fun _ => .of_no_error rfl

theorem errsAs_execCrc (hd : decode (.command s.cmd) = .ok (.crc b)) : ErrsAs s (execCrc b s) := by
  refine .of_checked hd fun _ => ?_
  split
  · next hr => exact .of_error (.of_memRead hr (not_losesOut_of_decode hd fun _ => ⟨nofun, nofun⟩))
  · exact .of_no_error rfl

theorem errsAs_execCrcchk {ign : Bool} (hd : decode (.command s.cmd) = .ok (.crcchk b ign)) :
    ErrsAs s (execCrcchk b ign s) := by
  refine .of_checked hd fun _ => ?_
  split
  · next hr => exact .of_error (.of_memRead hr (not_losesOut_of_decode hd fun _ => ⟨nofun, nofun⟩))
  · next hr =>
    obtain ⟨-, rfl⟩ := State.memRead_ok_iff.1 hr
    dsimp only
    split
    · next hc =>
      obtain ⟨-, rfl⟩ := hc
      exact .of_error (.mismatch hd)
    · exact .of_no_error rfl

theorem errsAs_execYay0 (hn : s.errcode = none) (hd : decode (.command s.cmd) = .ok (.yay0 b)) :
    ErrsAs s (execYay0 b s) := by
  refine .of_checked hd fun hs => ?_
  split
  · next e hh =>
    have hne : e ≠ .checksumMismatch := by
      obtain rfl | rfl | rfl := State.yay0Header_error hh <;> nofun
    exact .of_error (.lost hne nofun ⟨hs, b, .inl hd⟩)
  · exact .of_no_error (s.yay0Go_errcode b _ hn)

theorem errsAs_execVaru (hn : s.errcode = none) (hd : decode (.command s.cmd) = .ok (.varu b)) :
    ErrsAs s (execVaru b s) :=
  .of_checked hd fun _ => .of_no_error hn

theorem errsAs_execVars (hn : s.errcode = none) (hd : decode (.command s.cmd) = .ok (.vars b)) :
    ErrsAs s (execVars b s) :=
  .of_checked hd fun _ => .of_no_error hn

theorem errsAs_execSwap16 (hd : decode (.command s.cmd) = .ok (.swap16 b)) : ErrsAs s (execSwap16 b s) := by
  refine .of_checked hd fun hs => ?_
  have hout : s.LosesOut := ⟨hs, b, .inr hd⟩
  dsimp only
  split_ifs
  · exact .of_error (.lost nofun nofun hout)
  · exact .of_error (.lost nofun nofun hout)
  · exact .of_error (.lost nofun nofun hout)
  · exact .of_no_error rfl

theorem errsAs_execRd {be : Bool} {n : BitVec 4} (hd : decode (.command s.cmd) = .ok (.rd b be n)) :
    ErrsAs s (execRd b be n s) := by
  refine .of_checked hd fun _ => ?_
  split
  · next hr => exact .of_error (.of_memRead hr (not_losesOut_of_decode hd fun _ => ⟨nofun, nofun⟩))
  · exact .of_no_error rfl

theorem errsAs_exec_command (hn : s.errcode = none) (hd : decode (.command s.cmd) = .ok i) : ErrsAs s (exec i s) := by
  cases i with
  | nop => exact errsAs_execNop hd
  | crc => exact errsAs_execCrc hd
  | crcchk => exact errsAs_execCrcchk hd
  | yay0 => exact errsAs_execYay0 hn hd
  | varu => exact errsAs_execVaru hn hd
  | vars => exact errsAs_execVars hn hd
  | swap16 => exact errsAs_execSwap16 hd
  | rd => exact errsAs_execRd hd
  | lit | copy | lcopy | vbCont | vbEnd => cases decodeCommand_isCommand hd

theorem errsAs_yay0Copy (hn : s.errcode = none) (hout : s.LosesOut) (q : Yay0Seq) (n d : Nat) :
    ErrsAs s (.next (s.yay0Copy b q n d)) := by
  obtain ⟨-, h⟩ | ⟨-, -, h⟩ | ⟨-, -, m, -, h⟩ := s.yay0Copy_cases b q n d
  · exact h ▸ .of_error (.lost nofun q.outEffect_ne_kept hout)
  · exact h ▸ .of_error (.lost nofun nofun hout)
  · exact h ▸ .of_no_error ((s.withMem .out m).yay0Go_errcode b _ hn)

theorem errsAs_execLit (hn : s.errcode = none) (k : Byte) : ErrsAs s (execLit k s) := by
  unfold execLit
  split
  · exact .of_no_error (State.yay0Go_errcode _ _ _ hn)
  · exact .of_refused

theorem errsAs_execCopy (hn : s.errcode = none) (hout : s.LosesOut) (f : BitVec 4) (d : BitVec 12) :
    ErrsAs s (execCopy f d s) := by
  unfold execCopy
  split
  · exact errsAs_yay0Copy hn hout _ _ _
  · exact .of_refused

theorem errsAs_execLcopy (hn : s.errcode = none) (hout : s.LosesOut) (d : BitVec 12) (x : Byte) :
    ErrsAs s (execLcopy d x s) := by
  unfold execLcopy
  split
  · exact errsAs_yay0Copy hn hout _ _ _
  · exact .of_refused

theorem errsAs_execVbCont (hn : s.errcode = none) (hout : ¬s.LosesOut) (v : BitVec 7) : ErrsAs s (execVbCont v s) := by
  unfold execVbCont
  split
  · dsimp only
    split_ifs
    · exact .of_error (.kept nofun hout)
    · exact .of_error (.kept nofun hout)
    · exact .of_no_error hn
  · exact .of_refused

theorem errsAs_execVbEnd (hout : ¬s.LosesOut) (v : BitVec 7) : ErrsAs s (execVbEnd v s) := by
  unfold execVbEnd
  split
  · dsimp only
    split_ifs
    · exact .of_error (.kept nofun hout)
    · exact .of_no_error rfl
  · exact .of_refused

/-! ### The errors of a step of the block -/

/-- The command of a Yay0 stream in flight is YAY0, past its checks (R41). -/
theorem State.Inv.losesOut_of_yay0 {q : Yay0Seq} (hs : s.Inv) (hq : s.seq = .yay0 b q) : s.LosesOut := by
  have hseq := hs.seqOk
  simp only [State.SeqOk, hq] at hseq
  obtain ⟨-, hok, hd, -⟩ := hseq
  exact ⟨hok, b, .inl hd⟩

/-- The command of a varint in flight is VARU or VARS (R42). -/
theorem State.Inv.not_losesOut_of_varint {signed : Bool} {q : VarintSeq} (hs : s.Inv) (hq : s.seq = .varint signed b q) :
    ¬s.LosesOut := by
  have hseq := hs.seqOk
  simp only [State.SeqOk, hq] at hseq
  obtain ⟨-, -, hd, -⟩ := hseq
  cases signed
  · exact not_losesOut_of_decode hd fun _ => ⟨nofun, nofun⟩
  · exact not_losesOut_of_decode hd fun _ => ⟨nofun, nofun⟩

/-- While a command is in flight no error stands in ERRCODE (R33). -/
theorem State.Inv.errcode_of_busy (hs : s.Inv) (hb : s.busy = true) : s.errcode = none := by
  obtain ⟨-, herr, -⟩ := hs.busyFlags hb
  simpa [herr] using hs.errIff

theorem errsAs_blockStep_yay0 {q : Yay0Seq} (hn : s.errcode = none) (hout : s.LosesOut) (hq : s.seq = .yay0 b q) :
    ErrsAs s (blockStep s) := by
  obtain ⟨e, hf, hstep⟩ | ⟨c, q', i, hf, hd, hstep⟩ := blockStep_yay0 hq
  · rw [hstep]
    cases State.yay0Fetch_error hf
    exact .of_error (.lost nofun q.outEffect_ne_kept hout)
  · rw [hstep]
    refine .of_withSeq (q := .yay0 b q') ?_
    obtain ⟨k, hk⟩ | ⟨f, d, -, hk⟩ | ⟨d, x, hk⟩ := State.yay0Fetch_decodes hf <;> cases hd.symm.trans hk
    · exact errsAs_execLit (s := s.withSeq (.yay0 b q')) hn k
    · exact errsAs_execCopy (s := s.withSeq (.yay0 b q')) hn hout f d
    · exact errsAs_execLcopy (s := s.withSeq (.yay0 b q')) hn hout d x

theorem errsAs_blockStep_varint {signed : Bool} {q : VarintSeq} (hn : s.errcode = none) (hout : ¬s.LosesOut)
    (hq : s.seq = .varint signed b q) : ErrsAs s (blockStep s) := by
  obtain ⟨-, hstep⟩ | ⟨-, hstep⟩ := blockStep_varint hq
  · exact hstep ▸ .of_error (.kept nofun hout)
  · rw [hstep]
    unfold decodeVarintByte
    split
    · exact errsAs_execVbEnd hout _
    · exact errsAs_execVbCont hn hout _

/-- In a sound state with a command in flight, every error is one of the completions of `ErrorNext`. -/
theorem errsAs_blockStep (hs : s.Inv) (hb : s.busy = true) : ErrsAs s (blockStep s) := by
  have hn := hs.errcode_of_busy hb
  cases hq : s.seq with
  | idle => exact blockStep_idle hq ▸ .of_no_error hn
  | issued =>
    cases hd : decode (.command s.cmd) with
    | ok i => exact blockStep_issued hq hd ▸ errsAs_exec_command hn hd
    | error r => exact blockStep_illegal hq hd ▸ .of_error (.kept nofun (not_losesOut_of_reject hd))
  | yay0 b q => exact errsAs_blockStep_yay0 hn (hs.losesOut_of_yay0 hq) hq
  | varint signed b q => exact errsAs_blockStep_varint hn (hs.not_losesOut_of_varint hq) hq

/-! ### What each part of the state holds after an error -/

theorem errWord_some_toNat (e : ErrKind) : (errWord (some e)).toNat = e.code := by
  cases e <;> rfl

theorem ErrorNext.failed (h : ErrorNext s e t) : Failed t e := by
  obtain ⟨result, o, rfl⟩ := h.exists_raise
  simp [Failed]

theorem ErrorNext.reg_errcode (h : ErrorNext s e t) : (t.reg .errcode).toNat = e.code := by
  rw [State.reg, h.errcode, errWord_some_toNat]

theorem ErrorNext.sameSetup (h : ErrorNext s e t) : SameSetup s t := by
  obtain ⟨result, o, rfl⟩ := h.exists_raise
  simp [SameSetup]

theorem ErrorNext.sameOutside (h : ErrorNext s e t) : SameOutside s t := by
  obtain ⟨result, o, rfl⟩ := h.exists_raise
  simp [SameOutside]

theorem ErrorNext.pos (h : ErrorNext s e t) : t.pos = s.pos := by
  obtain ⟨result, o, rfl⟩ := h.exists_raise
  simp

theorem ErrorNext.inputs (h : ErrorNext s e t) : t.src = s.src ∧ t.pat = s.pat := by
  obtain ⟨result, o, rfl⟩ := h.exists_raise
  simp

theorem ErrorNext.result (h : ErrorNext s e t) (he : e ≠ .checksumMismatch) : t.result = s.result := by
  cases h with
  | kept => simp
  | lost => simp
  | mismatch => exact absurd rfl he

theorem ErrorNext.result_of_mismatch (h : ErrorNext s .checksumMismatch t) :
    ∃ b, decode (.command s.cmd) = .ok (.crcchk b false) ∧
      t.result = zext64 (crc32 (s.bytes b s.pos.toNat s.len.toNat)) := by
  cases h with
  | kept he => exact absurd rfl he
  | lost he => exact absurd rfl he
  | mismatch hd => exact ⟨_, hd, by simp⟩

theorem ErrorNext.out_kept (h : ErrorNext s e t) (hout : ¬s.LosesOut) : t.outLen = s.outLen ∧ t.out = s.out := by
  cases h with
  | kept => simp
  | lost _ _ hlost => exact absurd hlost hout
  | mismatch => simp

theorem ErrorNext.out_lost (h : ErrorNext s e t) (hout : s.LosesOut) :
    t.outLen = 0 ∧ ∀ a, s.outCap.toNat ≤ a → t.byte .out a = s.byte .out a := by
  cases h with
  | kept _ hkept => exact absurd hout hkept
  | @lost e o _ ho _ =>
    refine ⟨?_, fun a ha => s.raise_byte_out_above e o ha⟩
    cases o with
    | kept => exact absurd rfl ho
    | emptied => rfl
    | voided => rfl
  | mismatch hd => exact absurd hout (not_losesOut_of_decode hd fun _ => ⟨nofun, nofun⟩)

end

/-- Settles O55: the step is one of the completions of `ErrorNext`, by the command in flight; the clauses read the parts of
the state off them. -/
theorem errorCompletion : Obligations.ErrorCompletion := by
  intro s t e hs hh hb hstep he
  have h : ErrorNext s e t := errsAs_blockStep hs hb t e ((step_of_host_nil hh).symm.trans hstep) he
  obtain ⟨hsrc, hpat⟩ := h.inputs
  refine ⟨h.failed, h.reg_errcode, h.sameSetup, h.sameOutside, h.pos, h.result, ?mismatch, hsrc, hpat, ?kept, ?lost⟩
  case mismatch =>
    rintro rfl
    obtain ⟨b, hd, hresult⟩ := h.result_of_mismatch
    exact ⟨b, hd, hresult.trans (zext64_eq_ofNat _)⟩
  case kept =>
    rintro (hd | hok)
    · refine h.out_kept ?_
      rintro ⟨-, b, hyay0 | hswap16⟩
      · exact (hd b).1 hyay0
      · exact (hd b).2 hswap16
    · exact h.out_kept (not_losesOut_of_operands hok)
  case lost =>
    intro hd hok
    exact h.out_lost ⟨hok, hd⟩

end Sys2Proof.Machine


/-! PROOFS. The encodings: the words written out from the spec (R106), and the inverses between `decode` and `encode` for
every code (R92, R98, R100). -/

namespace Sys2Proof.Machine

/-! ### The Yay0 operations and the varint bytes -/

theorem decode_encode_copy {f : BitVec 4} {d : BitVec 12} (hf : f ≠ 0) : decode (encode (.copy f d)) = .ok (.copy f d) := by
  obtain ⟨p0, p1, hbytes, hpair⟩ := pairOf_pairBytes f d
  simp only [encode, decode, hbytes, decodeYay0Op, hpair, pairF_of, pairD_of]
  exact if_pos hf

theorem decode_encode_lcopy (d : BitVec 12) (e : Byte) : decode (encode (.lcopy d e)) = .ok (.lcopy d e) := by
  obtain ⟨p0, p1, hbytes, hpair⟩ := pairOf_pairBytes 0 d
  simp only [encode, decode, hbytes, decodeYay0Op, hpair, pairF_of, pairD_of]
  rfl

theorem decode_encode_vbCont (v : BitVec 7) : decode (encode (.vbCont v)) = .ok (.vbCont v) := by
  have hv := v.isLt
  have hx : (BitVec.ofNat 8 v.toNat).toNat = v.toNat := by rw [BitVec.toNat_ofNat]; omega
  have hbits : (BitVec.ofNat 8 v.toNat).extractLsb' 0 7 = v :=
    BitVec.eq_of_toNat_eq (by rw [varintByte_value, hx]; omega)
  simp only [encode, decode, decodeVarintByte, varintByte_bit7, hx, hbits]
  simp [hv]

theorem decode_encode_vbEnd (v : BitVec 7) : decode (encode (.vbEnd v)) = .ok (.vbEnd v) := by
  have hv := v.isLt
  have hx : (BitVec.ofNat 8 (128 + v.toNat)).toNat = 128 + v.toNat := by rw [BitVec.toNat_ofNat]; omega
  have hbits : (BitVec.ofNat 8 (128 + v.toNat)).extractLsb' 0 7 = v :=
    BitVec.eq_of_toNat_eq (by rw [varintByte_value, hx]; omega)
  simp only [encode, decode, decodeVarintByte, varintByte_bit7, hx, hbits]
  simp

theorem decode_encode {i : Instr} (hw : i.wellFormed = true) : decode (encode i) = .ok i := by
  cases i with
  | nop | crc | crcchk | yay0 | varu | vars | swap16 | rd => exact decode_encode_of_isCommand rfl hw
  | lit k => rfl
  | copy f d => exact decode_encode_copy (by simpa [Instr.wellFormed] using hw)
  | lcopy d e => exact decode_encode_lcopy d e
  | vbCont v => exact decode_encode_vbCont v
  | vbEnd v => exact decode_encode_vbEnd v

theorem encode_of_decodeYay0Op {bit : Bool} {pair chunk : List Byte} {i : Instr}
    (h : decodeYay0Op bit pair chunk = .ok i) : i.wellFormed = true ∧ encode i = .yay0Op bit pair chunk := by
  unfold decodeYay0Op at h
  split at h
  · cases h
    exact ⟨rfl, rfl⟩
  · next p0 p1 =>
    dsimp only at h
    split_ifs at h with hf
    cases h
    exact ⟨by simpa [Instr.wellFormed] using hf, by simp only [encode, pairBytes_fields]⟩
  · next p0 p1 e =>
    dsimp only at h
    split_ifs at h with hf
    cases h
    exact ⟨rfl, by rw [encode, ← hf, pairBytes_fields]⟩
  · cases h

theorem wellFormed_decodeVarintByte (x : Byte) : (decodeVarintByte x).wellFormed = true := by
  unfold decodeVarintByte
  split <;> rfl

theorem encode_decodeVarintByte (x : Byte) : encode (decodeVarintByte x) = .varintByte x := by
  have hx := x.isLt
  unfold decodeVarintByte
  rw [varintByte_bit7]
  split
  · next h =>
    have h128 : 128 ≤ x.toNat := of_decide_eq_true h
    refine congrArg Code.varintByte (BitVec.eq_of_toNat_eq ?_)
    rw [BitVec.toNat_ofNat, varintByte_value]
    omega
  · next h =>
    have h128 : ¬128 ≤ x.toNat := fun hle => h (decide_eq_true hle)
    refine congrArg Code.varintByte (BitVec.eq_of_toNat_eq ?_)
    rw [BitVec.toNat_ofNat, varintByte_value]
    omega

theorem decode_of_encode {c : Code} {i : Instr} (hw : i.wellFormed = true) (he : encode i = c) : decode c = .ok i :=
  he ▸ decode_encode hw

/-! ### The obligations -/

/-- Settles O2: the inverse on each of the thirteen forms. -/
theorem decodeReadsEncode : Obligations.DecodeReadsEncode := fun _ hw => decode_encode hw

/-- Settles O3: by the three kinds of code. -/
theorem decodedIsItsEncoding : Obligations.DecodedIsItsEncoding := by
  intro c i h
  cases c with
  | command w => exact wellFormed_and_encode_of_decode h
  | yay0Op bit pair chunk => exact encode_of_decodeYay0Op h
  | varintByte x =>
    cases h
    exact ⟨wellFormed_decodeVarintByte x, encode_decodeVarintByte x⟩

/-- Settles O1: each code is the encoding of its instruction. -/
theorem specWordsDecode : Obligations.SpecWordsDecode :=
  ⟨decode_of_encode rfl rfl, decode_of_encode rfl rfl, decode_of_encode rfl rfl, decode_of_encode rfl rfl,
    decode_of_encode rfl rfl, decode_of_encode rfl rfl, decode_of_encode rfl rfl, decode_of_encode rfl rfl,
    decode_of_encode rfl rfl, decode_of_encode rfl rfl, decode_of_encode rfl rfl, decode_of_encode rfl rfl,
    decode_of_encode rfl rfl, decode_of_encode rfl rfl⟩

end Sys2Proof.Machine


/-! PROOFS. The fetch and the step: which instruction the block runs (R98, R121, R165, R190), and that it always runs to a next
state (R230). -/

namespace Sys2Proof.Machine

/-! ### The fetch of a Yay0 operation -/

section
variable {s : State} {b : Buf} {q : Yay0Seq}

theorem State.yay0Refill_of_bits (hcb : q.cb ≠ 0) : s.yay0Refill b q = .ok q := if_neg hcb

/-- A control word is read when none is left (R165). -/
theorem State.yay0Refill_of_no_bit (hcb : q.cb = 0) (hle : q.cp + 4 ≤ s.bufLen b) :
    s.yay0Refill b q = .ok { q with cw := be32 (s.bytes b q.cp 4), cp := q.cp + 4, cb := 32 } := by
  simp only [State.yay0Refill, if_pos hcb, State.memRead_of_le hle]

theorem State.yay0Refill_of_truncated (hcb : q.cb = 0) (hlt : s.bufLen b < q.cp + 4) :
    s.yay0Refill b q = .error .truncatedInput := by
  simp only [State.yay0Refill, if_pos hcb, State.memRead_of_lt hlt]

/-- What is fetched once a control bit is there: by the bit, the pair and the readable length. -/
theorem State.yay0Fetch_of_refill {q' : Yay0Seq} (h : s.yay0Refill b q = .ok q') :
    s.yay0Fetch b q =
      if q'.cw.getLsbD 31 then
        if s.bufLen b < q'.kp + 1 then .error .truncatedInput
        else .ok (.yay0Op true [] [s.byte b q'.kp], q')
      else if s.bufLen b < q'.pp + 2 then .error .truncatedInput
      else if pairOf (s.byte b q'.pp) (s.byte b (q'.pp + 1)) / 4096 = 0 then
        if s.bufLen b < q'.kp + 1 then .error .truncatedInput
        else .ok (.yay0Op false [s.byte b q'.pp, s.byte b (q'.pp + 1)] [s.byte b q'.kp], q')
      else .ok (.yay0Op false [s.byte b q'.pp, s.byte b (q'.pp + 1)] [], q') := by
  have hpair : beNat [s.byte b q'.pp, s.byte b (q'.pp + 1)] = pairOf (s.byte b q'.pp) (s.byte b (q'.pp + 1)) :=
    beNat_two _ _
  simp only [State.yay0Fetch, h, State.memRead, State.bytes]
  by_cases hkp : s.bufLen b < q'.kp + 1 <;> by_cases hpp : s.bufLen b < q'.pp + 2
  · simp only [if_pos hkp, if_pos hpp]
  · simp only [if_pos hkp, if_neg hpp, hpair]
  · simp only [if_neg hkp, if_pos hpp]
  · simp only [if_neg hkp, if_neg hpp, hpair]

end

/-! ### What a stream operation decodes to -/

theorem decode_lit (k : Byte) : decode (.yay0Op true [] [k]) = .ok (.lit k) := rfl

theorem pairF_eq_zero_iff (p0 p1 : Byte) : pairF (pairOf p0 p1) = 0 ↔ pairOf p0 p1 / 4096 = 0 := by
  have hp := pairOf_lt p0 p1
  rw [← BitVec.toNat_inj, pairF, BitVec.toNat_ofNat, show (0 : BitVec 4).toNat = 0 from rfl]
  omega

theorem decode_copy_of_pair {p0 p1 : Byte} (h : pairOf p0 p1 / 4096 ≠ 0) :
    decode (.yay0Op false [p0, p1] []) = .ok (.copy (pairF (pairOf p0 p1)) (pairD (pairOf p0 p1))) :=
  if_pos (mt (pairF_eq_zero_iff p0 p1).1 h)

theorem decode_lcopy_of_pair {p0 p1 : Byte} (e : Byte) (h : pairOf p0 p1 / 4096 = 0) :
    decode (.yay0Op false [p0, p1] [e]) = .ok (.lcopy (pairD (pairOf p0 p1)) e) :=
  if_pos ((pairF_eq_zero_iff p0 p1).2 h)

/-! ### The step of a stream in flight -/

theorem blockStep_yay0_of_fetch {s : State} {b : Buf} {q q' : Yay0Seq} {c : Code} {i : Instr} (hq : s.seq = .yay0 b q)
    (hf : s.yay0Fetch b q = .ok (c, q')) (hd : decode c = .ok i) : blockStep s = exec i (s.withSeq (.yay0 b q')) := by
  simp [blockStep, State.fetch, hq, hf, hd]

theorem blockStep_yay0_of_error {s : State} {b : Buf} {q : Yay0Seq} {e : ErrKind} (hq : s.seq = .yay0 b q)
    (hf : s.yay0Fetch b q = .error e) : blockStep s = .next (s.raise e q.outEffect) := by
  simp [blockStep, State.fetch, hq, hf]

theorem blockStep_varint_of_byte {s : State} {signed : Bool} {b : Buf} {q : VarintSeq} (hq : s.seq = .varint signed b q)
    (hle : q.p + 1 ≤ s.bufLen b) : blockStep s = exec (decodeVarintByte (s.byte b q.p)) s := by
  obtain ⟨hlt, -⟩ | ⟨-, hstep⟩ := blockStep_varint hq
  · omega
  · exact hstep

theorem blockStep_varint_of_truncated {s : State} {signed : Bool} {b : Buf} {q : VarintSeq}
    (hq : s.seq = .varint signed b q) (hlt : s.bufLen b < q.p + 1) :
    blockStep s = .next (s.raise .truncatedInput .kept) := by
  obtain ⟨-, hstep⟩ | ⟨hle, -⟩ := blockStep_varint hq
  · exact hstep
  · omega

/-! ### Every instruction the block runs gives a next state -/

theorem State.checked_next {s : State} {i : Instr} {own : Result} (h : ∃ t, own = .next t) :
    ∃ t, s.checked i own = .next t := by
  obtain ⟨-, -, hc⟩ | ⟨-, hc⟩ := s.checked_cases i own
  · exact hc.symm ▸ h
  · exact ⟨_, hc⟩

theorem exec_command_next {i : Instr} (hc : i.isCommand = true) (s : State) : ∃ t, exec i s = .next t := by
  cases i with
  | nop => exact State.checked_next ⟨_, rfl⟩
  | crc b => refine State.checked_next ?_; split <;> exact ⟨_, rfl⟩
  | crcchk b ign =>
    refine State.checked_next ?_
    split
    · exact ⟨_, rfl⟩
    · dsimp only
      split <;> exact ⟨_, rfl⟩
  | yay0 b => refine State.checked_next ?_; split <;> exact ⟨_, rfl⟩
  | varu b => exact State.checked_next ⟨_, rfl⟩
  | vars b => exact State.checked_next ⟨_, rfl⟩
  | swap16 b => refine State.checked_next ?_; split_ifs <;> exact ⟨_, rfl⟩
  | rd b be n => refine State.checked_next ?_; split <;> exact ⟨_, rfl⟩
  | lit | copy | lcopy | vbCont | vbEnd => cases hc

/-- LIT, COPY and LCOPY, the operations of a Yay0 stream (R98). -/
def IsYay0Op (i : Instr) : Prop := (∃ k, i = .lit k) ∨ (∃ f d, i = .copy f d) ∨ ∃ d e, i = .lcopy d e

/-- VB.CONT and VB.END, the bytes of a varint (R100). -/
def IsVarintByte (i : Instr) : Prop := (∃ v, i = .vbCont v) ∨ ∃ v, i = .vbEnd v

theorem exec_yay0Op_next {i : Instr} {s : State} {b : Buf} {q : Yay0Seq} (hi : IsYay0Op i) (hq : s.seq = .yay0 b q) :
    ∃ t, exec i s = .next t := by
  obtain ⟨k, rfl⟩ | ⟨f, d, rfl⟩ | ⟨d, e, rfl⟩ := hi
  · simp [exec, execLit, hq]
  · simp [exec, execCopy, hq]
  · simp [exec, execLcopy, hq]

theorem exec_yay0Op_refused {i : Instr} {s : State} (hi : IsYay0Op i) (hq : ∀ b q, s.seq ≠ .yay0 b q) :
    exec i s = .refused .noStream := by
  obtain ⟨k, rfl⟩ | ⟨f, d, rfl⟩ | ⟨d, e, rfl⟩ := hi <;> simp only [exec, execLit, execCopy, execLcopy]

theorem exec_varintByte_next {i : Instr} {s : State} {signed : Bool} {b : Buf} {q : VarintSeq} (hi : IsVarintByte i)
    (hq : s.seq = .varint signed b q) : ∃ t, exec i s = .next t := by
  obtain ⟨v, rfl⟩ | ⟨v, rfl⟩ := hi <;> simp only [exec, execVbCont, execVbEnd, hq] <;> split_ifs <;> exact ⟨_, rfl⟩

theorem exec_varintByte_refused {i : Instr} {s : State} (hi : IsVarintByte i)
    (hq : ∀ g b q, s.seq ≠ .varint g b q) : exec i s = .refused .noStream := by
  obtain ⟨v, rfl⟩ | ⟨v, rfl⟩ := hi <;> simp only [exec, execVbCont, execVbEnd]

theorem isVarintByte_decodeVarintByte (x : Byte) : IsVarintByte (decodeVarintByte x) := by
  unfold decodeVarintByte
  split
  · exact .inr ⟨_, rfl⟩
  · exact .inl ⟨_, rfl⟩

theorem isYay0Op_of_fetch {s : State} {b : Buf} {q q' : Yay0Seq} {c : Code} {i : Instr}
    (hf : s.yay0Fetch b q = .ok (c, q')) (hd : decode c = .ok i) : IsYay0Op i := by
  obtain ⟨k, h⟩ | ⟨f, d, -, h⟩ | ⟨d, e, h⟩ := State.yay0Fetch_decodes hf <;> cases hd.symm.trans h
  · exact .inl ⟨_, rfl⟩
  · exact .inr (.inl ⟨_, _, rfl⟩)
  · exact .inr (.inr ⟨_, _, rfl⟩)

theorem blockStep_next (s : State) : ∃ t, blockStep s = .next t := by
  cases hq : s.seq with
  | idle => exact ⟨s, blockStep_idle hq⟩
  | issued =>
    cases hd : decode (.command s.cmd) with
    | ok i => exact blockStep_issued hq hd ▸ exec_command_next (decodeCommand_isCommand hd) s
    | error r => exact ⟨_, blockStep_illegal hq hd⟩
  | yay0 b q =>
    obtain ⟨e, -, h⟩ | ⟨c, q', i, hf, hd, h⟩ := blockStep_yay0 hq
    · exact ⟨_, h⟩
    · exact h ▸ exec_yay0Op_next (isYay0Op_of_fetch hf hd) rfl
  | varint signed b q =>
    obtain ⟨-, h⟩ | ⟨-, h⟩ := blockStep_varint hq
    · exact ⟨_, h⟩
    · exact h ▸ exec_varintByte_next (isVarintByte_decodeVarintByte _) hq

/-! ### An instruction placed by `withFetchWord` -/

section
variable {s : State} {i : Instr}

@[simp] theorem State.place_rst (s : State) (c : Code) : (s.place c).rst = false := by
  cases c <;> rfl

@[simp] theorem State.place_host (s : State) (c : Code) : (s.place c).host = [] := by
  cases c <;> rfl

theorem blockStep_place_command {w : Word} (hd : decode (.command w) = .ok i) :
    blockStep (s.place (.command w)) = exec i (s.place (.command w)) := blockStep_issued rfl hd

/-- The one readable byte of SRC is the one placed at offset 0. -/
theorem blockStep_place_varintByte {x : Byte} (hd : decode (.varintByte x) = .ok i) :
    blockStep (s.place (.varintByte x)) = exec i (s.place (.varintByte x)) := by
  have hbyte : (s.place (.varintByte x)).byte .src 0 = x := Memory.byteAt_write_same _ _ _ _
  have hlen : (s.place (.varintByte x)).bufLen .src = 1 := rfl
  rw [blockStep_varint_of_byte (signed := false) (b := .src) (q := { p := 0, data := 0, shift := 1 }) rfl hlen.ge, hbyte]
  cases hd
  rfl

/-- The sequencer `placeYay0Op` starts from: one control bit left, and neither distance nor length out of range. -/
def placedSeq (bit : Bool) : Yay0Seq :=
  { size := 8192, cp := 3, cw := if bit then 0x80000000 else 0, cb := 1, pp := 0, kp := 2, op := 4096 }

theorem placedSeq_bit (bit : Bool) : (placedSeq bit).cw.getLsbD 31 = bit := by cases bit <;> decide

theorem place_yay0Op_chunk (bit : Bool) (pair : List Byte) (x : Byte) :
    (s.place (.yay0Op bit pair [x])).byte .src 2 = x := Memory.byteAt_write_same _ _ _ _

theorem place_yay0Op_pair (bit : Bool) (p0 p1 : Byte) (chunk : List Byte) :
    (s.place (.yay0Op bit [p0, p1] chunk)).byte .src 0 = p0 ∧ (s.place (.yay0Op bit [p0, p1] chunk)).byte .src 1 = p1 := by
  have hbelow (a : Nat) (ha : a < 2) : (s.place (.yay0Op bit [p0, p1] chunk)).byte .src a =
      (s.src.writeAll 0 [p0, p1]).byteAt .src a := Memory.byteAt_writeAll_outside _ _ _ _ (.inl ha)
  rw [hbelow 0 (by decide), hbelow 1 (by decide)]
  have h0 := Memory.byteAt_writeAll_inside .src s.src 0 [p0, p1] (i := 0) (Nat.zero_lt_two)
  have h1 := Memory.byteAt_writeAll_inside .src s.src 0 [p0, p1] (i := 1) (Nat.one_lt_two)
  exact ⟨h0, h1⟩

theorem yay0Fetch_place {bit : Bool} {pair chunk : List Byte} (hd : decodeYay0Op bit pair chunk = .ok i) :
    (s.place (.yay0Op bit pair chunk)).yay0Fetch .src (placedSeq bit) =
      .ok (.yay0Op bit pair chunk, placedSeq bit) := by
  have hlen : (s.place (.yay0Op bit pair chunk)).bufLen .src = 3 := rfl
  rw [State.yay0Fetch_of_refill (State.yay0Refill_of_bits Nat.one_ne_zero), placedSeq_bit, hlen]
  simp only [show (placedSeq bit).kp = 2 from rfl, show (placedSeq bit).pp = 0 from rfl]
  unfold decodeYay0Op at hd
  split at hd
  · rw [place_yay0Op_chunk]
    rfl
  · next p0 p1 =>
    dsimp only at hd
    split_ifs at hd with hf
    obtain ⟨h0, h1⟩ := place_yay0Op_pair (s := s) false p0 p1 []
    rw [Nat.zero_add, h0, h1, if_neg (show ¬pairOf p0 p1 / 4096 = 0 from fun h => hf ((pairF_eq_zero_iff p0 p1).2 h))]
    rfl
  · next p0 p1 e =>
    dsimp only at hd
    split_ifs at hd with hf
    obtain ⟨h0, h1⟩ := place_yay0Op_pair (s := s) false p0 p1 [e]
    rw [Nat.zero_add, h0, h1, place_yay0Op_chunk, if_pos ((pairF_eq_zero_iff p0 p1).1 hf)]
    rfl
  · cases hd

theorem blockStep_place_yay0Op {bit : Bool} {pair chunk : List Byte} (hd : decode (.yay0Op bit pair chunk) = .ok i) :
    blockStep (s.place (.yay0Op bit pair chunk)) = exec i (s.place (.yay0Op bit pair chunk)) :=
  blockStep_yay0_of_fetch rfl (yay0Fetch_place hd) hd

theorem blockStep_place {c : Code} (hd : decode c = .ok i) : blockStep (s.place c) = exec i (s.place c) := by
  cases c with
  | command w => exact blockStep_place_command hd
  | varintByte x => exact blockStep_place_varintByte hd
  | yay0Op bit pair chunk => exact blockStep_place_yay0Op hd

end

theorem tableCode_width {nbits w : Nat} {c : Code} (h : tableCode nbits w = some c) :
    nbits ∈ [8, 9, 16, 17, 24, 25, 32] := by
  simp only [tableCode] at h
  simp only [List.mem_cons, List.not_mem_nil, or_false]
  split_ifs at h <;> omega

/-! ### The obligations -/

/-- Settles O10: the steps of the three kinds of fetch, and the only place where a control word is read. -/
theorem stepRunsTheDecodedInstruction : Obligations.StepRunsTheDecodedInstruction := by
  intro s hh
  rw [step_of_host_nil hh]
  refine ⟨fun i hq hd => blockStep_issued hq hd, ?varint, ?yay0⟩
  case varint =>
    intro signed b q i hq hle hd
    cases hd
    exact blockStep_varint_of_byte hq hle
  case yay0 =>
    intro b q c q' i hq hf hd
    obtain ⟨hrefill, -⟩ := State.yay0Fetch_ok hf
    refine ⟨blockStep_yay0_of_fetch hq hf hd, ?_⟩
    obtain ⟨hcb, rfl⟩ | ⟨hcb, hle, rfl⟩ := State.yay0Refill_ok hrefill
    · exact ⟨fun _ => rfl, fun h => absurd h hcb⟩
    · exact ⟨fun h => absurd hcb h, fun _ => ⟨hle, rfl⟩⟩

/-- Settles O11: each kind of code is found where `place` puts it. -/
theorem placedInstructionRunsNext : Obligations.PlacedInstructionRunsNext := by
  intro s nbits w i h
  unfold decodeTableWord at h
  split at h
  · next c hc =>
    have hd : decode c = .ok i := by
      cases hdc : decode c with
      | ok j => rw [hdc] at h; cases h; rfl
      | error r => rw [hdc] at h; cases h
    have hplace : s.withFetchWord nbits w = s.place c := by simp only [State.withFetchWord, hc]
    rw [hplace]
    exact ⟨tableCode_width hc, s.place_rst c, (step_of_host_nil (s.place_host c)).trans (blockStep_place hd)⟩
  · cases h

/-- Settles O12: what the fetch reads for each control bit, and how it decodes. -/
theorem yay0FetchSelectsOperation : Obligations.Yay0FetchSelectsOperation := by
  intro s b q hcb
  have hfetch := State.yay0Fetch_of_refill (State.yay0Refill_of_bits (s := s) (b := b) (q := q) (by omega))
  refine ⟨fun hbit => ?literal, fun hbit => ?pair⟩
  case literal =>
    rw [hbit, if_pos rfl] at hfetch
    split
    · next hlt => rw [hfetch, if_pos hlt]
    · next hlt => exact ⟨_, by rw [hfetch, if_neg hlt], decode_lit _⟩
  case pair =>
    rw [hbit, if_neg Bool.false_ne_true] at hfetch
    split
    · next hlt => rw [hfetch, if_pos hlt]
    · next hlt =>
      rw [if_neg hlt] at hfetch
      split
      · next hf => exact ⟨_, hfetch.trans (if_neg hf), decode_copy_of_pair hf⟩
      · next hf =>
        have hf0 : pairOf (s.byte b q.pp) (s.byte b (q.pp + 1)) / 4096 = 0 := not_not.1 hf
        rw [if_pos hf0] at hfetch
        split
        · next hk => rw [hfetch, if_pos hk]
        · next hk => exact ⟨_, by rw [hfetch, if_neg hk], decode_lcopy_of_pair _ hf0⟩

/-- Settles O13: with no host operation pending the step is one of the block. -/
theorem blockNeverStops : Obligations.BlockNeverStops := by
  intro s hh
  rw [step_of_host_nil hh]
  exact blockStep_next s

/-- Settles O28: outside its command each stream operation meets the last arm of its meaning, and the block's step always
gives a next state. -/
theorem streamOperationsNeedTheirCommand : Obligations.StreamOperationsNeedTheirCommand := by
  refine ⟨fun i s => exec_yay0Op_refused, fun i s => exec_varintByte_refused, fun s h => ?_⟩
  obtain ⟨t, ht⟩ := blockStep_next s
  cases ht.symm.trans h

end Sys2Proof.Machine


/-! PROOFS. The host's side: whose turn it is, the register map (R22), the accesses to the buffers (R35 to R37, R281), and the
reset input (R270, R271). -/

namespace Sys2Proof.Machine

/-! ### What a step can do -/

/-- The outside's operation is one that only reads: a register, a buffer byte, or STATUS at the end of WAIT. -/
def HostOp.isRead : HostOp → Bool
  | .regRead _ _ | .bufRead _ _ | .wait => true
  | .regWrite _ _ _ | .bufWrite _ _ _ | .run | .rst _ => false

/-- The ways a step leads from `s` to `t`, one for each kind of turn. -/
inductive StepCase (s t : State) : Prop where
  /-- the block's own step, with what is then left of the list of pending operations -/
  | block (host : List HostOp) (hlist : host = s.host ∨ s.host = .run :: host)
      (hstep : blockStep { s with host := host } = .next t)
  | read (op : HostOp) (rest : List HostOp) (v : Word) (hhost : s.host = op :: rest) (hop : op.isRead = true)
      (ht : t = { s with host := rest, rdata := v })
  | regWrite (off : Nat) (v : Word) (rest : List HostOp) (hhost : s.host = .regWrite off 4 v :: rest)
      (ht : t = ({ s with host := rest } : State).busWrite off v)
  | bufWrite (b : Buf) (a : Nat) (v : Byte) (rest : List HostOp) (hhost : s.host = .bufWrite b a v :: rest)
      (hbusy : s.busy = false) (ha : a < s.physSize b)
      (ht : t = ({ s with host := rest } : State).withMem b ((s.mem b).write a v))
  | rst (level : Bool) (rest : List HostOp) (hhost : s.host = .rst level :: rest)
      (ht : t = ({ s with host := rest } : State).driveRst level)

theorem wordAccess_iff {off width : Nat} : wordAccess off width = true ↔ width = 4 ∧ off % 4 = 0 := by
  simp [wordAccess]

@[simp] theorem State.withHost_mem (s : State) (host : List HostOp) (b : Buf) :
    ({ s with host := host } : State).mem b = s.mem b := by cases b <;> rfl

@[simp] theorem State.withHost_byte (s : State) (host : List HostOp) (b : Buf) (a : Nat) :
    ({ s with host := host } : State).byte b a = s.byte b a := by cases b <;> rfl

@[simp] theorem State.withHost_physSize (s : State) (host : List HostOp) (b : Buf) :
    ({ s with host := host } : State).physSize b = s.physSize b := by cases b <;> rfl

@[simp] theorem State.withHost_reg (s : State) (host : List HostOp) (r : RegName) :
    ({ s with host := host } : State).reg r = s.reg r := by cases r <;> rfl

theorem step_of_bufRead {s : State} {rest : List HostOp} {b : Buf} {a : Nat} (h : s.host = .bufRead b a :: rest) :
    step s = if s.busy && b == .out then .refused (.bufferInUse b)
      else if s.physSize b ≤ a then .fault (.noSuchByte b a)
      else .next { s with host := rest, rdata := (s.byte b a).setWidth 32 } := by
  simp only [step, State.turn, h, State.hostBufRead, State.withHost_physSize, State.withHost_byte]
  rfl

theorem step_of_bufWrite {s : State} {rest : List HostOp} {b : Buf} {a : Nat} {v : Byte}
    (h : s.host = .bufWrite b a v :: rest) :
    step s = if s.busy then .refused (.bufferInUse b)
      else if s.physSize b ≤ a then .fault (.noSuchByte b a)
      else .next (({ s with host := rest } : State).withMem b ((s.mem b).write a v)) := by
  simp only [step, State.turn, h, State.hostBufWrite, State.withHost_physSize, State.withHost_mem]

theorem step_of_rst {s : State} {rest : List HostOp} {level : Bool} (h : s.host = .rst level :: rest) :
    step s = .next (({ s with host := rest } : State).driveRst level) := by
  simp only [step, State.turn, h]

theorem stepCase_of_step {s t : State} (h : step s = .next t) : StepCase s t := by
  cases hh : s.host with
  | nil => exact .block [] (.inl hh.symm) (by rw [← hh, ← h, step_of_host_nil hh])
  | cons op rest =>
    cases op with
    | run => exact .block rest (.inr hh) ((step_of_run hh).symm.trans h)
    | wait =>
      rw [step_of_wait hh] at h
      split at h
      · exact .block s.host (.inl rfl) h
      · cases h
        exact .read .wait rest _ hh rfl rfl
    | regRead off width =>
      simp only [step, State.turn, hh] at h
      split at h
      · cases h
        exact .read _ rest _ hh rfl rfl
      · cases h
    | regWrite off width v =>
      simp only [step, State.turn, hh] at h
      split at h
      · next hw =>
        obtain ⟨rfl, -⟩ := wordAccess_iff.1 hw
        cases h
        exact .regWrite off v rest hh rfl
      · cases h
    | bufRead b a =>
      rw [step_of_bufRead hh] at h
      split_ifs at h
      cases h
      exact .read _ rest _ hh rfl rfl
    | bufWrite b a v =>
      rw [step_of_bufWrite hh] at h
      split_ifs at h with hb ha
      cases h
      exact .bufWrite b a v rest hh (by simpa using hb) (by omega) rfl
    | rst level =>
      rw [step_of_rst hh] at h
      cases h
      exact .rst level rest hh rfl

/-! ### The register map -/

theorem regAt_offset (r : RegName) : regAt r.offset = some r := by cases r <;> rfl

theorem offset_of_regAt {off : Nat} {r : RegName} (h : regAt off = some r) : off = r.offset := by
  unfold regAt at h
  split at h <;> cases h <;> rfl

theorem offset_aligned (r : RegName) : r.offset % 4 = 0 ∧ r.offset < 0x34 := by cases r <;> decide

theorem regAt_eq_none {off : Nat} (h : off % 4 ≠ 0 ∨ 0x34 ≤ off) : regAt off = none := by
  cases hr : regAt off with
  | none => rfl
  | some r =>
    have hoff := offset_of_regAt hr
    have hal := offset_aligned r
    omega

/-- A word read depends on what the registers read as. -/
theorem State.busRead_congr {s t : State} {off : Nat} (h : ∀ r, regAt off = some r → t.reg r = s.reg r) :
    t.busRead off = s.busRead off := by
  unfold State.busRead
  split
  · next r hr => exact h r hr
  · rfl

/-- A write reaches no register but the one at its offset; CMD, whose write issues, aside. -/
theorem State.regWrite_reg_other (s : State) (v : Word) {r r' : RegName} (hcmd : r ≠ .cmd) (hne : r' ≠ r) :
    (s.regWrite v r).reg r' = s.reg r' := by
  cases r with
  | cmd => exact absurd rfl hcmd
  | errcode | resultLo | resultHi => rfl
  | status =>
    unfold State.regWrite
    dsimp only
    split
    · cases r' <;> first | rfl | exact absurd rfl hne
    · rfl
  | ctrl | srcLen | patLen | outCap | outLen | pos | len | expect =>
    cases r' <;> first | rfl | exact absurd rfl hne

/-- What a register write other than to CMD leaves alone. -/
theorem State.regWrite_frame (s : State) (v : Word) {r : RegName} (hcmd : r ≠ .cmd) :
    (∀ b, (s.regWrite v r).mem b = s.mem b) ∧ (s.regWrite v r).busy = s.busy ∧ (s.regWrite v r).seq = s.seq ∧
      (s.regWrite v r).rst = s.rst ∧ (s.regWrite v r).rdata = s.rdata := by
  cases r with
  | cmd => exact absurd rfl hcmd
  | status =>
    unfold State.regWrite
    dsimp only
    split
    · exact ⟨fun b => by cases b <;> rfl, rfl, rfl, rfl, rfl⟩
    · exact ⟨fun _ => rfl, rfl, rfl, rfl, rfl⟩
  | _ => exact ⟨fun b => by cases b <;> rfl, rfl, rfl, rfl, rfl⟩

theorem State.sameBufs_of_mem {s t : State} (h : ∀ b, t.mem b = s.mem b) : SameBufs s t := fun b a => by
  simp only [State.byte, h]

theorem State.busWrite_withHost (s : State) (rest : List HostOp) (off : Nat) (v : Word) :
    ({ s with host := rest } : State).busWrite off v = { s.busWrite off v with host := rest } := by
  unfold State.busWrite
  split
  · rfl
  · split
    · next r _ =>
      cases r with
      | status =>
        unfold State.regWrite
        dsimp only
        split <;> rfl
      | _ => rfl
    · rfl

section
variable {s : State} (hbusy : s.busy = false) (hrst : s.rst = false)
include hbusy hrst

theorem State.busWrite_offset (r : RegName) (v : Word) : s.busWrite r.offset v = s.regWrite v r := by
  simp [State.busWrite, hbusy, hrst, regAt_offset]

theorem State.busWrite_unlisted {off : Nat} (v : Word) (h : regAt off = none) : s.busWrite off v = s := by
  simp [State.busWrite, hbusy, hrst, h]

end

theorem ctrlWord_bit (v : Word) : ctrlWord (v.getLsbD 0) = v &&& 1 := by
  apply BitVec.eq_of_toNat_eq
  rw [BitVec.toNat_and, show (1 : Word).toNat = 1 from rfl, Nat.and_one_is_mod, BitVec.getLsbD, Nat.testBit_zero]
  rcases Nat.mod_two_eq_zero_or_one v.toNat with h | h <;> simp [h, ctrlWord]

/-! ### The reset input -/

theorem State.abandon_of_idle {s : State} (h : s.busy = false) : s.abandon = s := by
  simp [State.abandon, h]

theorem State.abandon_of_keeps {s : State}
    (h : ∀ b, decode (.command s.cmd) ≠ .ok (.yay0 b) ∧ decode (.command s.cmd) ≠ .ok (.swap16 b)) : s.abandon = s := by
  unfold State.abandon State.command
  split
  · cases hd : decode (.command s.cmd) with
    | error r => rfl
    | ok i =>
      cases i with
      | yay0 b => exact absurd hd (h b).1
      | swap16 b => exact absurd hd (h b).2
      | _ => rfl
  · rfl

/-- What becomes of the buffers and of the model's own fields (R271). -/
theorem State.applyReset_frame (s : State) :
    s.applyReset.host = s.host ∧ s.applyReset.rdata = s.rdata ∧ s.applyReset.srcMax = s.srcMax ∧
      s.applyReset.patMax = s.patMax ∧ s.applyReset.outMax = s.outMax ∧ s.applyReset.src = s.src ∧
      s.applyReset.pat = s.pat := by
  obtain h | ⟨-, h⟩ := s.abandon_cases <;> simp [State.applyReset, h]

theorem State.applyReset_out (s : State) : s.applyReset.out = s.abandon.out := rfl

theorem State.applyReset_byte_out_above (s : State) {a : Nat} (h : s.outCap.toNat ≤ a) :
    s.applyReset.byte .out a = s.byte .out a := by
  obtain hs | ⟨-, hs⟩ := s.abandon_cases
  · simp [State.byte, State.applyReset_out, hs]
  · simp [State.byte, State.applyReset_out, hs, Memory.byteAt_void_above _ _ _ _ h]

@[simp] theorem State.withRst_reg (s : State) (level : Bool) (r : RegName) :
    ({ s with rst := level } : State).reg r = s.reg r := by cases r <;> rfl

@[simp] theorem State.withRst_byte (s : State) (level : Bool) (b : Buf) (a : Nat) :
    ({ s with rst := level } : State).byte b a = s.byte b a := by cases b <;> rfl

theorem State.irq_of_reg_zero {s : State} (h : ∀ r, s.reg r = 0) : s.irq = false := by
  obtain ⟨-, hdone, -⟩ := State.idle_of_reg_zero h
  exact State.irq_of_not_done hdone

/-- With no command in flight the sequencer is idle (R25). -/
theorem State.Inv.seq_of_not_busy {s : State} (hs : s.Inv) (hb : s.busy = false) : s.seq = .idle := by
  have hseq := hs.seqOk
  unfold State.SeqOk at hseq
  split at hseq
  · assumption
  · simp [hb] at hseq
  · simp [hb] at hseq
  · simp [hb] at hseq

/-- The registers hold their reset values and no command is in flight, as while `rst` is asserted (R270). -/
def State.AtReset (s : State) : Prop := (∀ r, s.reg r = 0) ∧ s.irq = false ∧ s.seq = .idle

theorem State.AtReset.busy {s : State} (h : s.AtReset) : s.busy = false := by
  obtain ⟨hreg, -⟩ := h
  obtain ⟨hb, -⟩ := State.idle_of_reg_zero hreg
  exact hb

theorem State.Inv.atReset_of_held {s : State} (hs : s.Inv) (hrst : s.rst = true) : s.AtReset := by
  have hreg := hs.heldReset hrst
  obtain ⟨hb, -⟩ := State.idle_of_reg_zero hreg
  exact ⟨hreg, State.irq_of_reg_zero hreg, hs.seq_of_not_busy hb⟩

theorem State.applyReset_atReset (s : State) : s.applyReset.AtReset :=
  ⟨s.applyReset_reg, s.applyReset_irq, s.applyReset_seq⟩

/-- Resetting changes nothing when the registers have their reset values already. -/
theorem State.AtReset.applyReset_eq {s : State} (h : s.AtReset) : s.applyReset = s := by
  have hb := h.busy
  obtain ⟨hreg, -, hseq⟩ := h
  obtain ⟨-, hdone, herr, hmatched, herrcode, hie, hresult⟩ := State.idle_of_reg_zero hreg
  have hcmd : s.cmd = 0 := hreg .cmd
  have hsrcLen : s.srcLen = 0 := hreg .srcLen
  have hpatLen : s.patLen = 0 := hreg .patLen
  have houtCap : s.outCap = 0 := hreg .outCap
  have houtLen : s.outLen = 0 := hreg .outLen
  have hpos : s.pos = 0 := hreg .pos
  have hlen : s.len = 0 := hreg .len
  have hexpect : s.expect = 0 := hreg .expect
  simp only [State.applyReset, State.abandon_of_idle hb]
  cases s
  simp_all [State.reset]

/-- While the registers have their reset values, no step but a change of the input's level changes more than a host write to
a buffer or a host read may. -/
theorem State.AtReset.step {s t : State} (h : s.AtReset) (hrst : s.rst = true) (hstep : Machine.step s = .next t) :
    t.AtReset ∧ ((∀ level, s.host.head? ≠ some (.rst level)) → t.rst = true) ∧
      ((∀ b a v, s.host.head? ≠ some (.bufWrite b a v)) → SameBufs s t) := by
  have hkeep (host : List HostOp) (v : Word) : ({ s with host := host, rdata := v } : State).AtReset := by
    obtain ⟨hreg, hirq, hseq⟩ := h
    exact ⟨fun r => by rw [← hreg r]; cases r <;> rfl, hirq, hseq⟩
  have hsame (host : List HostOp) (v : Word) : SameBufs s { s with host := host, rdata := v } :=
    State.sameBufs_of_mem fun b => by cases b <;> rfl
  obtain ⟨host, -, hblock⟩ | ⟨op, rest, v, -, -, rfl⟩ | ⟨off, v, rest, -, rfl⟩ | ⟨b, a, v, rest, hhost, -, -, rfl⟩ |
    ⟨level, rest, hhost, rfl⟩ := stepCase_of_step hstep
  · have hseq : ({ s with host := host } : State).seq = .idle := h.2.2
    cases (blockStep_idle hseq).symm.trans hblock
    exact ⟨hkeep host s.rdata, fun _ => hrst, fun _ => hsame host s.rdata⟩
  · exact ⟨hkeep rest v, fun _ => hrst, fun _ => hsame rest v⟩
  · rw [State.busWrite_ignored (s := { s with host := rest }) off v (.inr hrst)]
    exact ⟨hkeep rest s.rdata, fun _ => hrst, fun _ => hsame rest s.rdata⟩
  · refine ⟨?_, fun _ => by simpa using hrst, fun hno => absurd (by rw [hhost]; rfl) (hno b a v)⟩
    obtain ⟨hreg, -, hseq⟩ := hkeep rest s.rdata
    have hreg' (r : RegName) := ((({ s with host := rest } : State)).withMem_reg b ((s.mem b).write a v) r).trans (hreg r)
    exact ⟨hreg', State.irq_of_reg_zero hreg', by simpa using hseq⟩
  · have hreset : ({ s with host := rest } : State).applyReset = { s with host := rest } := (hkeep rest s.rdata).applyReset_eq
    obtain ⟨-, hdrive⟩ | ⟨-, hfalse, -⟩ := ({ s with host := rest } : State).driveRst_cases level
    · rw [hdrive, hreset]
      refine ⟨?_, fun hno => absurd (by rw [hhost]; rfl) (hno level), fun _ => State.sameBufs_of_mem fun b => by cases b <;> rfl⟩
      obtain ⟨hreg, hirq, hseq⟩ := hkeep rest s.rdata
      exact ⟨fun r => by rw [← hreg r]; cases r <;> rfl, hirq, hseq⟩
    · exact absurd (hrst.symm.trans hfalse) (by decide)

theorem State.driveRst_of_held {s : State} {level : Bool} (h : s.rst = true) :
    s.driveRst level = { s.applyReset with rst := level } := by
  simp [State.driveRst, h]

theorem State.driveRst_of_released {s : State} (h : s.rst = false) : s.driveRst false = s := by
  simp [State.driveRst, h]

/-! ### The obligations -/

/-- Settles O6: the fields of the reset state; a memory of which nothing is known reads as at power-on. -/
theorem resetValues : Obligations.ResetValues := by
  refine ⟨rfl, rfl, rfl, rfl, rfl, rfl, rfl, rfl, rfl, rfl, rfl, rfl, rfl, rfl, rfl, rfl, rfl, rfl, rfl, rfl, rfl, ?_⟩
  intro b a
  cases b <;> rfl

/-- Settles O7: nothing is known of any buffer, no error stands and nothing is in flight. -/
theorem resetIsSound : Obligations.ResetIsSound where
  wf b := by cases b <;> exact Memory.blank_wf
  physical b := by cases b <;> nofun
  inputsKnown := ⟨rfl, rfl⟩
  epochs := nofun
  errIff := by simp [State.reset]
  matchNoErr := nofun
  busyFlags := nofun
  heldReset := nofun
  seqOk := rfl

/-- Settles O9: asserting applies the reset; while it is held the registers keep their reset values through every step. -/
theorem rstInputResets : Obligations.RstInputResets := by
  intro s rest
  refine ⟨?asserted, ?held, ?released⟩
  case asserted =>
    intro hh
    have hframe := State.applyReset_frame { s with host := rest }
    obtain ⟨hhost, hrdata, hsrcMax, hpatMax, houtMax, hsrc, hpat⟩ := hframe
    refine ⟨_, step_of_rst hh, rfl, ?_, rfl, rfl, hhost, hrdata, hsrcMax, hpatMax, houtMax, hsrc, hpat, ?_, ?_, ?_⟩
    · intro r
      exact (State.withRst_reg _ _ r).trans (State.applyReset_reg _ r)
    · intro a ha
      exact (State.withRst_byte _ _ _ a).trans
        ((State.applyReset_byte_out_above { s with host := rest } ha).trans (s.withHost_byte rest .out a))
    · intro hb
      have hout := congrArg State.out (State.abandon_of_idle (s := { s with host := rest }) hb)
      exact hout
    · intro hd
      have hout := congrArg State.out (State.abandon_of_keeps (s := { s with host := rest }) hd)
      exact hout
  case held =>
    intro hs hrst
    have hreset := hs.atReset_of_held hrst
    have hstep (t : State) (ht : step s = .next t) := hreset.step hrst ht
    obtain ⟨hreg, hirq, hseq⟩ := id hreset
    refine ⟨hreg, hirq, hseq, fun t ht => (hstep t ht).1, fun t ht => (hstep t ht).2.1, fun t ht => (hstep t ht).2.2,
      fun off v hh ha => step_of_regWrite_ignored hh ha (.inr hrst), fun hh => ?_⟩
    have hkept : ({ s with host := rest } : State).applyReset = { s with host := rest } :=
      State.AtReset.applyReset_eq ⟨fun r => (s.withHost_reg rest r).trans (hreg r), hirq, hseq⟩
    rw [step_of_rst hh, State.driveRst_of_held (s := { s with host := rest }) hrst, hkept]
  case released =>
    intro hrst hh
    rw [step_of_rst hh, State.driveRst_of_released (s := { s with host := rest }) hrst]

/-- Settles O18: reads by the map, and writes register by register; the map sends different offsets to different registers. -/
theorem registerMap : Obligations.RegisterMap := by
  refine ⟨fun s => rfl, fun s rest off hh ha => step_of_regRead hh ha, ?unlisted, ?write⟩
  case unlisted =>
    intro s off h
    simp only [State.busRead, regAt_eq_none h]
  case write =>
    intro s rest off v hb hrst hh ha
    refine ⟨_, step_of_regWrite hh ha, State.busWrite_withHost s rest off v, ?operand, ?ctrl, ?readOnly, ?others⟩
    case operand =>
      intro hoff
      simp only [List.mem_cons, List.not_mem_nil, or_false] at hoff
      obtain rfl | rfl | rfl | rfl | rfl | rfl | rfl := hoff <;>
        simp [State.busWrite, hb, hrst, regAt, State.regWrite, State.busRead, State.reg]
    case ctrl =>
      rintro rfl
      have hwrite := State.busWrite_offset (s := { s with host := rest }) hb hrst .ctrl v
      exact (congrArg (State.busRead · 0x0C) hwrite).trans (ctrlWord_bit v)
    case readOnly =>
      rintro (hoff | hoff)
      · simp only [List.mem_cons, List.not_mem_nil, or_false] at hoff
        obtain rfl | rfl | rfl := hoff <;> simp [State.busWrite, regAt, State.regWrite]
      · exact State.busWrite_unlisted (s := { s with host := rest }) hb hrst v (regAt_eq_none (.inr hoff))
    case others =>
      intro hne
      cases hr : regAt off with
      | none =>
        rw [State.busWrite_unlisted (s := { s with host := rest }) hb hrst v hr]
        exact ⟨fun off' _ => State.busRead_congr fun r _ => s.withHost_reg rest r,
          State.sameBufs_of_mem fun b => s.withHost_mem rest b, rfl, rfl, rfl, rfl⟩
      | some r =>
        obtain rfl := offset_of_regAt hr
        have hcmd : r ≠ .cmd := by
          rintro rfl
          exact hne rfl
        rw [State.busWrite_offset (s := { s with host := rest }) hb hrst r v]
        obtain ⟨hmem, hframe⟩ := State.regWrite_frame { s with host := rest } v hcmd
        refine ⟨fun off' hoff' => ?_, State.sameBufs_of_mem fun b => (hmem b).trans (s.withHost_mem rest b), hframe⟩
        refine State.busRead_congr fun r' hr' => ?_
        have hother : r' ≠ r := by
          rintro rfl
          exact hoff' (offset_of_regAt hr')
        exact (State.regWrite_reg_other _ v hcmd hother).trans (s.withHost_reg rest r')

theorem errWord_ne_zero_iff (e : Option ErrKind) : errWord e ≠ 0 ↔ e ≠ none := by
  cases e with
  | none => simp [errWord]
  | some k => cases k <;> decide

/-- Settles O21: the invariant relates ERR with the stored kind, and every kind has a code other than 0. -/
theorem errIffErrcode : Obligations.ErrIffErrcode := by
  intro s
  exact ⟨fun _ => rfl, fun _ _ => rfl, fun _ => rfl, rfl, fun hs => hs.errIff.trans (errWord_ne_zero_iff _).symm⟩

/-- Settles O22: the tests of BUSY in the two buffer accesses. -/
theorem bufferHazardsRefused : Obligations.BufferHazardsRefused := by
  intro s rest b a v hb
  refine ⟨?write, ?readOut, ?readInput⟩
  case write =>
    intro hh
    rw [step_of_bufWrite hh, if_pos hb]
  case readOut =>
    intro hh
    rw [step_of_bufRead hh, hb]
    rfl
  case readInput =>
    intro hh hne ha
    have hfree : (s.busy && b == .out) = false := by simp [hne]
    rw [step_of_bufRead hh, hfree, if_neg Bool.false_ne_true, if_neg (Nat.not_le.2 ha)]

/-- Settles O23: the write is one to the memory of one buffer. -/
theorem hostBufferWrite : Obligations.HostBufferWrite := by
  intro s rest b a v hb hh
  rw [step_of_bufWrite hh, if_neg (Bool.eq_false_iff.1 hb)]
  refine ⟨fun ha => if_pos ha, fun ha => ⟨_, if_neg (Nat.not_le.2 ha), ?written, ?others, ?regs, ?rest⟩⟩
  case written => simp [State.byte]
  case others =>
    intro b' a' hne
    simp only [State.byte]
    by_cases hbb : b' = b
    · subst hbb
      have haa : a' ≠ a := fun h => hne (by rw [h])
      rw [State.withMem_mem_same, Memory.byteAt_write_other _ _ _ haa]
    · rw [State.withMem_mem_other _ _ hbb, State.withHost_mem]
  case regs =>
    intro r
    rw [State.withMem_reg, State.withHost_reg]
  case rest => simp [SameSetup]

/-- Settles O24: such an access is no word access. -/
theorem oddRegisterAccessRefused : Obligations.OddRegisterAccessRefused := by
  intro s rest off width v h
  have hw : wordAccess off width = false := by
    rw [Bool.eq_false_iff, ne_eq, wordAccess_iff]
    omega
  constructor
  · intro hh
    simp [step, State.turn, hh, hw]
  · intro hh
    simp [step, State.turn, hh, hw]

/-- Settles O60: the read answers with the byte, or faults, once the test of BUSY has passed. -/
theorem hostBufferRead : Obligations.HostBufferRead := by
  intro s rest b a hh
  rw [step_of_bufRead hh]
  constructor
  · intro hb ha
    rw [hb, Bool.false_and, if_neg Bool.false_ne_true, if_neg (Nat.not_le.2 ha)]
  · intro hfree ha
    have htest : (s.busy && b == .out) = false := by
      obtain hb | hne := hfree
      · simp [hb]
      · simp [hne]
    rw [htest, if_neg Bool.false_ne_true, if_pos ha]

end Sys2Proof.Machine


/-! PROOFS. The varint: its value (R101), its lengths and ranges (R102), its encoder (R197), and the commands VARU and VARS,
run byte by byte (R190, R193 to R195). -/

namespace Sys2Proof.Machine

/-! ### The two parts of a byte -/

theorem and_0x7F_toNat (x : Byte) : (x &&& 0x7F).toNat = x.toNat % 128 := by
  rw [BitVec.toNat_and]
  exact Nat.and_two_pow_sub_one_eq_mod x.toNat 7

theorem and_0x80_eq_zero_iff (x : Byte) : x &&& 0x80 = 0 ↔ x.toNat < 128 := by
  revert x
  decide

theorem and_0x80_eq_0x80_iff (x : Byte) : x &&& 0x80 = 0x80 ↔ 128 ≤ x.toNat := by
  revert x
  decide

/-! ### The value of a varint (R101) -/

/-- The sum of the groups and the cumulative offset (R101). -/
def varintValue (xs : List Byte) : Nat := varintGroups xs + varintOffset xs.length

theorem isVarint_singleton (x : Byte) : isVarint [x] = true ↔ 128 ≤ x.toNat := by
  simp only [isVarint, beq_iff_eq, and_0x80_eq_0x80_iff]

theorem isVarint_cons {x : Byte} {xs : List Byte} (h : xs ≠ []) :
    isVarint (x :: xs) = true ↔ x.toNat < 128 ∧ isVarint xs = true := by
  cases xs with
  | nil => exact absurd rfl h
  | cons y ys => simp only [isVarint, Bool.and_eq_true, beq_iff_eq, and_0x80_eq_zero_iff]

theorem varintOffset_succ {k : Nat} (h : 1 ≤ k) : varintOffset (k + 1) = varintOffset k + 128 ^ k := by
  cases k with
  | zero => omega
  | succ k => rfl

theorem varintOffset_step (k : Nat) : varintOffset (k + 2) = 128 * (varintOffset (k + 1) + 1) := by
  induction k with
  | zero => rfl
  | succ k ih =>
    calc varintOffset (k + 1 + 2) = varintOffset (k + 2) + 128 ^ (k + 2) := varintOffset_succ (by omega)
      _ = 128 * (varintOffset (k + 1) + 1) + 128 ^ (k + 2) := by rw [ih]
      _ = 128 * (varintOffset (k + 1) + 128 ^ (k + 1) + 1) := by ring
      _ = 128 * (varintOffset (k + 1 + 1) + 1) := by rw [varintOffset_succ (k := k + 1) (by omega)]

theorem varintOffset_mono : Monotone varintOffset := by
  refine monotone_nat_of_le_succ fun k => ?_
  cases k with
  | zero => exact Nat.le_refl 0
  | succ k =>
    rw [varintOffset_succ (k := k + 1) (by omega)]
    exact Nat.le_add_right _ _

theorem two_pow_64_le_varintOffset : 2 ^ 64 ≤ varintOffset 11 := by decide

theorem varintValue_singleton (x : Byte) : varintValue [x] = x.toNat % 128 := by
  simp only [varintValue, varintGroups, and_0x7F_toNat]
  rfl

/-- The rest of a varint counts 128 times, and once more for its offset. -/
theorem varintValue_cons (x : Byte) {xs : List Byte} (h : xs ≠ []) :
    varintValue (x :: xs) = x.toNat % 128 + 128 * (varintValue xs + 1) := by
  cases xs with
  | nil => exact absurd rfl h
  | cons y ys =>
    simp only [varintValue, List.length_cons, varintOffset_step]
    rw [varintGroups, and_0x7F_toNat]
    omega

theorem varintGroups_lt (xs : List Byte) : varintGroups xs < 128 ^ xs.length := by
  induction xs with
  | nil => exact Nat.zero_lt_one
  | cons x xs ih =>
    rw [varintGroups, and_0x7F_toNat, List.length_cons, pow_succ]
    omega

theorem varintValue_bounds {xs : List Byte} (h : xs ≠ []) :
    varintOffset xs.length ≤ varintValue xs ∧ varintValue xs < varintOffset (xs.length + 1) := by
  have hlen : 1 ≤ xs.length := List.length_pos_of_ne_nil h
  have hlt := varintGroups_lt xs
  rw [varintOffset_succ hlen, varintValue]
  omega

theorem ne_nil_of_isVarint {xs : List Byte} (h : isVarint xs = true) : xs ≠ [] := by
  rintro rfl
  cases h

/-- No two varints have the same value: the value tells the first byte's group, and whether a byte follows. -/
theorem eq_of_varintValue_eq {xs ys : List Byte} (hx : isVarint xs = true) (hy : isVarint ys = true)
    (h : varintValue xs = varintValue ys) : xs = ys := by
  induction xs generalizing ys with
  | nil => cases hx
  | cons x xs ih =>
    cases ys with
    | nil => cases hy
    | cons y ys =>
      have hxlt := x.isLt
      have hylt := y.isLt
      by_cases hxs : xs = [] <;> by_cases hys : ys = []
      · subst hxs hys
        rw [isVarint_singleton] at hx hy
        rw [varintValue_singleton, varintValue_singleton] at h
        rw [BitVec.eq_of_toNat_eq (x := x) (y := y) (by omega)]
      · subst hxs
        rw [varintValue_singleton, varintValue_cons y hys] at h
        omega
      · subst hys
        rw [varintValue_singleton, varintValue_cons x hxs] at h
        omega
      · rw [isVarint_cons hxs] at hx
        rw [isVarint_cons hys] at hy
        rw [varintValue_cons x hxs, varintValue_cons y hys] at h
        obtain ⟨hx128, hxv⟩ := hx
        obtain ⟨hy128, hyv⟩ := hy
        rw [BitVec.eq_of_toNat_eq (x := x) (y := y) (by omega), ih hxv hyv (by omega)]

/-! ### The encoder (R197) -/

theorem varintEncodeLoop_spec {k n : Nat} (h : n < varintOffset (k + 1)) :
    isVarint (varintEncodeLoop k n) = true ∧ varintValue (varintEncodeLoop k n) = n ∧
      (varintEncodeLoop k n).length ≤ k := by
  induction k generalizing n with
  | zero => exact absurd h (Nat.not_lt_zero n)
  | succ k ih =>
    rw [varintOffset_step] at h
    have hend : (BitVec.ofNat 8 (n % 128 + 0x80)).toNat = n % 128 + 128 := by rw [BitVec.toNat_ofNat]; omega
    have hcont : (BitVec.ofNat 8 (n % 128)).toNat = n % 128 := by rw [BitVec.toNat_ofNat]; omega
    unfold varintEncodeLoop
    split
    · refine ⟨(isVarint_singleton _).2 (by omega), ?_, by simp⟩
      rw [varintValue_singleton]
      omega
    · obtain ⟨hv, hval, hlen⟩ := ih (n := n / 128 - 1) (by omega)
      have hne := ne_nil_of_isVarint hv
      refine ⟨(isVarint_cons hne).2 ⟨by omega, hv⟩, ?_, by simpa using hlen⟩
      rw [varintValue_cons _ hne, hval]
      omega

theorem varintEncode_spec {n : Nat} (h : n < 2 ^ 64) :
    isVarint (varintEncode n) = true ∧ varintValue (varintEncode n) = n ∧ (varintEncode n).length ≤ 10 :=
  varintEncodeLoop_spec (h.trans_le two_pow_64_le_varintOffset)

/-- A value in the range of the `k`-byte varints has an encoding of `k` bytes. -/
theorem length_varintEncodeLoop {k n : Nat} (hlo : varintOffset k ≤ n) (hhi : n < varintOffset (k + 1)) :
    (varintEncodeLoop k n).length = k := by
  obtain ⟨hv, hval, hlen⟩ := varintEncodeLoop_spec hhi
  have hbound := (varintValue_bounds (ne_nil_of_isVarint hv)).2
  rw [hval] at hbound
  by_contra hne
  have hmono := varintOffset_mono (show (varintEncodeLoop k n).length + 1 ≤ k by omega)
  omega

/-! ### The decoder (R190) -/

section
variable {data shift count : Nat} {x : Byte} {xs : List Byte}

theorem varintLoop_cons :
    varintLoop data shift count (x :: xs) =
      if 2 ^ 64 ≤ data + x.toNat % 128 * shift then .error .varintOverflow
      else if 128 ≤ x.toNat then .ok (data + x.toNat % 128 * shift, count + 1)
      else if 2 ^ 64 ≤ data + x.toNat % 128 * shift + shift * 128 then .error .varintOverflow
      else varintLoop (data + x.toNat % 128 * shift + shift * 128) (shift * 128) (count + 1) xs := by
  have hflag : x &&& 0x80 ≠ 0 ↔ 128 ≤ x.toNat := by rw [ne_eq, and_0x80_eq_zero_iff, Nat.not_lt]
  simp only [varintLoop, and_0x7F_toNat, hflag]

/-- The decoder adds up the value, and overflows exactly when the whole value does: no sum on the way exceeds it. -/
theorem varintLoop_of_isVarint (h : isVarint xs = true) :
    varintLoop data shift count xs =
      if data + shift * varintValue xs < 2 ^ 64 then .ok (data + shift * varintValue xs, count + xs.length)
      else .error .varintOverflow := by
  induction xs generalizing data shift count with
  | nil => cases h
  | cons x xs ih =>
    rw [varintLoop_cons]
    by_cases hxs : xs = []
    · subst hxs
      rw [isVarint_singleton] at h
      rw [varintValue_singleton, if_pos h, Nat.mul_comm shift]
      split_ifs <;> first | rfl | omega
    · obtain ⟨hx, hv⟩ := (isVarint_cons hxs).1 h
      have hsum : data + shift * varintValue (x :: xs) =
          data + x.toNat % 128 * shift + shift * 128 + shift * 128 * varintValue xs := by
        rw [varintValue_cons x hxs]
        ring
      rw [hsum, if_neg (Nat.not_le.2 hx), ih hv, List.length_cons, Nat.add_assoc count 1, Nat.add_comm 1]
      split_ifs <;> first | rfl | omega

theorem isVarint_of_varintLoop {v : Nat} (h : varintLoop data shift count xs = .ok (v, count + xs.length)) :
    isVarint xs = true := by
  induction xs generalizing data shift count with
  | nil => cases h
  | cons x xs ih =>
    rw [varintLoop_cons] at h
    split_ifs at h with _ hx
    · obtain ⟨-, hcount⟩ := Prod.mk.inj (Except.ok.inj h)
      have hnil : xs = [] := List.eq_nil_of_length_eq_zero (by rw [List.length_cons] at hcount; omega)
      subst hnil
      exact (isVarint_singleton x).2 hx
    · have hv := ih (by rw [h, List.length_cons, Nat.add_assoc count 1, Nat.add_comm 1])
      exact (isVarint_cons (ne_nil_of_isVarint hv)).2 ⟨Nat.not_le.1 hx, hv⟩

/-- What the decoder answers lies below 2^64, and it has read a byte, but no more bytes than there are. -/
theorem varintLoop_ok_bounds {v c : Nat} (h : varintLoop data shift count xs = .ok (v, c)) :
    v < 2 ^ 64 ∧ count < c ∧ c ≤ count + xs.length := by
  induction xs generalizing data shift count with
  | nil => cases h
  | cons x xs ih =>
    rw [varintLoop_cons] at h
    rw [List.length_cons]
    split_ifs at h with hd
    · cases h
      omega
    · have := ih h
      omega

/-- `k` bytes that all announce another one carry the sum beyond `shift * 128 ^ k`. -/
theorem varintLoop_overflow_of_continuing {k : Nat} (hk : 1 ≤ k) (hlen : k ≤ xs.length)
    (hcont : ∀ x ∈ xs.take k, x &&& 0x80 = 0) (hshift : 2 ^ 64 ≤ shift * 128 ^ k) :
    varintLoop data shift count xs = .error .varintOverflow := by
  induction k generalizing data shift count xs with
  | zero => omega
  | succ k ih =>
    cases xs with
    | nil => simp at hlen
    | cons x xs =>
      rw [List.take_succ_cons, List.forall_mem_cons] at hcont
      obtain ⟨hx, hrest⟩ := hcont
      rw [varintLoop_cons, if_neg (Nat.not_le.2 ((and_0x80_eq_zero_iff x).1 hx))]
      have hnext : shift * 128 ^ (k + 1) = shift * 128 * 128 ^ k := by ring
      split_ifs with h1 h2
      · rfl
      · rfl
      · rw [hnext] at hshift
        have hpos : 1 ≤ k := by
          rcases Nat.eq_zero_or_pos k with rfl | hpos
          · omega
          · exact hpos
        exact ih hpos (by simpa using hlen) hrest hshift

end

theorem varintDecode_of_isVarint {xs : List Byte} (h : isVarint xs = true) :
    varintDecode xs = if varintValue xs < 2 ^ 64 then .ok (varintValue xs, xs.length) else .error .varintOverflow := by
  simp only [varintDecode, varintLoop_of_isVarint h, Nat.zero_add, Nat.one_mul]

theorem isVarint_of_varintDecode {xs : List Byte} {n : Nat} (h : varintDecode xs = .ok (n, xs.length)) :
    isVarint xs = true ∧ varintValue xs = n := by
  have hv : isVarint xs = true := isVarint_of_varintLoop (by rw [Nat.zero_add]; exact h)
  rw [varintDecode_of_isVarint hv] at h
  split_ifs at h
  exact ⟨hv, (Prod.mk.inj (Except.ok.inj h)).1⟩

/-! ### The commands VARU and VARS up to their loop, and their bytes -/

section
variable {s : State} {b : Buf} {signed : Bool} {q : VarintSeq}

/-- VARU, or VARS when `signed`. -/
def varintCommand (signed : Bool) (b : Buf) : Instr := if signed then .vars b else .varu b

theorem exec_varintCommand (hs : s.operandsOk = true) :
    exec (varintCommand signed b) s = .next (s.varintStart signed b) := by
  cases signed
  · exact State.checked_ok _ rfl hs
  · exact State.checked_ok _ rfl hs

theorem exec_vbCont (v : BitVec 7) (hq : s.seq = .varint signed b q) :
    exec (.vbCont v) s =
      if 2 ^ 64 ≤ q.data + v.toNat * q.shift then .next (s.afterError .varintOverflow)
      else if 2 ^ 64 ≤ q.data + v.toNat * q.shift + q.shift * 128 then .next (s.afterError .varintOverflow)
      else .next (s.withSeq (.varint signed b
        { p := q.p + 1, data := q.data + v.toNat * q.shift + q.shift * 128, shift := q.shift * 128 })) := by
  simp only [exec, execVbCont, hq, State.raise_kept]

/-- The completion of VARU or VARS with the value `v`, the cursor at `p` (R194, R195). -/
def State.varintEnd (s : State) (signed : Bool) (v p : Nat) : State :=
  ((s.withResult (varintResult signed v)).withPos (BitVec.ofNat 32 p)).complete false

theorem exec_vbEnd (v : BitVec 7) (hq : s.seq = .varint signed b q) :
    exec (.vbEnd v) s =
      if 2 ^ 64 ≤ q.data + v.toNat * q.shift then .next (s.afterError .varintOverflow)
      else .next (s.varintEnd signed (q.data + v.toNat * q.shift) (q.p + 1)) := by
  simp only [exec, execVbEnd, hq, State.raise_kept, State.varintEnd]

/-- The signed reading is a two's complement negation (R195). -/
theorem signedValue_eq {v : Nat} (hv : v < 2 ^ 64) :
    signedValue v = if v % 2 = 1 then -BitVec.ofNat 64 (v / 2) else BitVec.ofNat 64 (v / 2) := by
  unfold signedValue
  split
  · refine BitVec.eq_of_toNat_eq ?_
    rw [BitVec.toNat_neg, BitVec.toNat_ofNat, BitVec.toNat_ofNat]
    omega
  · rfl

theorem signedValue_toInt {v : Nat} (hv : v < 2 ^ 64) :
    (signedValue v).toInt = if v % 2 = 1 then -((v / 2 : Nat) : Int) else ((v / 2 : Nat) : Int) := by
  have hm : (BitVec.ofNat 64 (v / 2)).toNat = v / 2 := by rw [BitVec.toNat_ofNat]; omega
  have hpos : (BitVec.ofNat 64 (v / 2)).toInt = ((v / 2 : Nat) : Int) := by
    rw [BitVec.toInt_eq_toNat_cond, hm, if_pos (by omega)]
  rw [signedValue_eq hv]
  split
  · rw [BitVec.toInt_neg, hpos, Int.bmod_def]
    omega
  · exact hpos

theorem varintResult_eq {v : Nat} (hv : v < 2 ^ 64) :
    varintResult signed v =
      if signed then (if v % 2 = 1 then -BitVec.ofNat 64 (v / 2) else BitVec.ofNat 64 (v / 2)) else BitVec.ofNat 64 v := by
  rw [varintResult, signedValue_eq hv]

end

/-! ### A whole command, byte by byte -/

/-- What the pure decoder's answer means for the command in flight in `s`: the count of bytes read starts at offset `p0`. -/
def State.varintOutcome (s : State) (signed : Bool) (p0 : Nat) : Except ErrKind (Nat × Nat) → State
  | .ok (v, c) => s.varintEnd signed v (p0 + c)
  | .error e => s.afterError e

theorem State.bytes_to_end (s : State) (b : Buf) {p : Nat} (h : p + 1 ≤ s.bufLen b) :
    s.bytes b p (s.bufLen b - p) = s.byte b p :: s.bytes b (p + 1) (s.bufLen b - (p + 1)) := by
  rw [show s.bufLen b - p = s.bufLen b - (p + 1) + 1 by omega]
  rfl

/-- A varint in flight ends as the pure decoder says of the bytes that are left, within as many steps as keep
`shift * 128 ^ m` from being reached below 2^64. -/
theorem varint_runs_to_reference (s : State) (signed : Bool) (b : Buf) (p0 : Nat) (hh : s.host = []) {m : Nat}
    {q : VarintSeq} {count : Nat} (hm : 1 ≤ m) (hshift : 2 ^ 64 ≤ q.shift * 128 ^ m) (hp : q.p = p0 + count) :
    ∃ n ≤ m, runSteps n (s.withSeq (.varint signed b q)) =
      .next (s.varintOutcome signed p0 (varintLoop q.data q.shift count (s.bytes b q.p (s.bufLen b - q.p)))) := by
  induction m generalizing q count with
  | zero => omega
  | succ m ih =>
    have hstep : step (s.withSeq (.varint signed b q)) = blockStep (s.withSeq (.varint signed b q)) :=
      step_of_host_nil hh
    rcases Nat.lt_or_ge (s.bufLen b) (q.p + 1) with hlt | hle
    · refine ⟨1, by omega, ?_⟩
      have hempty : s.bufLen b - q.p = 0 := by omega
      rw [runSteps_one, hstep, blockStep_varint_of_truncated rfl (by simpa using hlt), hempty]
      rfl
    · have hbyte : blockStep (s.withSeq (.varint signed b q)) =
          exec (decodeVarintByte (s.byte b q.p)) (s.withSeq (.varint signed b q)) := by
        rw [blockStep_varint_of_byte rfl (by simpa using hle), State.withSeq_byte]
      rw [s.bytes_to_end b hle, varintLoop_cons]
      unfold decodeVarintByte at hbyte
      rw [varintByte_bit7] at hbyte
      split_ifs with hd1 hend hd2
      · refine ⟨1, by omega, ?_⟩
        rw [runSteps_one, hstep, hbyte]
        split
        · rw [exec_vbEnd _ rfl, varintByte_value, if_pos hd1]
          rfl
        · rw [exec_vbCont _ rfl, varintByte_value, if_pos hd1]
          rfl
      · refine ⟨1, by omega, ?_⟩
        rw [runSteps_one, hstep, hbyte, if_pos (decide_eq_true hend), exec_vbEnd _ rfl, varintByte_value, if_neg hd1, hp]
        rfl
      · refine ⟨1, by omega, ?_⟩
        rw [runSteps_one, hstep, hbyte, if_neg (by simpa using hend), exec_vbCont _ rfl, varintByte_value, if_neg hd1,
          if_pos hd2]
        rfl
      · rw [if_neg (by simpa using hend), exec_vbCont _ rfl, varintByte_value, if_neg hd1, if_neg hd2] at hbyte
        have hpow : q.shift * 128 ^ (m + 1) = q.shift * 128 * 128 ^ m := by ring
        have hm1 : 1 ≤ m := by
          rcases Nat.eq_zero_or_pos m with rfl | hpos
          · omega
          · exact hpos
        obtain ⟨n, hn, hrun⟩ := ih (count := count + 1)
          (q := ⟨q.p + 1, q.data + (s.byte b q.p).toNat % 128 * q.shift + q.shift * 128, q.shift * 128⟩)
          hm1 (hpow ▸ hshift) (by simp only [hp]; omega)
        exact ⟨n + 1, by omega, (runSteps_succ_of_next n (hstep.trans hbyte)).trans hrun⟩

/-! ### The obligations -/

/-- Settles O46: the decoder adds up the value. -/
theorem varintValueFormula : Obligations.VarintValueFormula := by
  intro xs h
  refine ⟨fun hlt => ?_, fun hge => ?_⟩
  · exact (varintDecode_of_isVarint h).trans (if_pos hlt)
  · exact (varintDecode_of_isVarint h).trans (if_neg (Nat.not_lt.2 hge))

/-- Settles O47: the value lies in the range of its length, the encoder reaches each value there, and the value determines
the bytes; ten continuing bytes carry the sum beyond 128^10. -/
theorem varintLengthsAndRanges : Obligations.VarintLengthsAndRanges := by
  refine ⟨fun k n hk => ⟨?bounds, ?reached⟩, by decide, ?unique, ?overflow⟩
  case bounds =>
    rintro ⟨xs, hv, rfl, rfl⟩
    exact varintValue_bounds (ne_nil_of_isVarint hv)
  case reached =>
    rintro ⟨hlo, hhi⟩
    obtain ⟨hv, hval, -⟩ := varintEncodeLoop_spec hhi
    have hlen := length_varintEncodeLoop hlo hhi
    refine ⟨_, hv, hlen, ?_⟩
    rw [varintValue, hlen] at hval
    exact hval
  case unique =>
    intro n hn
    obtain ⟨hv, hval, hlen⟩ := varintEncode_spec hn
    exact ⟨_, ⟨hv, hval, hlen⟩, fun ys hy hyval => eq_of_varintValue_eq hy hv (hyval.trans hval.symm)⟩
  case overflow =>
    intro xs hlen hcont
    exact varintLoop_overflow_of_continuing (k := 10) (by decide) hlen hcont (by decide)

/-- Settles O45: the encoder gives a varint of the value, and a string that decodes to the value is a varint of it. -/
theorem varintEncodingIsUnique : Obligations.VarintEncodingIsUnique := by
  intro n hn
  obtain ⟨hv, hval, -⟩ := varintEncode_spec hn
  refine ⟨?_, fun xs h => ?_⟩
  · rw [varintDecode_of_isVarint hv, hval, if_pos hn]
  · obtain ⟨hxv, hxval⟩ := isVarint_of_varintDecode h
    exact eq_of_varintValue_eq hxv hv (hxval.trans hval.symm)

/-- Settles O41: after the checks both commands start the decoder. -/
theorem varintCommandsStart : Obligations.VarintCommandsStart := by
  intro b s hs
  exact ⟨exec_varintCommand (signed := false) hs, exec_varintCommand (signed := true) hs⟩

/-- Settles O42: the first test is implied by the second, since the offset only adds. -/
theorem vbContAccumulates : Obligations.VbContAccumulates := by
  intro v s signed b q hq
  rw [exec_vbCont v hq, Nat.mul_comm 128 q.shift]
  refine ⟨fun hlt => ?_, fun hge => ?_⟩
  · rw [if_neg (by omega), if_neg (by omega)]
    rfl
  · split_ifs <;> rfl

/-- Settles O43: the completion's RESULT and POS, when no sum overflows. -/
theorem vbEndCompletes : Obligations.VbEndCompletes := by
  intro v s signed b q hq
  rw [exec_vbEnd v hq]
  refine ⟨fun hlt => ⟨_, if_neg (Nat.not_le.2 hlt), rfl, ?pos, ?unsigned, ?signed⟩, fun hge => if_pos hge⟩
  case pos =>
    intro hp
    exact (BitVec.toNat_ofNat _ _).trans (Nat.mod_eq_of_lt hp)
  case unsigned =>
    rintro rfl
    exact (BitVec.toNat_ofNat _ _).trans (Nat.mod_eq_of_lt hlt)
  case signed =>
    rintro rfl
    exact signedValue_toInt hlt

/-- Settles O44: the first step starts the decoder, and ten bytes are enough to end it. -/
theorem varintCommandsRunToReference : Obligations.VarintCommandsRunToReference := by
  intro signed b s hh hq hd hs
  have hfirst : step s = .next (s.varintStart signed b) := by
    rw [step_of_host_nil hh, blockStep_issued hq hd]
    exact exec_varintCommand hs
  refine ⟨⟨_, exec_varintCommand hs, hfirst⟩, ?_⟩
  obtain ⟨n, hn, hrun⟩ := varint_runs_to_reference s signed b s.pos.toNat hh (m := 10)
    (q := { p := s.pos.toNat, data := 0, shift := 1 }) (count := 0) (by decide) (by norm_num) rfl
  refine ⟨n + 1, _, by omega, (runSteps_succ_of_next n hfirst).trans hrun, ?_⟩
  rw [varintDecode]
  cases hloop : varintLoop 0 1 0 (s.bytes b s.pos.toNat (s.bufLen b - s.pos.toNat)) with
  | error e => rfl
  | ok r =>
    obtain ⟨v, k⟩ := r
    obtain ⟨hv, hread, hk⟩ := varintLoop_ok_bounds hloop
    rw [State.bytes_length] at hk
    have hend : s.pos.toNat + k ≤ s.bufLen b := by omega
    have hpos : (BitVec.ofNat 32 (s.pos.toNat + k)).toNat = s.pos.toNat + k :=
      (BitVec.toNat_ofNat _ _).trans (Nat.mod_eq_of_lt (hend.trans_lt (s.bufLen_lt b)))
    exact ⟨rfl, hpos, hpos.trans_le hend, varintResult_eq hv⟩

end Sys2Proof.Machine


/-! PROOFS. The CRC as a linear function: the table-driven update (R144) and the residue of a message followed by its own CRC
(95_test_vectors.md, K11). -/

namespace Sys2Proof.Machine

/-! ### The steps are linear -/

theorem crcShift_eq (c : Word) : crcShift c = c >>> 1 ^^^ (if c.getLsbD 0 then crcPoly else 0) := by
  unfold crcShift
  cases c.getLsbD 0
  · exact (BitVec.xor_zero).symm
  · rfl

/-- The polynomial is added once for each of the two bits shifted out, so twice, which is never, when both are 1. -/
theorem crcPoly_xor_bits (x y : Bool) :
    (if (x ^^ y) then crcPoly else 0) = (if x then crcPoly else 0) ^^^ (if y then crcPoly else 0) := by
  cases x <;> cases y <;> decide

theorem crcShift_xor (c d : Word) : crcShift (c ^^^ d) = crcShift c ^^^ crcShift d := by
  rw [crcShift_eq, crcShift_eq, crcShift_eq, BitVec.getLsbD_xor, BitVec.ushiftRight_xor_distrib, crcPoly_xor_bits]
  ac_rfl

theorem crcShifts_xor (n : Nat) (c d : Word) : crcShifts n (c ^^^ d) = crcShifts n c ^^^ crcShifts n d := by
  induction n generalizing c d with
  | zero => rfl
  | succ n ih => rw [crcShifts, crcShift_xor, ih, crcShifts, crcShifts]

theorem crcShifts_add (m n : Nat) (c : Word) : crcShifts (m + n) c = crcShifts n (crcShifts m c) := by
  induction m generalizing c with
  | zero => rw [Nat.zero_add, crcShifts]
  | succ m ih => rw [Nat.add_right_comm, crcShifts, ih, crcShifts]

/-- `n` steps on a register whose lowest `n` bits are 0 only shift. -/
theorem crcShifts_of_low_zero {n : Nat} {c : Word} (h : c.toNat % 2 ^ n = 0) : crcShifts n c = c >>> n := by
  induction n generalizing c with
  | zero => exact (BitVec.ushiftRight_zero c).symm
  | succ n ih =>
    rw [pow_succ, Nat.mul_comm] at h
    have hbit : c.getLsbD 0 = false := by
      have heven : c.toNat % 2 = 0 := by rw [← Nat.mod_mul_right_mod c.toNat 2 (2 ^ n), h]
      rw [BitVec.getLsbD, Nat.testBit_zero, heven]
      rfl
    have hnext : (c >>> 1).toNat % 2 ^ n = 0 := by
      rw [BitVec.toNat_ushiftRight, Nat.shiftRight_one, ← Nat.mod_mul_right_div_self, h]
    have hshift : crcShift c = c >>> 1 := by rw [crcShift, hbit, if_neg Bool.false_ne_true]
    rw [crcShifts, hshift, ih hnext, ← BitVec.shiftRight_add, Nat.add_comm]

/-! ### The table (R143) -/

/-- The entries of the table are the eight steps on each byte. -/
theorem crcTable_eq : crcTable = (List.range 256).map (fun k => crcShifts 8 (BitVec.ofNat 32 k)) := by
  decide +kernel

theorem crcTable_getD {k : Nat} (h : k < 256) : crcTable.getD k 0 = crcShifts 8 (BitVec.ofNat 32 k) := by
  rw [crcTable_eq, List.getD_eq_getElem?_getD, List.getElem?_map, List.getElem?_range h]
  rfl

/-- A register is its lowest byte and the rest. -/
theorem xor_split_low_byte (x : Word) : BitVec.ofNat 32 (x.toNat % 256) ^^^ (x >>> 8) <<< 8 = x := by
  refine BitVec.eq_of_getLsbD_eq fun i hi => ?_
  rw [BitVec.getLsbD_xor, BitVec.getLsbD_shiftLeft, BitVec.getLsbD_ushiftRight, BitVec.getLsbD_ofNat]
  rw [show 256 = 2 ^ 8 from rfl, Nat.testBit_mod_two_pow]
  by_cases h8 : i < 8
  · simp only [h8, hi, decide_true, Bool.true_and, Bool.not_true, Bool.and_false, Bool.false_and, Bool.xor_false]
    rfl
  · simp [h8, hi, show 8 + (i - 8) = i by omega]

theorem shiftLeft_8_low_zero (x : Word) : (x <<< 8).toNat % 2 ^ 8 = 0 := by
  rw [BitVec.toNat_shiftLeft, Nat.shiftLeft_eq]
  omega

/-- Eight steps at once: the table's entry for the lowest byte, and the rest shifted. -/
theorem crcShifts_eight (x : Word) : crcShifts 8 x = crcTable.getD (x.toNat % 256) 0 ^^^ x >>> 8 := by
  have hlow : crcShifts 8 ((x >>> 8) <<< 8) = x >>> 8 := by
    rw [crcShifts_of_low_zero (shiftLeft_8_low_zero _)]
    refine BitVec.eq_of_getLsbD_eq fun i hi => ?_
    rw [BitVec.getLsbD_ushiftRight, BitVec.getLsbD_shiftLeft, BitVec.getLsbD_ushiftRight, show 8 + i - 8 = i by omega]
    by_cases h24 : 8 + i < 32
    · simp [h24]
    · simp [h24, BitVec.getLsbD_of_ge x (8 + i) (by omega)]
  calc crcShifts 8 x = crcShifts 8 (BitVec.ofNat 32 (x.toNat % 256) ^^^ (x >>> 8) <<< 8) := by rw [xor_split_low_byte]
    _ = crcTable.getD (x.toNat % 256) 0 ^^^ x >>> 8 := by
      rw [crcShifts_xor, hlow, crcTable_getD (Nat.mod_lt _ (by decide))]

/-- A byte enters the lowest eight bits only. -/
theorem byte_shifted_out (c : Word) (m : Byte) : (c ^^^ m.setWidth 32) >>> 8 = c >>> 8 := by
  have hbyte : (m.setWidth 32) >>> 8 = (0 : Word) := by
    refine BitVec.eq_of_toNat_eq ?_
    have hm := m.isLt
    rw [BitVec.toNat_ushiftRight, BitVec.toNat_setWidth, Nat.shiftRight_eq_div_pow, show (0 : Word).toNat = 0 from rfl]
    omega
  rw [BitVec.ushiftRight_xor_distrib, hbyte]
  exact BitVec.xor_zero

/-! ### A message followed by its own CRC -/

theorem crcFold_append (c : Word) (xs ys : List Byte) : crcFold c (xs ++ ys) = crcFold (crcFold c xs) ys := by
  induction xs generalizing c with
  | nil => rfl
  | cons x xs ih => exact ih _

/-- A byte that is fed in after `k` steps could have been added `k` bits higher before them. -/
theorem crcUpd_crcShifts {k : Nat} (hk : k ≤ 24) (x : Word) (m : Byte) :
    crcUpd (crcShifts k x) m = crcShifts (k + 8) (x ^^^ m.setWidth 32 <<< k) := by
  have hm := m.isLt
  have hfits : m.toNat * 2 ^ k < 2 ^ 32 :=
    calc m.toNat * 2 ^ k < 2 ^ 8 * 2 ^ k := Nat.mul_lt_mul_of_pos_right hm (Nat.two_pow_pos k)
      _ = 2 ^ (8 + k) := (Nat.pow_add 2 8 k).symm
      _ ≤ 2 ^ 32 := Nat.pow_le_pow_right (by decide) (by omega)
  have hwide : (m.setWidth 32 : Word).toNat = m.toNat := by
    rw [BitVec.toNat_setWidth]
    omega
  have hnat : (m.setWidth 32 <<< k : Word).toNat = m.toNat * 2 ^ k := by
    rw [BitVec.toNat_shiftLeft, hwide, Nat.shiftLeft_eq, Nat.mod_eq_of_lt hfits]
  have hback : (m.setWidth 32 <<< k : Word) >>> k = m.setWidth 32 := by
    refine BitVec.eq_of_toNat_eq ?_
    rw [BitVec.toNat_ushiftRight, hnat, hwide, Nat.shiftRight_eq_div_pow, Nat.mul_div_cancel _ (Nat.two_pow_pos k)]
  have hshifted : crcShifts k (m.setWidth 32 <<< k) = m.setWidth 32 := by
    rw [crcShifts_of_low_zero (by rw [hnat, Nat.mul_mod_left]), hback]
  rw [crcUpd, crcShifts_add, crcShifts_xor k x, hshifted]

theorem word_of_bytes (c : Word) :
    (c.extractLsb' 0 8).setWidth 32 ^^^ (c.extractLsb' 8 8).setWidth 32 <<< 8 ^^^
      (c.extractLsb' 16 8).setWidth 32 <<< 16 ^^^ (c.extractLsb' 24 8).setWidth 32 <<< 24 = c := by
  refine BitVec.eq_of_getLsbD_eq fun i hi => ?_
  simp only [BitVec.getLsbD_xor, BitVec.getLsbD_shiftLeft, BitVec.getLsbD_setWidth, BitVec.getLsbD_extractLsb']
  rcases (by omega : i < 8 ∨ (8 ≤ i ∧ i < 16) ∨ (16 ≤ i ∧ i < 24) ∨ 24 ≤ i) with h | h | h | h
  · simp [show i < 8 by omega, show i < 16 by omega, show i < 24 by omega, hi]
  · simp [show ¬i < 8 by omega, show i < 16 by omega, show i < 24 by omega, show i - 8 < 8 by omega, hi,
      show 8 + (i - 8) = i by omega, show i - 8 < 32 by omega]
  · simp [show ¬i < 8 by omega, show ¬i < 16 by omega, show i < 24 by omega, show ¬i - 8 < 8 by omega,
      show i - 16 < 8 by omega, hi, show 16 + (i - 16) = i by omega, show i - 16 < 32 by omega]
  · simp [show ¬i < 8 by omega, show ¬i < 16 by omega, show ¬i < 24 by omega, show ¬i - 8 < 8 by omega,
      show ¬i - 16 < 8 by omega, show i - 24 < 8 by omega, hi, show 24 + (i - 24) = i by omega, show i - 24 < 32 by omega]

/-- The four bytes of a word, least significant first, are fed in as the word is (R141). -/
theorem crcFold_bytes_of_word (r c : Word) :
    crcFold r [c.extractLsb' 0 8, c.extractLsb' 8 8, c.extractLsb' 16 8, c.extractLsb' 24 8] = crcShifts 32 (r ^^^ c) := by
  have hfirst : crcUpd r (c.extractLsb' 0 8) = crcShifts 8 (r ^^^ (c.extractLsb' 0 8).setWidth 32) := rfl
  simp only [crcFold]
  rw [hfirst, crcUpd_crcShifts (by decide), crcUpd_crcShifts (by decide), crcUpd_crcShifts (by decide)]
  simp only [BitVec.xor_assoc]
  rw [← BitVec.xor_assoc ((c.extractLsb' 8 8).setWidth 32 <<< 8), ← BitVec.xor_assoc ((c.extractLsb' 0 8).setWidth 32),
    ← BitVec.xor_assoc ((c.extractLsb' 0 8).setWidth 32), word_of_bytes]

theorem crcShifts_residue : crcShifts 32 0xFFFFFFFF ^^^ crcXorOut = 0x2144DF1C := by
  decide +kernel

/-! ### The obligations -/

/-- Settles O34: eight steps of the register with the byte in it; the table's length and entry are those of the list. -/
theorem tableDrivenUpdate : Obligations.TableDrivenUpdate := by
  refine ⟨fun c m => ?_, ?_, ?_, crcShifts_eight_0x61⟩
  · rw [crcUpd, crcShifts_eight, byte_shifted_out, crcUpdTable]
  · rw [crcTable_eq, List.length_map, List.length_range]
  · rw [crcTable_eq, List.getElem?_map, List.getElem?_range (by decide)]
    decide +kernel

/-- Settles O35: the register and the CRC fed into it differ in every bit, whatever the message. -/
theorem crcResidue : Obligations.CrcResidue := by
  intro ms
  have hall : ∀ r : Word, r ^^^ (r ^^^ crcXorOut) = 0xFFFFFFFF := by
    intro r
    rw [← BitVec.xor_assoc, BitVec.xor_self, BitVec.zero_xor]
    rfl
  simp only [crc32, crcFold_append, crcFold_bytes_of_word, hall]
  exact crcShifts_residue

end Sys2Proof.Machine


/-! PROOFS. The commands one by one: the forms without an encoding (R94), SWAP16 (R210), YAY0 up to its loop (R161 to R163), its
stream operations (R166 to R169), and the canonical form of a memory. -/

namespace Sys2Proof.Machine

/-! ### The forms without an encoding, and SWAP16 -/

theorem countLegal_eq_false_iff {n : BitVec 4} : countLegal n = false ↔ n.toNat = 0 ∨ 8 < n.toNat := by
  rw [Bool.eq_false_iff, ne_eq, countLegal_iff]
  omega

theorem wellFormed_eq_false_iff {i : Instr} (hc : i.isCommand = true) :
    i.wellFormed = false ↔
      i = .yay0 .out ∨ i = .swap16 .out ∨ ∃ b be n, i = .rd b be n ∧ (n.toNat = 0 ∨ 8 < n.toNat) := by
  cases i with
  | nop | crc | crcchk | varu | vars => simp [Instr.wellFormed]
  | yay0 b => cases b <;> simp [Instr.wellFormed, Buf.isInput]
  | swap16 b => cases b <;> simp [Instr.wellFormed, Buf.isInput]
  | rd b be n => simp [Instr.wellFormed, countLegal_eq_false_iff]
  | lit | copy | lcopy | vbCont | vbEnd => cases hc

theorem swapPairs_swapPairs (xs : List Byte) : swapPairs (swapPairs xs) = xs := by
  fun_induction swapPairs xs with
  | case1 x y r ih => rw [swapPairs, ih]
  | case2 r h =>
    match r, h with
    | [], _ => rfl
    | [x], _ => rfl
    | x :: y :: r, h => exact absurd rfl (h x y r)

theorem Memory.byteAt_writeAll_getElem? (b : Buf) (m : Memory) (a : Nat) {vs : List Byte} {i : Nat} {v : Byte}
    (h : vs[i]? = some v) : (m.writeAll a vs).byteAt b (a + i) = v := by
  obtain ⟨hi, hv⟩ := List.getElem?_eq_some_iff.1 h
  rw [Memory.byteAt_writeAll_inside b m a vs hi, hv]

/-- The completion of SWAP16: what OUT holds below LEN, and the registers (R210). -/
theorem exec_swap16_of_inside {b : Buf} {s : State} (hin : b.isInput = true) (hs : s.operandsOk = true)
    (heven : s.len.toNat % 2 = 0) (hle : s.pos.toNat + s.len.toNat ≤ s.bufLen b) (hcap : s.len.toNat ≤ s.outCap.toNat) :
    exec (.swap16 b) s = .next ((((s.withMem .out (s.out.writeAll 0 (swapPairs (s.bytes b s.pos.toNat s.len.toNat)))).withOutLen
      s.len).withResult (zext64 s.len)).complete false) := by
  have hwf : (Instr.swap16 b).wellFormed = true := hin
  have hodd : ¬s.len.toNat % 2 = 1 := by omega
  simp only [exec, execSwap16, State.checked_ok _ hwf hs, if_neg hodd, if_neg (Nat.not_lt.2 hle),
    if_neg (Nat.not_lt.2 hcap)]

/-! ### The header of YAY0 -/

/-- The four magic bytes stand at offset `a` (R161). -/
def MagicAt (x : Nat → Byte) (a : Nat) : Prop := x a = 0x59 ∧ x (a + 1) = 0x61 ∧ x (a + 2) = 0x79 ∧ x (a + 3) = 0x30

theorem bytes_four_eq_magic_iff (s : State) (b : Buf) (a : Nat) : s.bytes b a 4 = yay0Magic ↔ MagicAt (s.byte b) a := by
  simp [State.bytes, yay0Magic, MagicAt]

theorem beNat_bytes_four (s : State) (b : Buf) (a : Nat) : beNat (s.bytes b a 4) = ref32 (s.byte b) a :=
  beNat_four _ _ _ _

/-- The sequencer at the start of the loop, its offsets counted from the base (R163). -/
def State.yay0Start (s : State) (b : Buf) : Yay0Seq where
  size := ref32 (s.byte b) (s.pos.toNat + 4)
  cp := s.pos.toNat + 16
  cw := 0
  cb := 0
  pp := s.pos.toNat + ref32 (s.byte b) (s.pos.toNat + 8)
  kp := s.pos.toNat + ref32 (s.byte b) (s.pos.toNat + 12)
  op := 0

section
variable {s : State} {b : Buf}

theorem State.yay0Header_of_short (h : s.bufLen b < s.pos.toNat + 4) : s.yay0Header b = .error .truncatedInput := by
  simp only [State.yay0Header, State.memRead_of_lt h]

theorem State.yay0Header_of_no_magic (h4 : s.pos.toNat + 4 ≤ s.bufLen b) (hm : ¬MagicAt (s.byte b) s.pos.toNat) :
    s.yay0Header b = .error .malformedHeader := by
  simp only [State.yay0Header, State.memRead_of_le h4]
  exact if_pos (mt (bytes_four_eq_magic_iff s b _).1 hm)

/-- What the header says once both of its reads have passed (R161, R162). -/
theorem State.yay0Header_of_magic (h4 : s.pos.toNat + 4 ≤ s.bufLen b) (hm : MagicAt (s.byte b) s.pos.toNat) :
    s.yay0Header b =
      if s.bufLen b < s.pos.toNat + 16 then .error .truncatedInput
      else if s.outCap.toNat < ref32 (s.byte b) (s.pos.toNat + 4) then .error .boundsViolation
      else .ok (s.yay0Start b) := by
  have hmagic : ¬s.bytes b s.pos.toNat 4 ≠ yay0Magic := not_not.2 ((bytes_four_eq_magic_iff s b _).2 hm)
  simp only [State.yay0Header, State.memRead_of_le h4, if_neg hmagic]
  rcases Nat.lt_or_ge (s.bufLen b) (s.pos.toNat + 16) with hlt | hle
  · rw [if_pos hlt, State.memRead_of_lt (show s.bufLen b < s.pos.toNat + 4 + 12 from hlt)]
  · rw [if_neg (Nat.not_lt.2 hle), State.memRead_of_le (show s.pos.toNat + 4 + 12 ≤ s.bufLen b from hle)]
    have hsize : beNat ((s.bytes b (s.pos.toNat + 4) 12).take 4) = ref32 (s.byte b) (s.pos.toNat + 4) :=
      beNat_bytes_four s b _
    have hpairs : beNat (((s.bytes b (s.pos.toNat + 4) 12).drop 4).take 4) = ref32 (s.byte b) (s.pos.toNat + 8) :=
      beNat_bytes_four s b _
    have hchunks : beNat ((s.bytes b (s.pos.toNat + 4) 12).drop 8) = ref32 (s.byte b) (s.pos.toNat + 12) :=
      beNat_bytes_four s b _
    simp only [hsize, hpairs, hchunks]
    rfl

theorem exec_yay0_of_error {e : ErrKind} (hin : b.isInput = true) (hs : s.operandsOk = true)
    (hh : s.yay0Header b = .error e) : exec (.yay0 b) s = .next (s.afterOwnError e) := by
  have hwf : (Instr.yay0 b).wellFormed = true := hin
  simp only [exec, execYay0, State.checked_ok _ hwf hs, hh, State.raise_emptied]

theorem exec_yay0_of_header {q : Yay0Seq} (hin : b.isInput = true) (hs : s.operandsOk = true)
    (hh : s.yay0Header b = .ok q) : exec (.yay0 b) s = .next (s.yay0Go b q) := by
  have hwf : (Instr.yay0 b).wellFormed = true := hin
  simp only [exec, execYay0, State.checked_ok _ hwf hs, hh]

end

/-! ### The loop of YAY0 -/

section
variable {s : State} {b : Buf} {q : Yay0Seq}

theorem State.yay0Go_of_lt (h : q.op < q.size) : s.yay0Go b q = s.withSeq (.yay0 b q) := if_pos h

theorem State.yay0Go_of_ge (h : q.size ≤ q.op) :
    s.yay0Go b q = ((s.withOutLen (BitVec.ofNat 32 q.size)).withResult (BitVec.ofNat 64 q.size)).complete false :=
  if_neg (Nat.not_lt.2 h)

@[simp] theorem State.yay0Go_byte (a : Nat) (b' : Buf) : (s.yay0Go b q).byte b' a = s.byte b' a := by
  obtain ⟨-, h⟩ | ⟨-, h⟩ := s.yay0Go_cases b q <;> simp [h]

theorem State.yay0Go_out : (s.yay0Go b q).out = s.out := by
  obtain ⟨-, h⟩ | ⟨-, h⟩ := s.yay0Go_cases b q <;> simp [h]

/-- The loop goes on or, when the declared size is produced, completes with it (R164, R169). -/
theorem State.yay0Go_spec (m : Memory) (hsize : q.size < 2 ^ 32) :
    let t := (s.withMem .out m).yay0Go b q
    t.out = m ∧
    (q.op < q.size → t = { s with out := t.out, seq := .yay0 b q }) ∧
    (q.op = q.size → t = { s.afterSuccess false with out := t.out, outLen := t.outLen, result := t.result } ∧
      t.outLen.toNat = q.size ∧ t.result.toNat = q.size) := by
  refine ⟨State.yay0Go_out, fun hlt => ?_, fun heq => ?_⟩
  · rw [State.yay0Go_of_lt hlt]
    rfl
  · rw [State.yay0Go_of_ge heq.ge]
    exact ⟨rfl, (BitVec.toNat_ofNat _ _).trans (Nat.mod_eq_of_lt hsize),
      (BitVec.toNat_ofNat _ _).trans (Nat.mod_eq_of_lt (hsize.trans (by decide)))⟩

theorem exec_lit (k : Byte) (hq : s.seq = .yay0 b q) :
    exec (.lit k) s = .next ((s.withMem .out (s.out.write q.op k)).yay0Go b (q.takeBit.takeChunk.produce 1)) := by
  simp only [exec, execLit, hq]

theorem exec_copy (f : BitVec 4) (d : BitVec 12) (hq : s.seq = .yay0 b q) :
    exec (.copy f d) s = .next (s.yay0Copy b q.takeBit.takePair (f.toNat + 2) d.toNat) := by
  simp only [exec, execCopy, hq]

theorem exec_lcopy (d : BitVec 12) (e : Byte) (hq : s.seq = .yay0 b q) :
    exec (.lcopy d e) s = .next (s.yay0Copy b q.takeBit.takePair.takeChunk (e.toNat + 18) d.toNat) := by
  simp only [exec, execLcopy, hq]

/-- What an error of a stream operation leaves: the flags, OUT_LEN at 0, and OUT from OUT_CAP on (R233). -/
theorem State.raise_frame (s : State) (e : ErrKind) {o : OutEffect} (ho : o ≠ .kept) :
    let t := s.raise e o
    Failed t e ∧ t.outLen = 0 ∧ t.pos = s.pos ∧ t.result = s.result ∧ SameSetup s t ∧ SameOutside s t ∧
      t.src = s.src ∧ t.pat = s.pat ∧ ∀ a, s.outCap.toNat ≤ a → t.byte .out a = s.byte .out a := by
  refine ⟨by simp [Failed], ?_, by simp, by simp, by simp [SameSetup], by simp [SameOutside], by simp, by simp,
    fun a ha => s.raise_byte_out_above e o ha⟩
  cases o with
  | kept => exact absurd rfl ho
  | emptied => rfl
  | voided => rfl

end

/-! ### The overlapping copy (R69) -/

theorem copyLoop_repeats {d size n : Nat} {m m' : Memory} {op : Nat} (h : copyLoop d size n m op = some m')
    (hd : d + 1 ≤ op) {j : Nat} (hj : j < n) :
    m'.byteAt .out (op + j) = m.byteAt .out (op - (d + 1) + j % (d + 1)) := by
  induction j using Nat.strong_induction_on with
  | _ j ih =>
    rw [copyLoop_inside h hd hj]
    rcases Nat.lt_or_ge j (d + 1) with hlt | hge
    · rw [Nat.mod_eq_of_lt hlt, show op + j - d - 1 = op - (d + 1) + j by omega]
      exact copyLoop_outside h (.inl (by omega))
    · rw [Nat.mod_eq_sub_mod hge, ← ih (j - (d + 1)) (by omega) (by omega),
        show op + j - d - 1 = op + (j - (d + 1)) by omega]

/-! ### The canonical form of a memory -/

/-- Cells that rise strictly are determined by the bytes they know. -/
theorem cells_unique {lo : Nat} {cs ds : List Host.Cell} (hc : cellsFrom lo cs = true) (hd : cellsFrom lo ds = true)
    (h : ∀ a, cellAt cs a = cellAt ds a) : cs = ds := by
  induction cs generalizing lo ds with
  | nil =>
    cases ds with
    | nil => rfl
    | cons d ds =>
      have := h d.1
      simp [cellAt] at this
  | cons c cs ih =>
    cases ds with
    | nil =>
      have := h c.1
      simp [cellAt] at this
    | cons d ds =>
      obtain ⟨a, v⟩ := c
      obtain ⟨a', v'⟩ := d
      simp only [cellsFrom, Bool.and_eq_true, decide_eq_true_eq] at hc hd
      have hfirst : a = a' := by
        rcases Nat.lt_trichotomy a a' with hlt | heq | hgt
        · have := h a
          rw [cellAt, if_pos rfl, cellAt, if_neg (by omega), cellAt_none_of_from hd.2 (by omega)] at this
          cases this
        · exact heq
        · have := h a'
          rw [cellAt, if_neg (by omega), cellAt_none_of_from hc.2 (by omega), cellAt, if_pos rfl] at this
          cases this
      subst hfirst
      have hv : v = v' := by simpa [cellAt] using h a
      subst hv
      have hrest : cs = ds := ih hc.2 hd.2 fun x => by
        by_cases hx : a = x
        · subst hx
          rw [cellAt_none_of_from hc.2 (Nat.lt_succ_self a), cellAt_none_of_from hd.2 (Nat.lt_succ_self a)]
        · simpa [cellAt, hx] using h x
      rw [hrest]

theorem staleAt_none_of_from {lo : Nat} {rs : List StaleRange} (h : staleFrom lo rs = true) {a : Nat} (ha : a < lo) :
    staleAt rs a = none := by
  induction rs generalizing lo with
  | nil => rfl
  | cons r rs ih =>
    simp only [staleFrom, Bool.and_eq_true, decide_eq_true_eq] at h
    rw [staleAt, if_neg (by omega), ih h.2 (by omega)]

theorem staleAt_head {r : StaleRange} {rs : List StaleRange} {a : Nat} (hlo : r.lo ≤ a) (hhi : a < r.hi) :
    staleAt (r :: rs) a = some r.epoch := if_pos ⟨hlo, hhi⟩

section
variable {lo : Nat} {r : StaleRange} {rs : List StaleRange} (h : staleFrom lo (r :: rs) = true)
include h

theorem staleAt_below_head {a : Nat} (ha : a < r.lo) : staleAt (r :: rs) a = none := by
  simp only [staleFrom, Bool.and_eq_true, decide_eq_true_eq] at h
  exact staleAt_none_of_from (lo := r.lo) (by simp [staleFrom, h]) ha

/-- A range ends where its event does: what follows does not continue it. -/
theorem staleAt_head_end : staleAt (r :: rs) r.hi ≠ some r.epoch := by
  simp only [staleFrom, Bool.and_eq_true, decide_eq_true_eq] at h
  obtain ⟨⟨-, hgap⟩, hrest⟩ := h
  rw [staleAt, if_neg (by omega)]
  cases rs with
  | nil => nofun
  | cons q qs =>
    simp only [staleGap, Bool.or_eq_true, decide_eq_true_eq] at hgap
    simp only [staleFrom, Bool.and_eq_true, decide_eq_true_eq] at hrest
    rcases hgap with hlt | hne
    · rw [staleAt_below_head (lo := r.hi) (by simp [staleFrom, hrest]) hlt]
      nofun
    · rcases Nat.lt_or_ge r.hi q.lo with hlt | hge
      · rw [staleAt_below_head (lo := r.hi) (by simp [staleFrom, hrest]) hlt]
        nofun
      · rw [staleAt, if_pos (by omega)]
        exact fun heq => hne (Option.some.inj heq).symm

end

/-- Ranges that rise and do not continue each other are determined by the event each offset belongs to. -/
theorem stale_unique {lo : Nat} {rs qs : List StaleRange} (hr : staleFrom lo rs = true) (hq : staleFrom lo qs = true)
    (h : ∀ a, staleAt rs a = staleAt qs a) : rs = qs := by
  induction rs generalizing lo qs with
  | nil =>
    cases qs with
    | nil => rfl
    | cons q qs =>
      have hpos : q.lo < q.hi := by simp only [staleFrom, Bool.and_eq_true, decide_eq_true_eq] at hq; omega
      exact absurd ((h q.lo).trans (staleAt_head (Nat.le_refl _) hpos)) nofun
  | cons r rs ih =>
    have hrpos : r.lo < r.hi := by simp only [staleFrom, Bool.and_eq_true, decide_eq_true_eq] at hr; omega
    have hrlo := staleAt_head (rs := rs) (Nat.le_refl _) hrpos
    cases qs with
    | nil => exact absurd (hrlo.symm.trans (h r.lo)) nofun
    | cons q qs =>
      have hqpos : q.lo < q.hi := by simp only [staleFrom, Bool.and_eq_true, decide_eq_true_eq] at hq; omega
      have hqlo := staleAt_head (rs := qs) (Nat.le_refl _) hqpos
      have hlo : r.lo = q.lo := by
        rcases Nat.lt_trichotomy r.lo q.lo with hlt | heq | hgt
        · exact absurd (hrlo.symm.trans ((h r.lo).trans (staleAt_below_head hq hlt))) nofun
        · exact heq
        · exact absurd (hqlo.symm.trans ((h q.lo).symm.trans (staleAt_below_head hr hgt))) nofun
      have hepoch : r.epoch = q.epoch := by
        rw [hlo] at hrlo
        exact Option.some.inj (hrlo.symm.trans ((h q.lo).trans hqlo))
      have hhi : r.hi = q.hi := by
        rcases Nat.lt_trichotomy r.hi q.hi with hlt | heq | hgt
        · exact absurd ((h r.hi).trans ((staleAt_head (by omega) hlt).trans (congrArg some hepoch.symm)))
            (staleAt_head_end hr)
        · exact heq
        · exact absurd ((h q.hi).symm.trans ((staleAt_head (by omega) hgt).trans (congrArg some hepoch)))
            (staleAt_head_end hq)
      have hrq : r = q := by
        cases r
        cases q
        simp_all
      subst hrq
      simp only [staleFrom, Bool.and_eq_true, decide_eq_true_eq] at hr hq
      have hrest : rs = qs := ih hr.2 hq.2 fun a => by
        rcases Nat.lt_or_ge a r.hi with hlt | hge
        · rw [staleAt_none_of_from hr.2 hlt, staleAt_none_of_from hq.2 hlt]
        · have := h a
          rwa [staleAt, if_neg (by omega), staleAt, if_neg (by omega)] at this
      rw [hrest]

/-! ### The obligations -/

/-- Settles O27: the side conditions of the eight commands, and the check that every command begins with. -/
theorem illFormedCommandsRaiseIllegalCommand : Obligations.IllFormedCommandsRaiseIllegalCommand := by
  intro i s hc
  exact ⟨wellFormed_eq_false_iff hc, fun h => exec_command_of_check_fails hc (.inl h)⟩

/-- Settles O48: SWAP16 writes the exchanged pairs in one run of writes from offset 0. -/
theorem swap16ExchangesPairs : Obligations.Swap16ExchangesPairs := by
  intro b s hb hs heven hle hcap
  refine ⟨_, exec_swap16_of_inside (isInput_iff.2 hb) hs heven hle hcap, ?pairs, ?beyond, ?frame⟩
  case pairs =>
    intro i hi
    have hlt : 2 * i + 1 < (s.bytes b s.pos.toNat s.len.toNat).length := by rw [State.bytes_length]; omega
    obtain ⟨hfirst, hsecond⟩ := swapPairs_getElem? _ hlt
    rw [State.bytes_getElem? _ _ _ _ (by omega)] at hfirst hsecond
    have h0 := Memory.byteAt_writeAll_getElem? .out s.out 0 hfirst
    have h1 := Memory.byteAt_writeAll_getElem? .out s.out 0 hsecond
    rw [Nat.zero_add] at h0 h1
    exact ⟨h0, h1⟩
  case beyond =>
    intro a ha
    exact Memory.byteAt_writeAll_outside .out s.out 0 _ (.inr (by rw [swapPairs_length, State.bytes_length]; omega))
  case frame =>
    rw [zext64_eq_ofNat]
    rfl

/-- Settles O36: the header's answer decides, and the loop's condition holds exactly for a declared size above 0. -/
theorem yay0ChecksAndStarts : Obligations.Yay0ChecksAndStarts := by
  intro b s hb hs
  have hin : b.isInput = true := isInput_iff.2 hb
  refine ⟨?short, ?noMagic, ?shortHeader, ?tooLarge, ?starts, ?empty⟩
  case short =>
    intro h
    exact exec_yay0_of_error hin hs (State.yay0Header_of_short h)
  case noMagic =>
    intro h4 hm
    exact exec_yay0_of_error hin hs (State.yay0Header_of_no_magic h4 hm)
  case shortHeader =>
    intro h4 hm h16
    exact exec_yay0_of_error hin hs ((State.yay0Header_of_magic h4 hm).trans (if_pos h16))
  all_goals
    intro h16 hm
    have hheader := (State.yay0Header_of_magic (by omega) hm).trans (if_neg (Nat.not_lt.2 h16))
  case tooLarge =>
    intro hcap
    exact exec_yay0_of_error hin hs (hheader.trans (if_pos hcap))
  case starts =>
    intro hcap hpos
    have hgo := State.yay0Go_of_lt (s := s) (b := b) (q := s.yay0Start b) hpos
    exact (exec_yay0_of_header hin hs (hheader.trans (if_neg (Nat.not_lt.2 hcap)))).trans (congrArg _ hgo)
  case empty =>
    intro hzero
    have hcap : ¬s.outCap.toNat < ref32 (s.byte b) (s.pos.toNat + 4) := by omega
    have hgo := State.yay0Go_of_ge (s := s) (b := b) (q := s.yay0Start b) hzero.le
    have hsize : (s.yay0Start b).size = 0 := hzero
    rw [exec_yay0_of_header hin hs (hheader.trans (if_neg hcap)), hgo, hsize]
    rfl

/-- Settles O37: one write at the output position, and then the loop's condition. -/
theorem litAppendsOneByte : Obligations.LitAppendsOneByte := by
  intro k s b q hq hlt hsize
  obtain ⟨hout, hgoes, hends⟩ := State.yay0Go_spec (s := s) (b := b) (q := q.takeBit.takeChunk.produce 1)
    (s.out.write q.op k) hsize
  refine ⟨_, exec_lit k hq, ?_, ?_, hgoes, hends⟩
  · rw [State.byte, State.mem_out, hout, Memory.byteAt_write_same]
  · intro a ha
    rw [State.byte, State.mem_out, hout, Memory.byteAt_write_other _ _ _ ha]
    rfl

/-- What COPY and LCOPY share, by the two checks (R167, R168). -/
theorem State.yay0Copy_spec (s : State) (b : Buf) (q : Yay0Seq) {n d : Nat} (hn : n ≠ 0) (hsize : q.size < 2 ^ 32) :
    let t := s.yay0Copy b q n d
    (q.op < d + 1 → Failed t .badReference) ∧
    (d + 1 ≤ q.op → q.size < q.op + n → Failed t .boundsViolation) ∧
    (q.op < d + 1 ∨ q.size < q.op + n →
      t.outLen = 0 ∧ t.pos = s.pos ∧ t.result = s.result ∧ SameSetup s t ∧ SameOutside s t ∧
        t.src = s.src ∧ t.pat = s.pat ∧ ∀ a, s.outCap.toNat ≤ a → t.byte .out a = s.byte .out a) ∧
    (d + 1 ≤ q.op → q.op + n ≤ q.size →
      (∀ j, j < n → t.byte .out (q.op + j) = t.byte .out (q.op + j - d - 1)) ∧
      (∀ a, a < q.op ∨ q.op + n ≤ a → t.byte .out a = s.byte .out a) ∧
      (q.op + n < q.size → t = { s with out := t.out, seq := .yay0 b (q.produce n) }) ∧
      (q.op + n = q.size →
        t = { s.afterSuccess false with out := t.out, outLen := t.outLen, result := t.result } ∧
          t.outLen.toNat = q.size ∧ t.result.toNat = q.size)) := by
  obtain ⟨hbad, h⟩ | ⟨hd, hover, h⟩ | ⟨hd, hfits, m, hm, h⟩ := s.yay0Copy_cases b q n d
  · obtain ⟨hfailed, hframe⟩ := s.raise_frame .badReference q.outEffect_ne_kept
    simp only [h]
    exact ⟨fun _ => hfailed, fun hge => absurd hge (by omega), fun _ => hframe, fun hge => absurd hge (by omega)⟩
  · obtain ⟨hfailed, hframe⟩ := s.raise_frame .boundsViolation (o := .voided) nofun
    simp only [h]
    exact ⟨fun hlt => absurd hlt (by omega), fun _ _ => hfailed, fun _ => hframe, fun _ hle => absurd hle (by omega)⟩
  · obtain ⟨hout, hgoes, hends⟩ := State.yay0Go_spec (s := s) (b := b) (q := q.produce n) m hsize
    simp only [h]
    refine ⟨fun hlt => absurd hlt (by omega), fun _ hlt => absurd hlt (by omega), fun hlt => absurd hlt (by omega),
      fun _ _ => ⟨?_, ?_, hgoes, hends⟩⟩
    · intro j hj
      rw [State.byte, State.byte, State.mem_out, hout]
      exact copyLoop_inside hm hd hj
    · intro a ha
      rw [State.byte, State.mem_out, hout]
      exact copyLoop_outside hm ha

/-- Settles O38: both forms are the shared copy, with their lengths and cursors. -/
theorem copiesAppendBytes : Obligations.CopiesAppendBytes := by
  intro i n d ext s b q hi hq _ hsize
  obtain ⟨f, dd, rfl, -, rfl, rfl, rfl⟩ | ⟨dd, e, rfl, rfl, rfl, rfl⟩ := hi
  · exact ⟨_, exec_copy f dd hq, s.yay0Copy_spec b q.takeBit.takePair (by omega) hsize⟩
  · exact ⟨_, exec_lcopy dd e hq, s.yay0Copy_spec b q.takeBit.takePair.takeChunk (by omega) hsize⟩

/-- Settles O39: by induction on the byte of the copy, going back one distance at a time. -/
theorem overlappingCopyRepeats : Obligations.OverlappingCopyRepeats :=
  fun _ _ _ _ _ _ hd h _ hj => copyLoop_repeats h hd hj

/-- Settles O59: cells and ranges in canonical form are each determined by what they say of every offset. -/
theorem canonicalMemoryIsUnique : Obligations.CanonicalMemoryIsUnique := by
  intro m m' hm hm' hcells hstale
  obtain ⟨hmc, hms, -⟩ := m.wf_iff.1 hm
  obtain ⟨hmc', hms', -⟩ := m'.wf_iff.1 hm'
  cases m
  cases m'
  rw [Memory.mk.injEq]
  exact ⟨cells_unique hmc hmc' hcells, stale_unique hms hms' hstale⟩

end Sys2Proof.Machine


/-! PROOFS. What every instruction can do, said once, and what follows from it: the frames (R22, R31, R61), and the errors a command
can raise (R232). -/

namespace Sys2Proof.Machine

/-! ### Writes below a bound -/

/-- `m'` is `m` after writes of single bytes at offsets below `n`. -/
inductive WrittenBelow (n : Nat) (m : Memory) : Memory → Prop where
  | refl : WrittenBelow n m m
  | write {m' : Memory} {a : Nat} (v : Byte) (h : WrittenBelow n m m') (ha : a < n) : WrittenBelow n m (m'.write a v)

section
variable {n k : Nat} {m m' m'' : Memory}

theorem WrittenBelow.trans (h : WrittenBelow n m m') (h' : WrittenBelow n m' m'') : WrittenBelow n m m'' := by
  induction h' with
  | refl => exact h
  | write v _ ha ih => exact .write v ih ha

theorem WrittenBelow.mono (h : WrittenBelow n m m') (hk : n ≤ k) : WrittenBelow k m m' := by
  induction h with
  | refl => exact .refl
  | write v _ ha ih => exact .write v ih (by omega)

theorem WrittenBelow.byteAt_above (h : WrittenBelow n m m') (b : Buf) {a : Nat} (ha : n ≤ a) :
    m'.byteAt b a = m.byteAt b a := by
  induction h with
  | refl => rfl
  | write v _ ha' ih => rw [Memory.byteAt_write_other _ _ _ (by omega), ih]

theorem WrittenBelow.wf (h : WrittenBelow n m m') (hm : m.wf = true) : m'.wf = true := by
  induction h with
  | refl => exact hm
  | write v _ _ ih => exact Memory.write_wf _ v ih

theorem WrittenBelow.cells (h : WrittenBelow n m m') {c : Host.Cell} (hc : c ∈ m'.cells) : c.1 < n ∨ c ∈ m.cells := by
  induction h with
  | refl => exact .inr hc
  | write v _ ha ih =>
    rcases Memory.write_cells hc with heq | hc
    · exact .inl (heq ▸ ha)
    · exact ih hc

theorem WrittenBelow.epochs (h : WrittenBelow n m m') (hm : ∀ r ∈ m.stale, r.epoch < k) :
    ∀ r ∈ m'.stale, r.epoch < k := by
  induction h with
  | refl => exact hm
  | write v _ _ ih => exact Memory.write_epochs ih

theorem writtenBelow_writeAll (m : Memory) (a : Nat) (vs : List Byte) :
    WrittenBelow (a + vs.length) m (m.writeAll a vs) := by
  induction vs generalizing m a with
  | nil => exact .refl
  | cons v vs ih =>
    rw [List.length_cons]
    exact (WrittenBelow.write v .refl (by omega)).trans ((ih (m.write a v) (a + 1)).mono (by omega))

theorem writtenBelow_copyLoop {d size op : Nat} (h : copyLoop d size k m op = some m') : WrittenBelow (op + k) m m' := by
  induction k generalizing m op with
  | zero => cases h; exact .refl
  | succ k ih =>
    rw [copyLoop] at h
    split at h
    · cases h
    · exact (WrittenBelow.write _ .refl (by omega)).trans ((ih h).mono (by omega))

end

/-! ### The outcomes of an instruction -/

/-- The instructions that write OUT or OUT_LEN (R61): YAY0 with its operations, and SWAP16. -/
def writesOut : Instr → Bool
  | .yay0 _ | .swap16 _ | .lit _ | .copy _ _ | .lcopy _ _ => true
  | .nop | .crc _ | .crcchk _ _ | .varu _ | .vars _ | .rd _ _ _ | .vbCont _ | .vbEnd _ => false

/-- The instructions that write POS (R61): RD and the end of a varint. -/
def movesPos : Instr → Bool
  | .rd _ _ _ | .vbEnd _ => true
  | .nop | .crc _ | .crcchk _ _ | .yay0 _ | .varu _ | .vars _ | .swap16 _ | .lit _ | .copy _ _ | .lcopy _ _ | .vbCont _ =>
    false

/-- The errors an instruction can raise: for a command those R232 lists, for a stream operation its share of them. -/
def raisable : Instr → List ErrKind
  | .copy _ _ | .lcopy _ _ => [.badReference, .boundsViolation]
  | .vbCont _ | .vbEnd _ => [.varintOverflow]
  | i => errorsOf i

/-- A stream operation's effect on the sequencer: it consumes a control bit and produces at least one byte, but none beyond the
declared size. -/
structure Yay0Seq.Advances (q q' : Yay0Seq) : Prop where
  size : q'.size = q.size
  cb : q'.cb ≤ q.cb
  produced : q.op < q'.op
  bounded : q.op < q.size → q'.op ≤ q'.size

/-- The states the instruction `i` can lead to from `s`. -/
inductive ExecNext (s : State) : Instr → State → Prop where
  | raises {i : Instr} {e : ErrKind} {o : OutEffect} (he : e ∈ raisable i) (ho : o = .kept ∨ writesOut i = true) :
      ExecNext s i (s.raise e o)
  | mismatch (b : Buf) (result : DWord) :
      ExecNext s (.crcchk b false) ((s.withResult result).raise .checksumMismatch .kept)
  | computes (i : Instr) (result : DWord) (matched : Bool) : ExecNext s i ((s.withResult result).complete matched)
  | reads {i : Instr} (hi : movesPos i = true) (result : DWord) (pos : Word) :
      ExecNext s i (((s.withResult result).withPos pos).complete false)
  | swaps (b : Buf) (m : Memory) (result : DWord) (hs : s.operandsOk = true) (hlen : s.len.toNat ≤ s.outCap.toNat)
      (hm : WrittenBelow s.len.toNat s.out m) :
      ExecNext s (.swap16 b) ((((s.withMem .out m).withOutLen s.len).withResult result).complete false)
  | startsVarint (signed : Bool) (b : Buf) (hs : s.operandsOk = true) :
      ExecNext s (varintCommand signed b) (s.varintStart signed b)
  | addsVarint (v : BitVec 7) {signed : Bool} {b : Buf} {q : VarintSeq} (hq : s.seq = .varint signed b q)
      (hfits : q.data + v.toNat * q.shift + q.shift * 128 < 2 ^ 64) :
      ExecNext s (.vbCont v) (s.withSeq (.varint signed b
        { p := q.p + 1, data := q.data + v.toNat * q.shift + q.shift * 128, shift := q.shift * 128 }))
  | startsYay0 (b : Buf) (q : Yay0Seq) (hs : s.operandsOk = true) (hsize : q.size ≤ s.outCap.toNat) (hop : q.op = 0)
      (hcb : q.cb = 0) : ExecNext s (.yay0 b) (s.yay0Go b q)
  | produces {i : Instr} (hi : IsYay0Op i) {b : Buf} {q : Yay0Seq} (q' : Yay0Seq) (m : Memory) (hq : s.seq = .yay0 b q)
      (hadv : q.Advances q') (hm : WrittenBelow q'.op s.out m) : ExecNext s i ((s.withMem .out m).yay0Go b q')

/-! ### Each instruction has one of these outcomes -/

section
variable {s t : State} {i : Instr} {b : Buf}

/-- It is enough to look at the command's own steps: what the checks before them do is IllegalCommand, with OUT kept. -/
theorem ExecNext.of_checked {own : Result} (hi : ErrKind.illegalCommand ∈ raisable i) (h : s.checked i own = .next t)
    (hown : s.operandsOk = true → own = .next t → ExecNext s i t) : ExecNext s i t := by
  obtain ⟨-, hs, hc⟩ | ⟨-, hc⟩ := s.checked_cases i own
  · exact hown hs (hc ▸ h)
  · cases hc ▸ h
    exact .raises hi (.inl rfl)

/-- A failing read of a command that leaves OUT alone (R66). -/
theorem ExecNext.of_memRead {a n : Nat} {e : ErrKind} (hr : s.memRead b a n = .error e)
    (hi : ErrKind.truncatedInput ∈ raisable i) : ExecNext s i (s.raise e .kept) := by
  obtain ⟨-, rfl⟩ := State.memRead_error_iff.1 hr
  exact .raises hi (.inl rfl)

theorem execNext_nop (h : execNop s = .next t) : ExecNext s .nop t := by
  refine .of_checked (by decide) h fun _ h => ?_
  cases h
  exact .computes _ s.result false

theorem execNext_crc (h : execCrc b s = .next t) : ExecNext s (.crc b) t := by
  refine .of_checked (by simp [raisable, errorsOf]) h fun _ h => ?_
  split at h <;> cases h
  · next hr => exact .of_memRead hr (by simp [raisable, errorsOf])
  · exact .computes _ _ _

theorem execNext_crcchk {ign : Bool} (h : execCrcchk b ign s = .next t) : ExecNext s (.crcchk b ign) t := by
  refine .of_checked (by simp [raisable, errorsOf]) h fun _ h => ?_
  split at h
  · next hr =>
    cases h
    exact .of_memRead hr (by simp [raisable, errorsOf])
  · dsimp only at h
    split at h
    · next hc =>
      obtain ⟨-, hign⟩ := hc
      cases h
      subst hign
      exact .mismatch b _
    · cases h
      exact .computes _ _ _

theorem State.yay0Header_ok {q : Yay0Seq} (h : s.yay0Header b = .ok q) :
    q.size ≤ s.outCap.toNat ∧ q.op = 0 ∧ q.cb = 0 := by
  unfold State.yay0Header at h
  dsimp only at h
  split at h
  · cases h
  · split at h
    · cases h
    · split at h
      · cases h
      · split_ifs at h with hcap
        cases h
        exact ⟨Nat.not_lt.1 hcap, rfl, rfl⟩

theorem execNext_yay0 (h : execYay0 b s = .next t) : ExecNext s (.yay0 b) t := by
  refine .of_checked (by simp [raisable, errorsOf]) h fun hs h => ?_
  split at h <;> cases h
  · next hh =>
    refine .raises ?_ (.inr rfl)
    obtain rfl | rfl | rfl := State.yay0Header_error hh <;> simp [raisable, errorsOf]
  · next hh =>
    obtain ⟨hsize, hop, hcb⟩ := State.yay0Header_ok hh
    exact .startsYay0 b _ hs hsize hop hcb

theorem execNext_varu (h : execVaru b s = .next t) : ExecNext s (.varu b) t := by
  refine .of_checked (by simp [raisable, errorsOf]) h fun hs h => ?_
  cases h
  exact .startsVarint false b hs

theorem execNext_vars (h : execVars b s = .next t) : ExecNext s (.vars b) t := by
  refine .of_checked (by simp [raisable, errorsOf]) h fun hs h => ?_
  cases h
  exact .startsVarint true b hs

theorem execNext_swap16 (h : execSwap16 b s = .next t) : ExecNext s (.swap16 b) t := by
  refine .of_checked (by simp [raisable, errorsOf]) h fun hs h => ?_
  dsimp only at h
  split_ifs at h with _ _ hcap <;> cases h
  · exact .raises (by simp [raisable, errorsOf]) (.inr rfl)
  · exact .raises (by simp [raisable, errorsOf]) (.inr rfl)
  · exact .raises (by simp [raisable, errorsOf]) (.inr rfl)
  · refine .swaps b _ _ hs (Nat.not_lt.1 hcap) ?_
    simpa using writtenBelow_writeAll s.out 0 (swapPairs (s.bytes b s.pos.toNat s.len.toNat))

theorem execNext_rd {be : Bool} {n : BitVec 4} (h : execRd b be n s = .next t) : ExecNext s (.rd b be n) t := by
  refine .of_checked (by simp [raisable, errorsOf]) h fun _ h => ?_
  split at h <;> cases h
  · next hr => exact .of_memRead hr (by simp [raisable, errorsOf])
  · exact .reads rfl _ _

theorem execNext_lit {k : Byte} (h : execLit k s = .next t) : ExecNext s (.lit k) t := by
  unfold execLit at h
  split at h <;> cases h
  next b q hq =>
  refine .produces (.inl ⟨k, rfl⟩) _ _ hq ⟨rfl, Nat.sub_le _ _, Nat.lt_succ_self _, fun hlt => hlt⟩ ?_
  exact .write k .refl (Nat.lt_succ_self _)

/-- COPY and LCOPY, `q'` the sequencer with its cursors past the operation. -/
theorem execNext_yay0Copy {q q' : Yay0Seq} {n d : Nat} (hi : IsYay0Op i) (hout : writesOut i = true)
    (hkinds : raisable i = [.badReference, .boundsViolation]) (hq : s.seq = .yay0 b q) (hn : n ≠ 0)
    (hsize : q'.size = q.size) (hcb : q'.cb ≤ q.cb) (hop : q'.op = q.op) : ExecNext s i (s.yay0Copy b q' n d) := by
  obtain ⟨-, h⟩ | ⟨-, -, h⟩ | ⟨-, hfits, m, hm, h⟩ := s.yay0Copy_cases b q' n d
  · exact h ▸ .raises (by simp [hkinds]) (.inr hout)
  · exact h ▸ .raises (by simp [hkinds]) (.inr hout)
  · refine h ▸ .produces hi (q'.produce n) m hq ⟨hsize, hcb, ?_, fun _ => ?_⟩ (writtenBelow_copyLoop hm)
    · rw [Yay0Seq.produce_op]
      omega
    · rw [Yay0Seq.produce_op, Yay0Seq.produce_size]
      omega

theorem execNext_copy {f : BitVec 4} {d : BitVec 12} (h : execCopy f d s = .next t) : ExecNext s (.copy f d) t := by
  unfold execCopy at h
  split at h <;> cases h
  next b q hq =>
  exact execNext_yay0Copy (.inr (.inl ⟨f, d, rfl⟩)) rfl rfl hq (by omega) rfl (Nat.sub_le _ _) rfl

theorem execNext_lcopy {d : BitVec 12} {e : Byte} (h : execLcopy d e s = .next t) : ExecNext s (.lcopy d e) t := by
  unfold execLcopy at h
  split at h <;> cases h
  next b q hq =>
  exact execNext_yay0Copy (.inr (.inr ⟨d, e, rfl⟩)) rfl rfl hq (by omega) rfl (Nat.sub_le _ _) rfl

theorem execNext_vbCont {v : BitVec 7} (h : execVbCont v s = .next t) : ExecNext s (.vbCont v) t := by
  unfold execVbCont at h
  split at h
  · next hq =>
    dsimp only at h
    split_ifs at h with _ hfits <;> cases h
    · exact .raises (by simp [raisable]) (.inl rfl)
    · exact .raises (by simp [raisable]) (.inl rfl)
    · exact .addsVarint v hq (Nat.not_le.1 hfits)
  · cases h

theorem execNext_vbEnd {v : BitVec 7} (h : execVbEnd v s = .next t) : ExecNext s (.vbEnd v) t := by
  unfold execVbEnd at h
  split at h
  · dsimp only at h
    split_ifs at h <;> cases h
    · exact .raises (by simp [raisable]) (.inl rfl)
    · exact .reads rfl _ _
  · cases h

theorem execNext_of_exec (h : exec i s = .next t) : ExecNext s i t := by
  cases i with
  | nop => exact execNext_nop h
  | crc => exact execNext_crc h
  | crcchk => exact execNext_crcchk h
  | yay0 => exact execNext_yay0 h
  | varu => exact execNext_varu h
  | vars => exact execNext_vars h
  | swap16 => exact execNext_swap16 h
  | rd => exact execNext_rd h
  | lit => exact execNext_lit h
  | copy => exact execNext_copy h
  | lcopy => exact execNext_lcopy h
  | vbCont => exact execNext_vbCont h
  | vbEnd => exact execNext_vbEnd h

/-! ### Frames -/

theorem BlockNext.sameSetup (h : BlockNext s t) : SameSetup s t := by
  cases h <;> simp [SameSetup]

theorem BlockNext.sameOutside (h : BlockNext s t) : SameOutside s t := by
  cases h <;> simp [SameOutside]

theorem BlockNext.inputs (h : BlockNext s t) : t.src = s.src ∧ t.pat = s.pat := by
  cases h <;> simp

theorem writesOut_of_isYay0Op (h : IsYay0Op i) : writesOut i = true := by
  obtain ⟨k, rfl⟩ | ⟨f, d, rfl⟩ | ⟨d, e, rfl⟩ := h <;> rfl

theorem State.raise_kept_out (s : State) (e : ErrKind) :
    (s.raise e .kept).out = s.out ∧ (s.raise e .kept).outLen = s.outLen ∧ (s.raise e .kept).freeCount = s.freeCount :=
  ⟨rfl, rfl, rfl⟩

theorem ExecNext.out_of_not_writesOut (h : ExecNext s i t) (hi : writesOut i = false) :
    t.out = s.out ∧ t.outLen = s.outLen ∧ t.freeCount = s.freeCount := by
  cases h with
  | raises _ ho =>
    obtain rfl | hout := ho
    · exact s.raise_kept_out _
    · exact absurd (hi.symm.trans hout) Bool.false_ne_true
  | mismatch => exact State.raise_kept_out _ _
  | computes | reads | startsVarint | addsVarint => exact ⟨rfl, rfl, rfl⟩
  | swaps | startsYay0 => cases hi
  | produces hi' => exact absurd (hi.symm.trans (writesOut_of_isYay0Op hi')) Bool.false_ne_true

theorem State.yay0Go_pos (s : State) (b : Buf) (q : Yay0Seq) : (s.yay0Go b q).pos = s.pos := by
  obtain ⟨-, h⟩ | ⟨-, h⟩ := s.yay0Go_cases b q <;> simp [h]

theorem ExecNext.pos_of_not_movesPos (h : ExecNext s i t) (hi : movesPos i = false) : t.pos = s.pos := by
  cases h with
  | raises => exact s.raise_pos _ _
  | mismatch => exact State.raise_pos _ _ _
  | reads hi' => exact absurd (hi.symm.trans hi') Bool.false_ne_true
  | computes | swaps | startsVarint | addsVarint => rfl
  | startsYay0 => exact s.yay0Go_pos _ _
  | produces => exact State.yay0Go_pos _ _ _

/-! ### The errors -/

/-- An instruction that starts without an error in ERRCODE raises none but its own. -/
theorem ExecNext.errcode_mem {e : ErrKind} (h : ExecNext s i t) (hn : s.errcode = none) (he : t.errcode = some e) :
    e ∈ raisable i := by
  have hnone (hs : t.errcode = none) : e ∈ raisable i := absurd (hs.symm.trans he) nofun
  cases h with
  | raises he' => cases he; exact he'
  | mismatch => cases he; simp [raisable, errorsOf]
  | computes | reads | swaps => exact hnone rfl
  | startsVarint | addsVarint => exact hnone hn
  | startsYay0 b q => exact hnone (s.yay0Go_errcode b q hn)
  | produces _ q' m => exact hnone ((s.withMem .out m).yay0Go_errcode _ q' hn)

end

theorem raisable_of_isCommand {i : Instr} (h : i.isCommand = true) : raisable i = errorsOf i := by
  cases i with
  | nop | crc | crcchk | yay0 | varu | vars | swap16 | rd => rfl
  | lit | copy | lcopy | vbCont | vbEnd => cases h

theorem raisable_yay0Op {i : Instr} (b : Buf) (h : IsYay0Op i) : raisable i ⊆ errorsOf (.yay0 b) := by
  obtain ⟨k, rfl⟩ | ⟨f, d, rfl⟩ | ⟨d, e, rfl⟩ := h <;> simp [raisable, errorsOf]

theorem raisable_varintByte {i : Instr} (signed : Bool) (b : Buf) (h : IsVarintByte i) :
    raisable i ⊆ errorsOf (varintCommand signed b) := by
  obtain ⟨v, rfl⟩ | ⟨v, rfl⟩ := h <;> cases signed <;> simp [raisable, errorsOf, varintCommand]

theorem truncatedInput_mem_errorsOf_varint (signed : Bool) (b : Buf) :
    ErrKind.truncatedInput ∈ errorsOf (varintCommand signed b) := by
  cases signed <;> simp [varintCommand, errorsOf]

/-- The error `e` is listed for the command in flight, or is IllegalCommand where there is none (R232). -/
def ListedError (s : State) (e : ErrKind) : Prop :=
  (∀ i, decode (.command s.cmd) = .ok i → e ∈ errorsOf i) ∧ ((¬∃ i, decode (.command s.cmd) = .ok i) → e = .illegalCommand)

theorem ListedError.of_decode {s : State} {e : ErrKind} {i : Instr} (hd : decode (.command s.cmd) = .ok i)
    (he : e ∈ errorsOf i) : ListedError s e := by
  refine ⟨fun j hj => ?_, fun hno => absurd ⟨i, hd⟩ hno⟩
  cases hd.symm.trans hj
  exact he

theorem State.Inv.decode_of_yay0 {s : State} {b : Buf} {q : Yay0Seq} (hs : s.Inv) (hq : s.seq = .yay0 b q) :
    decode (.command s.cmd) = .ok (.yay0 b) := by
  have hseq := hs.seqOk
  simp only [State.SeqOk, hq] at hseq
  exact hseq.2.2.1

theorem State.Inv.decode_of_varint {s : State} {signed : Bool} {b : Buf} {q : VarintSeq} (hs : s.Inv)
    (hq : s.seq = .varint signed b q) : decode (.command s.cmd) = .ok (varintCommand signed b) := by
  have hseq := hs.seqOk
  simp only [State.SeqOk, hq] at hseq
  exact hseq.2.2.1

theorem listedError_of_blockStep {s t : State} {e : ErrKind} (hs : s.Inv) (hb : s.busy = true) (h : blockStep s = .next t)
    (he : t.errcode = some e) : ListedError s e := by
  have hn := hs.errcode_of_busy hb
  cases hq : s.seq with
  | idle =>
    cases (blockStep_idle hq).symm.trans h
    exact absurd (hn.symm.trans he) nofun
  | issued =>
    cases hd : decode (.command s.cmd) with
    | ok i =>
      have hmem := (execNext_of_exec ((blockStep_issued hq hd).symm.trans h)).errcode_mem hn he
      exact .of_decode hd (raisable_of_isCommand (decodeCommand_isCommand hd) ▸ hmem)
    | error r =>
      cases (blockStep_illegal hq hd).symm.trans h
      cases he
      exact ⟨fun i hi => absurd (hd.symm.trans hi) nofun, fun _ => rfl⟩
  | yay0 b q =>
    have hd := hs.decode_of_yay0 hq
    obtain ⟨e', hf, hstep⟩ | ⟨c, q', i, hf, hdi, hstep⟩ := blockStep_yay0 hq
    · cases hstep.symm.trans h
      cases State.yay0Fetch_error hf
      cases he
      exact .of_decode hd (by simp [errorsOf])
    · have hmem := (execNext_of_exec (hstep.symm.trans h)).errcode_mem (s := s.withSeq (.yay0 b q')) hn he
      exact .of_decode hd (raisable_yay0Op b (isYay0Op_of_fetch hf hdi) hmem)
  | varint signed b q =>
    have hd := hs.decode_of_varint hq
    obtain ⟨-, hstep⟩ | ⟨-, hstep⟩ := blockStep_varint hq
    · cases hstep.symm.trans h
      cases he
      exact .of_decode hd (truncatedInput_mem_errorsOf_varint signed b)
    · have hmem := (execNext_of_exec (hstep.symm.trans h)).errcode_mem hn he
      exact .of_decode hd (raisable_varintByte signed b (isVarintByte_decodeVarintByte _) hmem)

/-! ### The obligations -/

/-- Settles O52: every instruction leads to a `BlockNext`, which writes none of these. -/
theorem setupNeverWritten : Obligations.SetupNeverWritten := by
  intro i s t h
  have hnext := blockNext_exec h
  exact ⟨hnext.sameSetup, hnext.sameOutside, hnext.inputs⟩

/-- Settles O53: the outcomes of the instructions that write neither OUT nor OUT_LEN, and of those that do not move POS. -/
theorem onlyWritersWriteOutAndPos : Obligations.OnlyWritersWriteOutAndPos := by
  intro i s t h
  have hnext := execNext_of_exec h
  refine ⟨fun hcommand hlit hcopy hlcopy => hnext.out_of_not_writesOut ?_, fun hrd hend => hnext.pos_of_not_movesPos ?_⟩
  · cases i with
    | yay0 b => exact absurd rfl (hcommand b).1
    | swap16 b => exact absurd rfl (hcommand b).2
    | lit k => exact absurd rfl (hlit k)
    | copy f d => exact absurd rfl (hcopy f d)
    | lcopy d e => exact absurd rfl (hlcopy d e)
    | nop | crc | crcchk | varu | vars | rd | vbCont | vbEnd => rfl
  · cases i with
    | rd b be n => exact absurd rfl (hrd b be n)
    | vbEnd v => exact absurd rfl (hend v)
    | nop | crc | crcchk | yay0 | varu | vars | swap16 | lit | copy | lcopy | vbCont => rfl

/-- Settles O50: by pairs; and SWAP16, like every instruction, writes neither SRC nor PAT. -/
theorem swapTwiceIsIdentity : Obligations.SwapTwiceIsIdentity :=
  ⟨swapPairs_swapPairs, fun _ _ _ h => (blockNext_exec h).inputs⟩

/-- Settles O56: by what the sequencer holds, each error is one of those of the instruction or of its fetch. -/
theorem errorsAreThoseListed : Obligations.ErrorsAreThoseListed := by
  intro s t e hs hh hb hstep he
  exact listedError_of_blockStep hs hb ((step_of_host_nil hh).symm.trans hstep) he

end Sys2Proof.Machine


/-! PROOFS. The invariant: every step keeps it (R25, R41, R42, R61), and what follows for the writes to OUT (R37, R67) and for the
termination of every command (40_common.md). -/

namespace Sys2Proof.Machine

/-! ### What the block does to OUT -/

/-- What a step of the block does to the memory of OUT. -/
inductive OutChange (s t : State) : Prop where
  | kept (hout : t.out = s.out) (hcount : t.freeCount = s.freeCount)
  | voided (hout : t.out = s.out.void s.outCap.toNat s.freeCount) (hcount : t.freeCount = s.freeCount + 1)
  | written (hcap : s.outCap.toNat ≤ s.outMax.toNat) (hout : WrittenBelow s.outCap.toNat s.out t.out)
      (hcount : t.freeCount = s.freeCount)

theorem OutChange.raise (s : State) (e : ErrKind) (o : OutEffect) : OutChange s (s.raise e o) := by
  cases o with
  | kept => exact .kept rfl rfl
  | emptied => exact .kept rfl rfl
  | voided => exact .voided rfl rfl

theorem OutChange.of_withSeq {s t : State} {q : Sequencer} (h : OutChange (s.withSeq q) t) : OutChange s t := by
  cases h with
  | kept hout hcount => exact .kept hout hcount
  | voided hout hcount => exact .voided hout hcount
  | written hcap hout hcount => exact .written hcap hout hcount

theorem OutChange.byte_above {s t : State} (h : OutChange s t) {a : Nat} (ha : s.outCap.toNat ≤ a) :
    t.byte .out a = s.byte .out a := by
  simp only [State.byte, State.mem_out]
  cases h with
  | kept hout => rw [hout]
  | voided hout => rw [hout, Memory.byteAt_void_above _ _ _ _ ha]
  | written _ hout => exact hout.byteAt_above .out ha

theorem State.yay0Go_freeCount (s : State) (b : Buf) (q : Yay0Seq) : (s.yay0Go b q).freeCount = s.freeCount := by
  obtain ⟨-, h⟩ | ⟨-, h⟩ := s.yay0Go_cases b q <;> simp [h]

/-- In a state whose sequencer fits its command, no instruction writes OUT at or beyond OUT_CAP (R67). -/
theorem ExecNext.outChange {s t : State} {i : Instr} (h : ExecNext s i t) (hok : s.SeqOk) : OutChange s t := by
  cases h with
  | raises => exact .raise s _ _
  | mismatch b result =>
    obtain ⟨hout, -, hcount⟩ := (s.withResult result).raise_kept_out .checksumMismatch
    exact .kept hout hcount
  | computes | reads | startsVarint | addsVarint => exact .kept rfl rfl
  | swaps b m result hs hlen hm =>
    obtain ⟨-, -, hcap, -⟩ := s.operandsOk_iff.1 hs
    exact .written hcap (hm.mono hlen) rfl
  | startsYay0 b q => exact .kept State.yay0Go_out (s.yay0Go_freeCount b q)
  | @produces _ hi b q q' m hq hadv hm =>
    simp only [State.SeqOk, hq] at hok
    obtain ⟨-, hs, -, hop, hsize, -⟩ := hok
    obtain ⟨-, -, hcap, -⟩ := s.operandsOk_iff.1 hs
    have hbound := hadv.bounded hop
    rw [hadv.size] at hbound
    have hout : ((s.withMem .out m).yay0Go b q').out = m := State.yay0Go_out
    exact .written hcap (hout.symm ▸ hm.mono (by omega)) (State.yay0Go_freeCount _ b q')

/-! ### What the block runs in a sound state -/

/-- A step of the block in a sound state with a command in flight: it ends in an error of the fetch or the decoder, or runs an
instruction from a state that is as sound, with a fresh control word at most. -/
inductive BlockRuns (s t : State) : Prop where
  | fails (e : ErrKind) (o : OutEffect) (ht : t = s.raise e o)
  | command (i : Instr) (hq : s.seq = .issued) (hd : decode (.command s.cmd) = .ok i) (hx : ExecNext s i t)
  | yay0Op (b : Buf) (q q' : Yay0Seq) (i : Instr) (hq : s.seq = .yay0 b q) (hi : IsYay0Op i) (hsize : q'.size = q.size)
      (hop : q'.op = q.op) (hok : (s.withSeq (.yay0 b q')).SeqOk) (hx : ExecNext (s.withSeq (.yay0 b q')) i t)
  | varintByte (signed : Bool) (b : Buf) (q : VarintSeq) (i : Instr) (hq : s.seq = .varint signed b q)
      (hi : IsVarintByte i) (hp : q.p + 1 ≤ s.bufLen b) (hx : ExecNext s i t)

/-- A fresh control word keeps the sequencer within its ranges. -/
theorem State.SeqOk.refill {s : State} {b : Buf} {q q' : Yay0Seq} (hok : s.SeqOk) (hq : s.seq = .yay0 b q)
    (h : s.yay0Refill b q = .ok q') : (s.withSeq (.yay0 b q')).SeqOk := by
  simp only [State.SeqOk, hq] at hok
  obtain ⟨hb, hs, hd, hop, hsize, hcb⟩ := hok
  obtain ⟨-, rfl⟩ | ⟨-, -, rfl⟩ := State.yay0Refill_ok h
  · exact ⟨hb, hs, hd, hop, hsize, hcb⟩
  · exact ⟨hb, hs, hd, hop, hsize, Nat.le_refl 32⟩

theorem State.yay0Refill_frame {s : State} {b : Buf} {q q' : Yay0Seq} (h : s.yay0Refill b q = .ok q') :
    q'.size = q.size ∧ q'.op = q.op ∧ q'.pp = q.pp ∧ q'.kp = q.kp := by
  obtain ⟨-, rfl⟩ | ⟨-, -, rfl⟩ := State.yay0Refill_ok h <;> exact ⟨rfl, rfl, rfl, rfl⟩

theorem blockRuns_of_blockStep {s t : State} (hok : s.SeqOk) (hb : s.busy = true) (h : blockStep s = .next t) :
    BlockRuns s t := by
  cases hq : s.seq with
  | idle =>
    simp only [State.SeqOk, hq] at hok
    exact absurd (hb.symm.trans hok) Bool.noConfusion
  | issued =>
    cases hd : decode (.command s.cmd) with
    | ok i => exact .command i hq hd (execNext_of_exec ((blockStep_issued hq hd).symm.trans h))
    | error r =>
      cases (blockStep_illegal hq hd).symm.trans h
      exact .fails _ _ rfl
  | yay0 b q =>
    obtain ⟨e, -, hstep⟩ | ⟨c, q', i, hf, hd, hstep⟩ := blockStep_yay0 hq
    · cases hstep.symm.trans h
      exact .fails _ _ rfl
    · obtain ⟨hrefill, -⟩ := State.yay0Fetch_ok hf
      obtain ⟨hsize, hop, -, -⟩ := State.yay0Refill_frame hrefill
      exact .yay0Op b q q' i hq (isYay0Op_of_fetch hf hd) hsize hop (hok.refill hq hrefill)
        (execNext_of_exec (hstep.symm.trans h))
  | varint signed b q =>
    obtain ⟨-, hstep⟩ | ⟨hp, hstep⟩ := blockStep_varint hq
    · cases hstep.symm.trans h
      exact .fails _ _ rfl
    · exact .varintByte signed b q _ hq (isVarintByte_decodeVarintByte _) hp (execNext_of_exec (hstep.symm.trans h))

theorem BlockRuns.outChange {s t : State} (h : BlockRuns s t) (hok : s.SeqOk) : OutChange s t := by
  cases h with
  | fails e o ht => exact ht ▸ .raise s e o
  | command i _ _ hx => exact hx.outChange hok
  | yay0Op b q q' i _ _ _ _ hok' hx => exact (hx.outChange hok').of_withSeq
  | varintByte signed b q i _ _ _ hx => exact hx.outChange hok

/-- The block does nothing unless a command is in flight (R39). -/
theorem blockStep_of_not_busy {s t : State} (hs : s.Inv) (hb : s.busy = false) (h : blockStep s = .next t) : t = s := by
  cases (blockStep_idle (hs.seq_of_not_busy hb)).symm.trans h
  rfl

theorem outChange_blockStep {s t : State} (hs : s.Inv) (h : blockStep s = .next t) : OutChange s t := by
  cases hb : s.busy with
  | false => exact blockStep_of_not_busy hs hb h ▸ .kept rfl rfl
  | true => exact (blockRuns_of_blockStep hs.seqOk hb h).outChange hs.seqOk

/-! ### The sequencer -/

theorem State.seqOk_of_idle {s : State} (hq : s.seq = .idle) (hb : s.busy = false) : s.SeqOk := by
  simp only [State.SeqOk, hq, hb]

/-- The loop of YAY0 goes on within its ranges, or ends. -/
theorem State.seqOk_yay0Go {s : State} {b : Buf} {q : Yay0Seq} (hb : s.busy = true) (hs : s.operandsOk = true)
    (hd : decode (.command s.cmd) = .ok (.yay0 b)) (hsize : q.size ≤ s.outCap.toNat) (hcb : q.cb ≤ 32) :
    (s.yay0Go b q).SeqOk := by
  obtain ⟨hop, h⟩ | ⟨-, h⟩ := s.yay0Go_cases b q
  · rw [h]
    exact ⟨hb, hs, hd, hop, hsize, hcb⟩
  · rw [h]
    exact State.seqOk_of_idle rfl rfl

theorem two_pow_64_le_128_pow_10 : 2 ^ 64 ≤ 128 ^ 10 := by norm_num

/-- A varint byte that another follows keeps the varint sequencer within its ranges: the value stays below 2^64, so at most
nine such bytes come. -/
theorem State.seqOk_addsVarint {s : State} {signed : Bool} {b : Buf} {q : VarintSeq} {v : Nat} (hok : s.SeqOk)
    (hq : s.seq = .varint signed b q) (hp : q.p + 1 ≤ s.bufLen b)
    (hfits : q.data + v * q.shift + q.shift * 128 < 2 ^ 64) :
    (s.withSeq (.varint signed b
      { p := q.p + 1, data := q.data + v * q.shift + q.shift * 128, shift := q.shift * 128 })).SeqOk := by
  simp only [State.SeqOk, hq] at hok
  obtain ⟨hb, hs, hd, k, hk, hpk, hshift, hlo, -, -⟩ := hok
  have hnext : q.shift * 128 = 128 ^ (k + 1) := by rw [hshift, pow_succ]
  have hk8 : k ≠ 9 := by
    rintro rfl
    have := two_pow_64_le_128_pow_10
    rw [hnext] at hfits
    omega
  have hoffset : varintOffset (k + 1 + 1) = varintOffset (k + 1) + q.shift * 128 := by
    rw [hnext]
    rfl
  refine ⟨hb, hs, hd, k + 1, by omega, by simp only [hpk]; rfl, hnext, ?_, hfits, .inr hp⟩
  rw [hoffset]
  exact Nat.add_le_add_right (Nat.le_add_right_of_le hlo) _

/-- The command in flight has ended. -/
def Ended (t : State) : Prop := t.seq = .idle ∧ t.busy = false

/-- A command ends in its first step, or starts a stream. -/
theorem ExecNext.command_cases {s t : State} {i : Instr} (h : ExecNext s i t) (hi : i.isCommand = true) :
    Ended t ∨
    (∃ signed b, i = varintCommand signed b ∧ s.operandsOk = true ∧ t = s.varintStart signed b) ∨
    (∃ b q, i = .yay0 b ∧ s.operandsOk = true ∧ q.size ≤ s.outCap.toNat ∧ q.op = 0 ∧ q.cb = 0 ∧ t = s.yay0Go b q) := by
  cases h with
  | raises | mismatch | computes | reads | swaps => exact .inl ⟨rfl, rfl⟩
  | startsVarint signed b hs => exact .inr (.inl ⟨signed, b, rfl, hs, rfl⟩)
  | startsYay0 b q hs hsize hop hcb => exact .inr (.inr ⟨b, q, rfl, hs, hsize, hop, hcb, rfl⟩)
  | addsVarint => cases hi
  | produces hi' => obtain ⟨k, rfl⟩ | ⟨f, d, rfl⟩ | ⟨d, e, rfl⟩ := hi' <;> cases hi

theorem not_isCommand_of_isYay0Op {i : Instr} (h : IsYay0Op i) : i.isCommand = false := by
  obtain ⟨k, rfl⟩ | ⟨f, d, rfl⟩ | ⟨d, e, rfl⟩ := h <;> rfl

theorem not_isCommand_of_isVarintByte {i : Instr} (h : IsVarintByte i) : i.isCommand = false := by
  obtain ⟨v, rfl⟩ | ⟨v, rfl⟩ := h <;> rfl

theorem isCommand_varintCommand (signed : Bool) (b : Buf) : (varintCommand signed b).isCommand = true := by
  cases signed <;> rfl

/-- A stream operation ends its command, or moves the sequencer of its stream. -/
theorem ExecNext.stream_cases {s t : State} {i : Instr} (h : ExecNext s i t) (hi : i.isCommand = false) :
    Ended t ∨
    (∃ b q q' m, s.seq = .yay0 b q ∧ q.Advances q' ∧ t = (s.withMem .out m).yay0Go b q') ∨
    (∃ signed b q v, s.seq = .varint signed b q ∧ q.data + v * q.shift + q.shift * 128 < 2 ^ 64 ∧
      t = s.withSeq (.varint signed b
        { p := q.p + 1, data := q.data + v * q.shift + q.shift * 128, shift := q.shift * 128 })) := by
  cases h with
  | raises | mismatch | computes | reads | swaps => exact .inl ⟨rfl, rfl⟩
  | startsVarint signed b => exact absurd ((isCommand_varintCommand signed b).symm.trans hi) Bool.noConfusion
  | startsYay0 => cases hi
  | addsVarint v hq hfits => exact .inr (.inr ⟨_, _, _, _, hq, hfits, rfl⟩)
  | produces _ q' m hq hadv => exact .inr (.inl ⟨_, _, _, _, hq, hadv, rfl⟩)

theorem Ended.seqOk {t : State} (h : Ended t) : t.SeqOk := State.seqOk_of_idle h.1 h.2

theorem BlockRuns.seqOk {s t : State} (h : BlockRuns s t) (hok : s.SeqOk) (hb : s.busy = true) : t.SeqOk := by
  cases h with
  | fails e o ht => exact ht ▸ State.seqOk_of_idle rfl rfl
  | command i hq hd hx =>
    obtain hended | ⟨signed, b, rfl, hs, rfl⟩ | ⟨b, q, rfl, hs, hsize, -, hcb, rfl⟩ :=
      hx.command_cases (decodeCommand_isCommand hd)
    · exact hended.seqOk
    · exact ⟨hb, hs, hd, 0, by decide, rfl, rfl, Nat.le_refl 0, Nat.two_pow_pos 64, .inl rfl⟩
    · exact State.seqOk_yay0Go hb hs hd hsize (hcb ▸ Nat.zero_le 32)
  | yay0Op b q q' i hq hi hsize hop hok' hx =>
    obtain hended | ⟨_, _, q'', m, hq', hadv, rfl⟩ | ⟨_, _, _, _, hq', -⟩ :=
      hx.stream_cases (not_isCommand_of_isYay0Op hi)
    · exact hended.seqOk
    · cases hq'
      obtain ⟨hb, hs, hd, hop, hsize, hcb⟩ := hok'
      exact State.seqOk_yay0Go hb hs hd (hadv.size ▸ hsize) (hadv.cb.trans hcb)
    · cases hq'
  | varintByte signed b q i hq hi hp hx =>
    obtain hended | ⟨_, _, _, _, hq', -⟩ | ⟨_, _, _, v, hq', hfits, rfl⟩ :=
      hx.stream_cases (not_isCommand_of_isVarintByte hi)
    · exact hended.seqOk
    · cases hq.symm.trans hq'
    · cases hq.symm.trans hq'
      exact State.seqOk_addsVarint hok hq hp hfits

/-! ### The memories -/

/-- What the invariant says of the three memories. -/
structure State.MemoryInv (s : State) : Prop where
  wf : ∀ b, (s.mem b).wf = true
  physical : ∀ b, ∀ c ∈ (s.mem b).cells, c.1 < s.physSize b
  inputsKnown : s.src.stale = [] ∧ s.pat.stale = []
  epochs : ∀ r ∈ s.out.stale, r.epoch < s.freeCount

theorem State.Inv.memory {s : State} (hs : s.Inv) : s.MemoryInv := ⟨hs.wf, hs.physical, hs.inputsKnown, hs.epochs⟩

/-- A step that leaves SRC and PAT alone and changes OUT as the block does. -/
theorem State.MemoryInv.of_outChange {s t : State} (hs : s.MemoryInv) (hsrc : t.src = s.src) (hpat : t.pat = s.pat)
    (hmax : t.srcMax = s.srcMax ∧ t.patMax = s.patMax ∧ t.outMax = s.outMax) (h : OutChange s t) : t.MemoryInv := by
  obtain ⟨hsrcMax, hpatMax, houtMax⟩ := hmax
  have hwf : s.out.wf = true := hs.wf .out
  have hphys : ∀ c ∈ s.out.cells, c.1 < s.outMax.toNat := hs.physical .out
  have hout : t.out.wf = true ∧ (∀ c ∈ t.out.cells, c.1 < s.outMax.toNat) ∧ ∀ r ∈ t.out.stale, r.epoch < t.freeCount := by
    cases h with
    | kept hout hcount =>
      rw [hout, hcount]
      exact ⟨hwf, hphys, hs.epochs⟩
    | voided hout hcount =>
      rw [hout, hcount]
      exact ⟨Memory.void_wf _ _ hwf hs.epochs, fun c hc => hphys c (Memory.void_cells hc), Memory.void_epochs hs.epochs⟩
    | written hcap hout hcount =>
      rw [hcount]
      refine ⟨hout.wf hwf, fun c hc => ?_, hout.epochs hs.epochs⟩
      rcases hout.cells hc with hlt | hc
      · omega
      · exact hphys c hc
  obtain ⟨hwf', hphys', hepochs'⟩ := hout
  refine ⟨fun b => ?_, fun b => ?_, by rw [hsrc, hpat]; exact hs.inputsKnown, hepochs'⟩
  · cases b with
    | src =>
      rw [State.mem_src, hsrc]
      exact hs.wf .src
    | pat =>
      rw [State.mem_pat, hpat]
      exact hs.wf .pat
    | out => exact hwf'
  · cases b with
    | src =>
      rw [State.mem_src, hsrc, State.physSize, hsrcMax]
      exact hs.physical .src
    | pat =>
      rw [State.mem_pat, hpat, State.physSize, hpatMax]
      exact hs.physical .pat
    | out =>
      rw [State.physSize, houtMax]
      exact hphys'

/-- A host write of a byte that exists. -/
theorem State.MemoryInv.withByte {s : State} (hs : s.MemoryInv) {b : Buf} {a : Nat} (v : Byte) (ha : a < s.physSize b) :
    (s.withMem b ((s.mem b).write a v)).MemoryInv := by
  obtain ⟨hsrc, hpat⟩ := hs.inputsKnown
  refine ⟨fun b' => ?_, fun b' c hc => ?_, ?_, ?_⟩
  · by_cases hbb : b' = b
    · subst hbb
      rw [State.withMem_mem_same]
      exact Memory.write_wf a v (hs.wf b')
    · rw [State.withMem_mem_other _ _ hbb]
      exact hs.wf b'
  · rw [State.withMem_physSize]
    by_cases hbb : b' = b
    · subst hbb
      rw [State.withMem_mem_same] at hc
      rcases Memory.write_cells hc with heq | hc
      · omega
      · exact hs.physical b' c hc
    · rw [State.withMem_mem_other _ _ hbb] at hc
      exact hs.physical b' c hc
  · cases b with
    | src => exact ⟨Memory.write_stale_nil hsrc, hpat⟩
    | pat => exact ⟨hsrc, Memory.write_stale_nil hpat⟩
    | out => exact ⟨hsrc, hpat⟩
  · cases b with
    | src => exact hs.epochs
    | pat => exact hs.epochs
    | out => exact Memory.write_epochs hs.epochs

theorem State.abandon_outChange (s : State) : OutChange s s.abandon := by
  obtain h | ⟨-, h⟩ := s.abandon_cases
  · rw [h]
    exact .kept rfl rfl
  · rw [h]
    exact .voided rfl rfl

theorem State.MemoryInv.applyReset {s : State} (hs : s.MemoryInv) (level : Bool) :
    ({ s.applyReset with rst := level } : State).MemoryInv := by
  obtain ⟨-, -, hsrcMax, hpatMax, houtMax, hsrc, hpat⟩ := s.applyReset_frame
  refine hs.of_outChange hsrc hpat ⟨hsrcMax, hpatMax, houtMax⟩ ?_
  cases s.abandon_outChange with
  | kept hout hcount => exact .kept hout hcount
  | voided hout hcount => exact .voided hout hcount
  | written hcap hout hcount => exact .written hcap hout hcount

/-! ### Every step keeps the invariant -/

/-- While a command is in flight the reset input is released. -/
theorem State.Inv.not_held_of_busy {s : State} (hs : s.Inv) (hb : s.busy = true) : s.rst = false := by
  cases hrst : s.rst with
  | false => rfl
  | true =>
    obtain ⟨hidle, -⟩ := State.idle_of_reg_zero (hs.heldReset hrst)
    exact absurd (hb.symm.trans hidle) Bool.noConfusion

/-- The clauses of the invariant about the flags, and what they need of a state with the reset input released. -/
theorem BlockNext.flags {s t : State} (h : BlockNext s t) (hs : s.Inv) :
    (t.err = true ↔ t.errcode ≠ none) ∧ (t.matched = true → t.err = false) ∧
      (t.busy = true → t.done = false ∧ t.err = false ∧ t.matched = false) := by
  cases h with
  | holds m q => exact ⟨hs.errIff, hs.matchNoErr, hs.busyFlags⟩
  | completes => simp
  | raises => simp

theorem inv_blockStep {s t : State} (hs : s.Inv) (h : blockStep s = .next t) : t.Inv := by
  cases hb : s.busy with
  | false => exact blockStep_of_not_busy hs hb h ▸ hs
  | true =>
    have hruns := blockRuns_of_blockStep hs.seqOk hb h
    have hnext := blockNext_blockStep h
    obtain ⟨hsrc, hpat⟩ := hnext.inputs
    obtain ⟨-, -, -, -, -, -, -, hmax⟩ := hnext.sameSetup
    obtain ⟨hrst, -, -⟩ := hnext.sameOutside
    have hmemory := hs.memory.of_outChange hsrc hpat hmax (hruns.outChange hs.seqOk)
    obtain ⟨herr, hmatched, hbusy⟩ := hnext.flags hs
    have hreleased : t.rst = false := hrst.trans (hs.not_held_of_busy hb)
    exact ⟨hmemory.wf, hmemory.physical, hmemory.inputsKnown, hmemory.epochs, herr, hmatched, hbusy,
      fun hheld => absurd (hheld.symm.trans hreleased) Bool.noConfusion, hruns.seqOk hs.seqOk hb⟩

/-- What the outside does next and what the host read are not in the invariant. -/
theorem State.Inv.withOutside {s : State} (hs : s.Inv) (host : List HostOp) (rdata : Word) :
    ({ s with host := host, rdata := rdata } : State).Inv := by
  refine ⟨fun b => hs.wf b, fun b => hs.physical b, hs.inputsKnown, hs.epochs, hs.errIff, hs.matchNoErr, hs.busyFlags,
    fun hrst r => ?_, hs.seqOk⟩
  rw [← hs.heldReset hrst r]
  cases r <;> rfl

/-- Any registers at reset, with no command in flight, are sound. -/
theorem State.AtReset.inv {s : State} (h : s.AtReset) (hm : s.MemoryInv) : s.Inv := by
  have hb := h.busy
  obtain ⟨hreg, -, hq⟩ := h
  obtain ⟨-, -, herr, hmatched, hcode, -⟩ := State.idle_of_reg_zero hreg
  refine ⟨hm.wf, hm.physical, hm.inputsKnown, hm.epochs, by simp [herr, hcode], by simp [hmatched], by simp [hb],
    fun _ => hreg, State.seqOk_of_idle hq hb⟩

section
variable {s : State} (hs : s.Inv) (hb : s.busy = false) (hrst : s.rst = false)
include hs hb hrst

/-- A write to a register while BUSY = 0 and `rst` is released. -/
theorem inv_regWrite (v : Word) (r : RegName) : (s.regWrite v r).Inv := by
  have hq := hs.seq_of_not_busy hb
  have hheld {t : State} (ht : t.rst = false) : t.rst = true → ∀ r, t.reg r = 0 :=
    fun h => absurd (h.symm.trans ht) Bool.noConfusion
  have hok {t : State} (htq : t.seq = s.seq) (htb : t.busy = s.busy) : t.SeqOk :=
    State.seqOk_of_idle (htq.trans hq) (htb.trans hb)
  have hkept {t : State} (hmem : ∀ b, t.mem b = s.mem b) (hsize : ∀ b, t.physSize b = s.physSize b)
      (hcount : t.freeCount = s.freeCount) : t.MemoryInv := by
    have hsrc : t.src = s.src := hmem .src
    have hpat : t.pat = s.pat := hmem .pat
    have hout : t.out = s.out := hmem .out
    refine ⟨fun b => hmem b ▸ hs.wf b, fun b => ?_, by rw [hsrc, hpat]; exact hs.inputsKnown,
      by rw [hout, hcount]; exact hs.epochs⟩
    rw [hmem, hsize]
    exact hs.physical b
  have hm : (s.regWrite v r).MemoryInv := by
    cases r with
    | status =>
      unfold State.regWrite
      dsimp only
      split
      · exact hkept (fun b => by cases b <;> rfl) (fun b => by cases b <;> rfl) rfl
      · exact hs.memory
    | _ => exact hkept (fun b => by cases b <;> rfl) (fun b => by cases b <;> rfl) rfl
  cases r with
  | cmd =>
    exact ⟨hm.wf, hm.physical, hm.inputsKnown, hm.epochs, by simp [State.regWrite], by simp [State.regWrite],
      by simp [State.regWrite], hheld hrst, rfl⟩
  | status =>
    rcases Bool.eq_false_or_eq_true (v.getLsbD 1) with hv | hv
    · rw [s.regWrite_status_of_bit hv] at hm ⊢
      exact ⟨hm.wf, hm.physical, hm.inputsKnown, hm.epochs, hs.errIff, hs.matchNoErr,
        fun h => absurd (h.symm.trans hb) Bool.noConfusion, hheld hrst, hok rfl rfl⟩
    · rw [s.regWrite_status_of_no_bit hv]
      exact hs
  | errcode | resultLo | resultHi => exact hs
  | ctrl | srcLen | patLen | outCap | outLen | pos | len | expect =>
    exact ⟨hm.wf, hm.physical, hm.inputsKnown, hm.epochs, hs.errIff, hs.matchNoErr, hs.busyFlags, hheld hrst, hok rfl rfl⟩

end

theorem inv_busWrite {s : State} (hs : s.Inv) (off : Nat) (v : Word) : (s.busWrite off v).Inv := by
  cases hb : s.busy with
  | true => rw [State.busWrite_ignored off v (.inl hb)]; exact hs
  | false =>
    cases hrst : s.rst with
    | true => rw [State.busWrite_ignored off v (.inr hrst)]; exact hs
    | false =>
      cases hr : regAt off with
      | none => rw [State.busWrite_unlisted hb hrst v hr]; exact hs
      | some r =>
        obtain rfl := offset_of_regAt hr
        rw [State.busWrite_offset hb hrst]
        exact inv_regWrite hs hb hrst v r

theorem inv_bufWrite {s : State} (hs : s.Inv) (hb : s.busy = false) {b : Buf} {a : Nat} (v : Byte)
    (ha : a < s.physSize b) : (s.withMem b ((s.mem b).write a v)).Inv := by
  have hm := hs.memory.withByte v ha
  refine ⟨hm.wf, hm.physical, hm.inputsKnown, hm.epochs, by simpa using hs.errIff, by simpa using hs.matchNoErr,
    by simpa using hs.busyFlags, fun hrst r => ?_, State.seqOk_of_idle ?_ ?_⟩
  · rw [State.withMem_reg]
    exact hs.heldReset (by simpa using hrst) r
  · simpa using hs.seq_of_not_busy hb
  · simpa using hb

theorem inv_driveRst {s : State} (hs : s.Inv) (level : Bool) : (s.driveRst level).Inv := by
  obtain ⟨-, h⟩ | ⟨-, -, h⟩ := s.driveRst_cases level
  · rw [h]
    obtain ⟨hreg, hirq, hq⟩ := s.applyReset_atReset
    exact State.AtReset.inv ⟨fun r => (State.withRst_reg _ level r).trans (hreg r), hirq, hq⟩ (hs.memory.applyReset level)
  · rw [h]
    exact hs

theorem inv_step {s t : State} (hs : s.Inv) (h : step s = .next t) : t.Inv := by
  have hrest (rest : List HostOp) : ({ s with host := rest } : State).Inv := hs.withOutside rest s.rdata
  obtain ⟨host, -, hblock⟩ | ⟨op, rest, v, -, -, rfl⟩ | ⟨off, v, rest, -, rfl⟩ | ⟨b, a, v, rest, -, hb, ha, rfl⟩ |
    ⟨level, rest, -, rfl⟩ := stepCase_of_step h
  · exact inv_blockStep (hrest host) hblock
  · exact hs.withOutside rest v
  · exact inv_busWrite (hrest rest) off v
  · rw [← s.withHost_mem rest b]
    exact inv_bufWrite (hrest rest) hb v (by rwa [State.withHost_physSize])
  · exact inv_driveRst (hrest rest) level

/-! ### Termination -/

/-- How many more steps of the block the command in flight can take: one for each byte of output YAY0 may still produce, one for
each byte a varint may still have. -/
def State.work (s : State) : Nat :=
  match s.seq with
  | .idle => 0
  | .issued => s.outCap.toNat + 11
  | .yay0 _ q => q.size - q.op
  | .varint _ _ q => 10 - (q.p - s.pos.toNat)

theorem State.Inv.work_le {s : State} (hs : s.Inv) : s.work ≤ s.outCap.toNat + 11 := by
  have hok := hs.seqOk
  unfold State.work
  cases hq : s.seq with
  | idle => exact Nat.zero_le _
  | issued => exact Nat.le_refl _
  | yay0 b q =>
    simp only [State.SeqOk, hq] at hok
    obtain ⟨-, -, -, -, hsize, -⟩ := hok
    dsimp only
    omega
  | varint signed b q =>
    dsimp only
    omega

/-- A loop of YAY0 that goes on has less to produce than one that stood before `op`. -/
theorem State.yay0Go_work {s : State} {b : Buf} {q : Yay0Seq} {k : Nat} (hb : s.busy = true) (hk : q.size - q.op < k) :
    (s.yay0Go b q).busy = false ∨ ((s.yay0Go b q).busy = true ∧ (s.yay0Go b q).work < k) := by
  obtain ⟨-, h⟩ | ⟨-, h⟩ := s.yay0Go_cases b q
  · exact .inr (by rw [h]; exact ⟨hb, hk⟩)
  · exact .inl (by rw [h]; rfl)

theorem State.Inv.work_pos {s : State} (hs : s.Inv) (hb : s.busy = true) : 0 < s.work := by
  have hok := hs.seqOk
  unfold State.work
  cases hq : s.seq with
  | idle =>
    simp only [State.SeqOk, hq] at hok
    exact absurd (hb.symm.trans hok) Bool.noConfusion
  | issued => exact Nat.succ_pos _
  | yay0 b q =>
    simp only [State.SeqOk, hq] at hok
    obtain ⟨-, -, -, hop, -⟩ := hok
    exact Nat.sub_pos_of_lt hop
  | varint signed b q =>
    simp only [State.SeqOk, hq] at hok
    obtain ⟨-, -, -, k, hk, hpk, -⟩ := hok
    dsimp only
    omega

/-- A step of the block ends the command or leaves less work. -/
theorem BlockRuns.work_lt {s t : State} (h : BlockRuns s t) (hok : s.SeqOk) (hb : s.busy = true) :
    t.busy = false ∨ (t.busy = true ∧ t.work < s.work) := by
  cases h with
  | fails e o ht => exact .inl (ht ▸ rfl)
  | command i hq hd hx =>
    have hwork : s.work = s.outCap.toNat + 11 := by simp only [State.work, hq]
    rw [hwork]
    obtain ⟨-, hended⟩ | ⟨signed, b, rfl, hs, rfl⟩ | ⟨b, q, rfl, hs, hsize, hop, -, rfl⟩ :=
      hx.command_cases (decodeCommand_isCommand hd)
    · exact .inl hended
    · have hstart : (s.varintStart signed b).work = 10 - (s.pos.toNat - s.pos.toNat) := rfl
      exact .inr ⟨hb, by omega⟩
    · exact State.yay0Go_work hb (by omega)
  | yay0Op b q q' i hq hi hsize hop hok' hx =>
    have hwork : s.work = q.size - q.op := by simp only [State.work, hq]
    rw [hwork]
    obtain ⟨-, hended⟩ | ⟨_, _, q'', m, hq', hadv, rfl⟩ | ⟨_, _, _, _, hq', -⟩ :=
      hx.stream_cases (not_isCommand_of_isYay0Op hi)
    · exact .inl hended
    · cases hq'
      obtain ⟨-, -, -, hlt, -⟩ := hok'
      refine State.yay0Go_work (s := (s.withSeq _).withMem .out m) hb ?_
      have hproduced := hadv.produced
      rw [hadv.size]
      omega
    · cases hq'
  | varintByte signed b q i hq hi hp hx =>
    obtain ⟨-, hended⟩ | ⟨_, _, _, _, hq', -⟩ | ⟨_, _, _, v, hq', -, rfl⟩ :=
      hx.stream_cases (not_isCommand_of_isVarintByte hi)
    · exact .inl hended
    · cases hq.symm.trans hq'
    · cases hq.symm.trans hq'
      simp only [State.SeqOk, hq] at hok
      obtain ⟨-, -, -, k, hk, hpk, -⟩ := hok
      refine .inr ⟨hb, ?_⟩
      simp only [State.work, hq, State.withSeq_seq, State.withSeq_pos]
      omega

/-- While the block has its turn, a command in flight ends within the work it has left. -/
theorem runs_until_idle {host : List HostOp} (hturn : ∀ u : State, u.host = host → u.busy = true → step u = blockStep u)
    {k : Nat} {s : State} (hs : s.Inv) (hh : s.host = host) (hk : s.work ≤ k) :
    ∃ n t, n ≤ k ∧ runSteps n s = .next t ∧ t.host = host ∧ t.busy = false := by
  induction k generalizing s with
  | zero =>
    cases hb : s.busy with
    | false => exact ⟨0, s, Nat.le_refl 0, rfl, hh, hb⟩
    | true => exact absurd (hs.work_pos hb) (by omega)
  | succ k ih =>
    cases hb : s.busy with
    | false => exact ⟨0, s, Nat.zero_le _, rfl, hh, hb⟩
    | true =>
      obtain ⟨t, ht⟩ := blockStep_next s
      have hstep := (hturn s hh hb).trans ht
      obtain ⟨-, hhost, -⟩ := (blockNext_blockStep ht).sameOutside
      obtain hidle | ⟨-, hlt⟩ := (blockRuns_of_blockStep hs.seqOk hb ht).work_lt hs.seqOk hb
      · exact ⟨1, t, by omega, (runSteps_one s).trans hstep, hhost.trans hh, hidle⟩
      · obtain ⟨n, u, hn, hrun, huhost, hubusy⟩ := ih (inv_blockStep hs ht) (hhost.trans hh) (by omega)
        exact ⟨n + 1, u, by omega, (runSteps_succ_of_next n hstep).trans hrun, huhost, hubusy⟩

theorem runSteps_add_one {n : Nat} {s t : State} (h : runSteps n s = .next t) : runSteps (n + 1) s = step t := by
  induction n generalizing s with
  | zero =>
    cases h
    exact runSteps_one _
  | succ n ih =>
    cases hstep : step s with
    | next u =>
      rw [runSteps_succ_of_next _ hstep] at h ⊢
      exact ih h
    | fault r => simp [runSteps, hstep] at h
    | refused r => simp [runSteps, hstep] at h

/-! ### The obligations -/

/-- Settles O8: the block's steps by what they run, the host's by the kind of access. -/
theorem stepKeepsInvariant : Obligations.StepKeepsInvariant := fun _ _ hs h => inv_step hs h

/-- Settles O54: a step of the block changes OUT as `OutChange` says, and the invariant bounds the sequencer. -/
theorem writesStayBelowCapacity : Obligations.WritesStayBelowCapacity := by
  intro s t hs hh h
  refine ⟨fun a ha => (outChange_blockStep hs ((step_of_host_nil hh).symm.trans h)).byte_above ha, fun b q hq => ?_⟩
  have hok := hs.seqOk
  simp only [State.SeqOk, hq] at hok
  obtain ⟨-, hs', -, hop, hsize, -⟩ := hok
  exact ⟨hop, hsize, State.outCap_le_physSize hs'⟩

/-- Settles O14: every step with a command in flight ends it or leaves less work, and there is at most OUT_CAP + 11. -/
theorem everyCommandTerminates : Obligations.EveryCommandTerminates := by
  intro s hs hh
  obtain ⟨n, t, hn, hrun, -, hidle⟩ := runs_until_idle (fun _ hu _ => step_of_host_nil hu) hs hh hs.work_le
  exact ⟨n, t, hn, hrun, hidle⟩

/-- Settles O15: WAIT gives the block its turn until the command has ended, and then reads STATUS. -/
theorem waitEndsIdle : Obligations.WaitEndsIdle := by
  intro s rest hs hh
  obtain ⟨n, t, hn, hrun, hhost, hidle⟩ :=
    runs_until_idle (fun u hu hb => (step_of_wait hu).trans (if_pos hb)) hs hh hs.work_le
  have hlast := (step_of_wait hhost).trans (if_neg (Bool.eq_false_iff.1 hidle))
  exact ⟨n + 1, _, by omega, (runSteps_add_one hrun).trans hlast, rfl, hidle, rfl⟩

end Sys2Proof.Machine


/-! PROOFS. No command reads a flag (R44, R241): another value of a flag passes through every instruction and every fetch. -/

namespace Sys2Proof.Machine

/-! ### An update of flags -/

/-- `u` writes flags only and passes through every update of another field; a completion, which sets all flags but IE, turns it
into `v`. -/
structure FlagUpdate (u v : State → State) : Prop where
  flagsOnly : ∀ s, ∃ f x, u s = { s.withFlags f with ie := x }
  raise : ∀ s e o, (u s).raise e o = v (s.raise e o)
  complete : ∀ s m, (u s).complete m = v (s.complete m)
  withSeq : ∀ s q, (u s).withSeq q = u (s.withSeq q)
  withMem : ∀ s m, (u s).withMem .out m = u (s.withMem .out m)
  withResult : ∀ s r, (u s).withResult r = u (s.withResult r)
  withPos : ∀ s p, (u s).withPos p = u (s.withPos p)
  withOutLen : ∀ s n, (u s).withOutLen n = u (s.withOutLen n)

/-- Another value of IE stays what it is at a completion. -/
theorem flagUpdate_ie (x : Bool) : FlagUpdate (fun s => { s with ie := x }) (fun s => { s with ie := x }) where
  flagsOnly s := ⟨⟨s.busy, s.done, s.err, s.matched, s.errcode⟩, x, rfl⟩
  raise s e o := by cases o <;> rfl
  complete _ _ := rfl
  withSeq _ _ := rfl
  withMem _ _ := rfl
  withResult _ _ := rfl
  withPos _ _ := rfl
  withOutLen _ _ := rfl

/-- Other values of the other flags are gone at a completion. -/
theorem flagUpdate_withFlags (f : Flags) : FlagUpdate (State.withFlags · f) id where
  flagsOnly s := ⟨f, s.ie, rfl⟩
  raise s e o := by cases o <;> rfl
  complete _ _ := rfl
  withSeq _ _ := rfl
  withMem _ _ := rfl
  withResult _ _ := rfl
  withPos _ _ := rfl
  withOutLen _ _ := rfl

/-- What the update has become in the next state: `v` when the command has ended, `u` while it is in flight. -/
def carried (u v : State → State) (t : State) : State := if t.seq = .idle then v t else u t

/-- The same for an answer. -/
def carriedResult (u v : State → State) : Result → Result
  | .next t => .next (carried u v t)
  | r => r

/-- What the block does with a fetched code, whether it decodes or not. -/
def runCode (c : Code) (s : State) : Result :=
  match decode c with
  | .ok i => exec i s
  | .error _ => .next (s.raise .illegalCommand .kept)

section
variable {u v : State → State} (hu : FlagUpdate u v) (s : State)
include hu

/-! ### What is read through the update -/

theorem FlagUpdate.fields : (u s).seq = s.seq ∧ (u s).cmd = s.cmd ∧ (u s).pos = s.pos ∧ (u s).len = s.len ∧
    (u s).expect = s.expect ∧ (u s).outCap = s.outCap ∧ (u s).out = s.out ∧ (u s).operandsOk = s.operandsOk := by
  obtain ⟨f, x, h⟩ := hu.flagsOnly s
  rw [h]
  exact ⟨rfl, rfl, rfl, rfl, rfl, rfl, rfl, rfl⟩

theorem FlagUpdate.bufLen (b : Buf) : (u s).bufLen b = s.bufLen b := by
  obtain ⟨f, x, h⟩ := hu.flagsOnly s
  rw [h]
  cases b <;> rfl

theorem FlagUpdate.byte (b : Buf) (a : Nat) : (u s).byte b a = s.byte b a := by
  obtain ⟨f, x, h⟩ := hu.flagsOnly s
  rw [h]
  cases b <;> rfl

theorem FlagUpdate.bytes (b : Buf) (a n : Nat) : (u s).bytes b a n = s.bytes b a n :=
  State.bytes_congr fun i _ _ => hu.byte s b i

theorem FlagUpdate.memRead (b : Buf) (a n : Nat) : (u s).memRead b a n = s.memRead b a n := by
  simp only [State.memRead, hu.bufLen, hu.bytes]

/-! ### Where the update goes -/

theorem carried_raise (e : ErrKind) (o : OutEffect) : (u s).raise e o = carried u v (s.raise e o) :=
  (hu.raise s e o).trans (if_pos rfl).symm

theorem carried_complete (m : Bool) : (u s).complete m = carried u v (s.complete m) :=
  (hu.complete s m).trans (if_pos rfl).symm

theorem carried_withSeq {q : Sequencer} (hq : q ≠ .idle) : (u s).withSeq q = carried u v (s.withSeq q) :=
  (hu.withSeq s q).trans (if_neg hq).symm

theorem carried_yay0Go (b : Buf) (q : Yay0Seq) : (u s).yay0Go b q = carried u v (s.yay0Go b q) := by
  unfold State.yay0Go
  split
  · exact carried_withSeq hu s nofun
  · rw [hu.withOutLen, hu.withResult, carried_complete hu]

theorem carriedResult_checked (i : Instr) {own own' : Result} (h : own' = carriedResult u v own) :
    (u s).checked i own' = carriedResult u v (s.checked i own) := by
  obtain ⟨-, -, -, -, -, -, -, hok⟩ := hu.fields s
  unfold State.checked
  rw [hok]
  split
  · exact h
  · exact congrArg _ (carried_raise hu s _ _)

/-! ### Each instruction passes the update through -/

theorem execNop_update : execNop (u s) = carriedResult u v (execNop s) :=
  carriedResult_checked hu s .nop (congrArg _ (carried_complete hu s false))

theorem execCrc_update (b : Buf) : execCrc b (u s) = carriedResult u v (execCrc b s) := by
  obtain ⟨-, -, hpos, hlen, -⟩ := hu.fields s
  refine carriedResult_checked hu s (.crc b) ?_
  rw [hu.memRead, hpos, hlen]
  cases s.memRead b s.pos.toNat s.len.toNat with
  | error e => exact congrArg _ (carried_raise hu s e _)
  | ok ms => exact congrArg _ ((congrArg (State.complete · _) (hu.withResult s _)).trans (carried_complete hu _ _))

theorem execCrcchk_update (b : Buf) (ign : Bool) : execCrcchk b ign (u s) = carriedResult u v (execCrcchk b ign s) := by
  obtain ⟨-, -, hpos, hlen, hexpect, -⟩ := hu.fields s
  refine carriedResult_checked hu s (.crcchk b ign) ?_
  rw [hu.memRead, hpos, hlen, hexpect]
  cases s.memRead b s.pos.toNat s.len.toNat with
  | error e => exact congrArg _ (carried_raise hu s e _)
  | ok ms =>
    dsimp only
    split
    · exact congrArg _ ((congrArg (State.raise · _ _) (hu.withResult s _)).trans (carried_raise hu _ _ _))
    · exact congrArg _ ((congrArg (State.complete · _) (hu.withResult s _)).trans (carried_complete hu _ _))

theorem yay0Header_update (b : Buf) : (u s).yay0Header b = s.yay0Header b := by
  obtain ⟨-, -, hpos, -, -, hcap, -⟩ := hu.fields s
  simp only [State.yay0Header, hu.memRead, hpos, hcap]

theorem execYay0_update (b : Buf) : execYay0 b (u s) = carriedResult u v (execYay0 b s) := by
  refine carriedResult_checked hu s (.yay0 b) ?_
  rw [yay0Header_update hu]
  cases s.yay0Header b with
  | error e => exact congrArg _ (carried_raise hu s e _)
  | ok q => exact congrArg _ (carried_yay0Go hu s b q)

theorem varintStart_update (signed : Bool) (b : Buf) :
    (u s).varintStart signed b = carried u v (s.varintStart signed b) := by
  obtain ⟨-, -, hpos, -⟩ := hu.fields s
  rw [State.varintStart, hpos]
  exact carried_withSeq hu s nofun

theorem execSwap16_update (b : Buf) : execSwap16 b (u s) = carriedResult u v (execSwap16 b s) := by
  obtain ⟨-, -, hpos, hlen, -, hcap, hout, -⟩ := hu.fields s
  refine carriedResult_checked hu s (.swap16 b) ?_
  dsimp only
  rw [hpos, hlen, hcap, hout, hu.bufLen, hu.bytes]
  split_ifs
  · exact congrArg _ (carried_raise hu s _ _)
  · exact congrArg _ (carried_raise hu s _ _)
  · exact congrArg _ (carried_raise hu s _ _)
  · rw [hu.withMem, hu.withOutLen, hu.withResult, carried_complete hu]
    rfl

theorem execRd_update (b : Buf) (be : Bool) (n : BitVec 4) : execRd b be n (u s) = carriedResult u v (execRd b be n s) := by
  obtain ⟨-, -, hpos, -⟩ := hu.fields s
  refine carriedResult_checked hu s (.rd b be n) ?_
  rw [hu.memRead, hpos]
  cases s.memRead b s.pos.toNat n.toNat with
  | error e => exact congrArg _ (carried_raise hu s e _)
  | ok xs =>
    dsimp only
    rw [hu.withResult, hu.withPos, carried_complete hu]
    rfl

theorem yay0Copy_update (b : Buf) (q : Yay0Seq) (n d : Nat) :
    (u s).yay0Copy b q n d = carried u v (s.yay0Copy b q n d) := by
  obtain ⟨-, -, -, -, -, -, hout, -⟩ := hu.fields s
  unfold State.yay0Copy
  rw [hout]
  split
  · exact carried_raise hu s _ _
  · cases copyLoop d q.size n s.out q.op with
    | none => exact carried_raise hu s _ _
    | some m => exact (congrArg (State.yay0Go · b _) (hu.withMem s m)).trans (carried_yay0Go hu _ b _)

theorem execLit_update (k : Byte) : execLit k (u s) = carriedResult u v (execLit k s) := by
  obtain ⟨hseq, -, -, -, -, -, hout, -⟩ := hu.fields s
  unfold execLit
  rw [hseq, hout]
  cases s.seq with
  | yay0 b q => exact congrArg _ ((congrArg (State.yay0Go · b _) (hu.withMem s _)).trans (carried_yay0Go hu _ b _))
  | idle | issued | varint => rfl

theorem execCopy_update (f : BitVec 4) (d : BitVec 12) : execCopy f d (u s) = carriedResult u v (execCopy f d s) := by
  obtain ⟨hseq, -⟩ := hu.fields s
  unfold execCopy
  rw [hseq]
  cases s.seq with
  | yay0 b q => exact congrArg _ (yay0Copy_update hu s b _ _ _)
  | idle | issued | varint => rfl

theorem execLcopy_update (d : BitVec 12) (e : Byte) : execLcopy d e (u s) = carriedResult u v (execLcopy d e s) := by
  obtain ⟨hseq, -⟩ := hu.fields s
  unfold execLcopy
  rw [hseq]
  cases s.seq with
  | yay0 b q => exact congrArg _ (yay0Copy_update hu s b _ _ _)
  | idle | issued | varint => rfl

theorem execVbCont_update (w : BitVec 7) : execVbCont w (u s) = carriedResult u v (execVbCont w s) := by
  obtain ⟨hseq, -⟩ := hu.fields s
  unfold execVbCont
  rw [hseq]
  cases s.seq with
  | varint signed b q =>
    dsimp only
    split_ifs
    · exact congrArg _ (carried_raise hu s _ _)
    · exact congrArg _ (carried_raise hu s _ _)
    · exact congrArg _ (carried_withSeq hu s nofun)
  | idle | issued | yay0 => rfl

theorem execVbEnd_update (w : BitVec 7) : execVbEnd w (u s) = carriedResult u v (execVbEnd w s) := by
  obtain ⟨hseq, -⟩ := hu.fields s
  unfold execVbEnd
  rw [hseq]
  cases s.seq with
  | varint signed b q =>
    dsimp only
    split_ifs
    · exact congrArg _ (carried_raise hu s _ _)
    · rw [hu.withResult, hu.withPos, carried_complete hu]
      rfl
  | idle | issued | yay0 => rfl

theorem exec_update (i : Instr) : exec i (u s) = carriedResult u v (exec i s) := by
  cases i with
  | nop => exact execNop_update hu s
  | crc b => exact execCrc_update hu s b
  | crcchk b ign => exact execCrcchk_update hu s b ign
  | yay0 b => exact execYay0_update hu s b
  | varu b => exact carriedResult_checked hu s (.varu b) (congrArg _ (varintStart_update hu s false b))
  | vars b => exact carriedResult_checked hu s (.vars b) (congrArg _ (varintStart_update hu s true b))
  | swap16 b => exact execSwap16_update hu s b
  | rd b be n => exact execRd_update hu s b be n
  | lit k => exact execLit_update hu s k
  | copy f d => exact execCopy_update hu s f d
  | lcopy d e => exact execLcopy_update hu s d e
  | vbCont w => exact execVbCont_update hu s w
  | vbEnd w => exact execVbEnd_update hu s w

/-! ### The fetch passes it through too -/

theorem yay0Fetch_update (b : Buf) (q : Yay0Seq) : (u s).yay0Fetch b q = s.yay0Fetch b q := by
  simp only [State.yay0Fetch, State.yay0Refill, hu.memRead]

theorem varintFetch_update (b : Buf) (q : VarintSeq) : (u s).varintFetch b q = s.varintFetch b q := by
  simp only [State.varintFetch, hu.memRead, hu.byte]

theorem runCode_update (c : Code) : runCode c (u s) = carriedResult u v (runCode c s) := by
  unfold runCode
  cases decode c with
  | ok i => exact exec_update hu s i
  | error r => exact congrArg _ (carried_raise hu s _ _)

theorem blockStep_update (hq : s.seq ≠ .idle) : blockStep (u s) = carriedResult u v (blockStep s) := by
  obtain ⟨hseq, hcmd, -⟩ := hu.fields s
  unfold blockStep State.fetch
  rw [hseq, hcmd]
  cases hs : s.seq with
  | idle => exact absurd hs hq
  | issued => exact runCode_update hu s _
  | yay0 b q =>
    dsimp only
    rw [yay0Fetch_update hu]
    cases s.yay0Fetch b q with
    | error e => exact congrArg _ (carried_raise hu s e _)
    | ok r =>
      dsimp only
      rw [hu.withSeq]
      exact runCode_update hu _ r.1
  | varint signed b q =>
    dsimp only
    rw [varintFetch_update hu]
    cases s.varintFetch b q with
    | error e => exact congrArg _ (carried_raise hu s e _)
    | ok c => exact runCode_update hu s c

end

/-- An action that passes every update of flags through reads none of them. -/
theorem readsNoFlag_of_update {act : State → Result} {s : State}
    (h : ∀ {u v : State → State}, FlagUpdate u v → act (u s) = carriedResult u v (act s)) : ReadsNoFlag act s := by
  intro t ht
  refine ⟨fun x => ?ie, fun hidle f => ?ended, fun hflight f => ?inFlight⟩
  case ie =>
    have hx := h (flagUpdate_ie x)
    rw [ht] at hx
    exact hx.trans (congrArg _ (ite_self _))
  case ended =>
    have hf := h (flagUpdate_withFlags f)
    rw [ht] at hf
    exact hf.trans (congrArg _ (if_pos hidle))
  case inFlight =>
    have hf := h (flagUpdate_withFlags f)
    rw [ht] at hf
    exact hf.trans (congrArg _ (if_neg hflight))

/-- Settles O57: every instruction, and the block's step with its fetch, passes an update of flags through. -/
theorem commandsReadNoFlag : Obligations.CommandsReadNoFlag :=
  ⟨fun i s => readsNoFlag_of_update fun hu => exec_update hu s i,
    fun s hq => readsNoFlag_of_update fun hu => blockStep_update hu s hq⟩

end Sys2Proof.Machine


/-! PROOFS. Bytes the host has not declared valid influence nothing else (U1): two states that differ in such bytes alone step
alike. -/

namespace Sys2Proof.Machine

/-! ### States that agree on the declared bytes -/

/-- The state with other memories. -/
def State.withBufs (s : State) (src pat out : Memory) : State := { s with src := src, pat := pat, out := out }

/-- The states differ at most in bytes of SRC and PAT at or beyond their lengths, and in bytes of OUT from `n` on. -/
structure SameUpTo (n : Nat) (s t : State) : Prop where
  rest : t = s.withBufs t.src t.pat t.out
  src : ∀ a, a < s.srcLen.toNat → t.byte .src a = s.byte .src a
  pat : ∀ a, a < s.patLen.toNat → t.byte .pat a = s.byte .pat a
  out : ∀ a, a < n → t.byte .out a = s.byte .out a

theorem sameDeclared_iff {s t : State} : SameDeclared s t ↔ SameUpTo s.declaredOut s t :=
  ⟨fun ⟨hrest, hsrc, hpat, hout⟩ => ⟨hrest, hsrc, hpat, hout⟩, fun ⟨hrest, hsrc, hpat, hout⟩ => ⟨hrest, hsrc, hpat, hout⟩⟩

theorem State.declaredOut_le {s : State} {n : Nat} (h : s.seq = .idle ∨ s.seq = .issued ∨ ∃ g b q, s.seq = .varint g b q)
    (hn : s.outLen.toNat ≤ n) : s.declaredOut ≤ n := by
  unfold State.declaredOut
  obtain hq | hq | ⟨g, b, q, hq⟩ := h <;> simpa only [hq] using hn

section
variable {n : Nat} {s s' : State}

theorem SameUpTo.mono {k : Nat} (h : SameUpTo n s s') (hk : k ≤ n) : SameUpTo k s s' :=
  ⟨h.rest, h.src, h.pat, fun a ha => h.out a (ha.trans_le hk)⟩

theorem SameUpTo.fields (h : SameUpTo n s s') : s'.seq = s.seq ∧ s'.cmd = s.cmd ∧ s'.pos = s.pos ∧ s'.len = s.len ∧
    s'.expect = s.expect ∧ s'.outCap = s.outCap ∧ s'.host = s.host ∧ s'.operandsOk = s.operandsOk := by
  rw [h.rest]
  exact ⟨rfl, rfl, rfl, rfl, rfl, rfl, rfl, rfl⟩

theorem SameUpTo.bufLen (h : SameUpTo n s s') (b : Buf) : s'.bufLen b = s.bufLen b := by
  rw [h.rest]
  cases b <;> rfl

/-! ### What is read is the same -/

/-- Every byte below the readable length is declared valid, where OUT is read only while its length says so. -/
theorem SameUpTo.byte (h : SameUpTo n s s') {b : Buf} (hb : b = .out → s.outLen.toNat ≤ n) {a : Nat} (ha : a < s.bufLen b) :
    s'.byte b a = s.byte b a := by
  cases b with
  | src => exact h.src a ha
  | pat => exact h.pat a ha
  | out => exact h.out a (ha.trans_le (hb rfl))

theorem SameUpTo.bytes (h : SameUpTo n s s') {b : Buf} (hb : b = .out → s.outLen.toNat ≤ n) {a k : Nat}
    (hle : a + k ≤ s.bufLen b) : s'.bytes b a k = s.bytes b a k :=
  State.bytes_congr fun _ _ hi => h.byte hb (hi.trans_le hle)

theorem SameUpTo.memRead (h : SameUpTo n s s') {b : Buf} (hb : b = .out → s.outLen.toNat ≤ n) (a k : Nat) :
    s'.memRead b a k = s.memRead b a k := by
  rcases Nat.lt_or_ge (s.bufLen b) (a + k) with hlt | hle
  · rw [State.memRead_of_lt hlt, State.memRead_of_lt ((h.bufLen b).trans_lt hlt)]
  · rw [State.memRead_of_le hle, State.memRead_of_le (hle.trans_eq (h.bufLen b).symm), h.bytes hb hle]

/-! ### The updates keep the agreement -/

theorem SameUpTo.withResult (h : SameUpTo n s s') (r : DWord) : SameUpTo n (s.withResult r) (s'.withResult r) :=
  ⟨by rw [h.rest]; rfl, h.src, h.pat, h.out⟩

theorem SameUpTo.withPos (h : SameUpTo n s s') (p : Word) : SameUpTo n (s.withPos p) (s'.withPos p) :=
  ⟨by rw [h.rest]; rfl, h.src, h.pat, h.out⟩

theorem SameUpTo.withOutLen (h : SameUpTo n s s') (l : Word) : SameUpTo n (s.withOutLen l) (s'.withOutLen l) :=
  ⟨by rw [h.rest]; rfl, h.src, h.pat, h.out⟩

theorem SameUpTo.withSeq (h : SameUpTo n s s') (q : Sequencer) : SameUpTo n (s.withSeq q) (s'.withSeq q) :=
  ⟨by rw [h.rest]; rfl, h.src, h.pat, h.out⟩

theorem SameUpTo.complete (h : SameUpTo n s s') (m : Bool) : SameUpTo n (s.complete m) (s'.complete m) :=
  ⟨by rw [h.rest]; rfl, h.src, h.pat, h.out⟩

/-- Another content of OUT in both states, the same up to `k`. -/
theorem SameUpTo.withOut {k : Nat} {m m' : Memory} (h : SameUpTo n s s')
    (hm : ∀ a, a < k → m'.byteAt .out a = m.byteAt .out a) : SameUpTo k (s.withMem .out m) (s'.withMem .out m') :=
  ⟨by rw [h.rest]; rfl, h.src, h.pat, hm⟩

/-- An event that leaves OUT unspecified gives both states the same free bytes. -/
theorem SameUpTo.raise (h : SameUpTo n s s') (e : ErrKind) (o : OutEffect) : SameUpTo n (s.raise e o) (s'.raise e o) := by
  refine ⟨by rw [h.rest]; cases o <;> rfl, fun a ha => ?_, fun a ha => ?_, fun a ha => ?_⟩
  · rw [State.raise_byte_input s' e o (b := .src) nofun, State.raise_byte_input s e o (b := .src) nofun]
    exact h.src a (by simpa using ha)
  · rw [State.raise_byte_input s' e o (b := .pat) nofun, State.raise_byte_input s e o (b := .pat) nofun]
    exact h.pat a (by simpa using ha)
  · have hcap : s'.outCap = s.outCap := by rw [h.rest]; rfl
    have hcount : s'.freeCount = s.freeCount := by rw [h.rest]; rfl
    cases o with
    | kept => exact h.out a ha
    | emptied => exact h.out a ha
    | voided =>
      simp only [State.byte, State.mem_out, State.raise_out, State.loseOut_voided_out, hcap, hcount]
      rcases Nat.lt_or_ge a s.outCap.toNat with hlt | hge
      · rw [Memory.byteAt_void_below _ _ _ _ hlt, Memory.byteAt_void_below _ _ _ _ hlt]
      · rw [Memory.byteAt_void_above _ _ _ _ hge, Memory.byteAt_void_above _ _ _ _ hge]
        exact h.out a ha

theorem SameUpTo.yay0Go (h : SameUpTo n s s') (b : Buf) (q : Yay0Seq) : SameUpTo n (s.yay0Go b q) (s'.yay0Go b q) := by
  unfold State.yay0Go
  split
  · exact h.withSeq _
  · exact ((h.withOutLen _).withResult _).complete false

/-! ### Answers that agree -/

/-- Where the first answers with a next state, so does the second, and the two agree on what is then declared valid. -/
def AnswersAlike (r r' : Result) : Prop := ∀ t, r = .next t → ∃ t', r' = .next t' ∧ SameDeclared t t'

theorem AnswersAlike.next {t t' : State} (h : SameUpTo n t t') (hn : t.declaredOut ≤ n) :
    AnswersAlike (.next t) (.next t') := by
  rintro u ⟨⟩
  exact ⟨t', rfl, sameDeclared_iff.2 (h.mono hn)⟩

/-- A completion with an error: OUT_LEN is as before or 0. -/
theorem AnswersAlike.raise (h : SameUpTo n s s') (e : ErrKind) {o : OutEffect} (ho : o = .kept → s.outLen.toNat ≤ n) :
    AnswersAlike (.next (s.raise e o)) (.next (s'.raise e o)) := by
  refine .next (h.raise e o) (State.declaredOut_le (.inl rfl) ?_)
  cases o with
  | kept => exact ho rfl
  | emptied => exact Nat.zero_le _
  | voided => exact Nat.zero_le _

theorem AnswersAlike.complete (h : SameUpTo n s s') (m : Bool) (hn : s.outLen.toNat ≤ n) :
    AnswersAlike (.next (s.complete m)) (.next (s'.complete m)) :=
  .next (h.complete m) (State.declaredOut_le (.inl rfl) hn)

/-- Once YAY0 has produced `q.op` bytes, those are what is declared: while in flight, and when it ends with them. -/
theorem AnswersAlike.yay0Go {b : Buf} {q : Yay0Seq} (h : SameUpTo q.op s s') :
    AnswersAlike (.next (s.yay0Go b q)) (.next (s'.yay0Go b q)) := by
  refine .next (h.yay0Go b q) ?_
  obtain ⟨-, hgo⟩ | ⟨hle, hgo⟩ := s.yay0Go_cases b q
  · rw [hgo]
    exact Nat.le_refl q.op
  · rw [hgo]
    refine State.declaredOut_le (.inl rfl) (Nat.le_trans ?_ hle)
    exact (BitVec.toNat_ofNat _ _).trans_le (Nat.mod_le _ _)

theorem AnswersAlike.refused (r : Refusal) (r' : Result) : AnswersAlike (.refused r) r' := by
  rintro t ⟨⟩

theorem AnswersAlike.checked (h : SameUpTo n s s') (hn : s.outLen.toNat ≤ n) (i : Instr) {own own' : Result}
    (hown : AnswersAlike own own') : AnswersAlike (s.checked i own) (s'.checked i own') := by
  obtain ⟨-, -, -, -, -, -, -, hok⟩ := h.fields
  unfold State.checked
  rw [hok]
  split
  · exact hown
  · exact .raise h _ fun _ => hn

/-! ### The commands -/

section
variable (h : SameUpTo n s s') (hn : s.outLen.toNat ≤ n) {b : Buf}
include h hn

theorem execNop_alike : AnswersAlike (execNop s) (execNop s') :=
  .checked h hn .nop (.complete h false hn)

theorem execCrc_alike : AnswersAlike (execCrc b s) (execCrc b s') := by
  obtain ⟨-, -, hpos, hlen, -⟩ := h.fields
  refine .checked h hn (.crc b) ?_
  rw [h.memRead fun _ => hn, hpos, hlen]
  cases s.memRead b s.pos.toNat s.len.toNat with
  | error e => exact .raise h e fun _ => hn
  | ok ms => exact .complete (h.withResult _) false hn

theorem execCrcchk_alike {ign : Bool} : AnswersAlike (execCrcchk b ign s) (execCrcchk b ign s') := by
  obtain ⟨-, -, hpos, hlen, hexpect, -⟩ := h.fields
  refine .checked h hn (.crcchk b ign) ?_
  rw [h.memRead fun _ => hn, hpos, hlen, hexpect]
  cases s.memRead b s.pos.toNat s.len.toNat with
  | error e => exact .raise h e fun _ => hn
  | ok ms =>
    dsimp only
    split
    · exact .raise (h.withResult _) _ fun _ => hn
    · exact .complete (h.withResult _) _ hn

theorem execYay0_alike : AnswersAlike (execYay0 b s) (execYay0 b s') := by
  obtain ⟨-, -, hpos, -, -, hcap, -⟩ := h.fields
  have hheader : s'.yay0Header b = s.yay0Header b := by
    simp only [State.yay0Header, h.memRead fun _ => hn, hpos, hcap]
  refine .checked h hn (.yay0 b) ?_
  rw [hheader]
  cases hh : s.yay0Header b with
  | error e => exact .raise h e nofun
  | ok q =>
    obtain ⟨-, hop, -⟩ := State.yay0Header_ok hh
    exact .yay0Go (h.mono (hop ▸ Nat.zero_le n))

theorem varintStart_alike (signed : Bool) :
    AnswersAlike (.next (s.varintStart signed b)) (.next (s'.varintStart signed b)) := by
  obtain ⟨-, -, hpos, -⟩ := h.fields
  rw [State.varintStart, State.varintStart, hpos]
  exact .next (h.withSeq _) (State.declaredOut_le (.inr (.inr ⟨_, _, _, rfl⟩)) hn)

theorem execSwap16_alike : AnswersAlike (execSwap16 b s) (execSwap16 b s') := by
  obtain ⟨-, -, hpos, hlen, -, hcap, -⟩ := h.fields
  refine .checked h hn (.swap16 b) ?_
  dsimp only
  rw [hpos, hlen, hcap, h.bufLen]
  split_ifs with _ hlt
  · exact .raise h _ nofun
  · exact .raise h _ nofun
  · exact .raise h _ nofun
  · have hbytes : s'.bytes b s.pos.toNat s.len.toNat = s.bytes b s.pos.toNat s.len.toNat :=
      h.bytes (fun _ => hn) (Nat.not_lt.1 hlt)
    have hsame (a : Nat) (ha : a < s.len.toNat) :
        (s'.out.writeAll 0 (swapPairs (s.bytes b s.pos.toNat s.len.toNat))).byteAt .out a =
          (s.out.writeAll 0 (swapPairs (s.bytes b s.pos.toNat s.len.toNat))).byteAt .out a := by
      have hin : a < (swapPairs (s.bytes b s.pos.toNat s.len.toNat)).length := by
        rw [swapPairs_length, State.bytes_length]
        exact ha
      rw [← Nat.zero_add a, Memory.byteAt_writeAll_inside _ _ _ _ hin, Memory.byteAt_writeAll_inside _ _ _ _ hin]
    rw [hbytes]
    exact .complete (((h.withOut hsame).withOutLen s.len).withResult _) false (Nat.le_refl _)

theorem execRd_alike {be : Bool} {k : BitVec 4} : AnswersAlike (execRd b be k s) (execRd b be k s') := by
  obtain ⟨-, -, hpos, -⟩ := h.fields
  refine .checked h hn (.rd b be k) ?_
  rw [h.memRead fun _ => hn, hpos]
  cases s.memRead b s.pos.toNat k.toNat with
  | error e => exact .raise h e fun _ => hn
  | ok xs => exact .complete ((h.withResult _).withPos _) false hn

/-! ### The bytes of a varint -/

theorem execVbCont_alike {v : BitVec 7} : AnswersAlike (execVbCont v s) (execVbCont v s') := by
  obtain ⟨hseq, -⟩ := h.fields
  unfold execVbCont
  rw [hseq]
  cases s.seq with
  | varint signed b q =>
    dsimp only
    split_ifs
    · exact .raise h _ fun _ => hn
    · exact .raise h _ fun _ => hn
    · exact .next (h.withSeq _) (State.declaredOut_le (.inr (.inr ⟨_, _, _, rfl⟩)) hn)
  | idle | issued | yay0 => exact .refused _ _

theorem execVbEnd_alike {v : BitVec 7} : AnswersAlike (execVbEnd v s) (execVbEnd v s') := by
  obtain ⟨hseq, -⟩ := h.fields
  unfold execVbEnd
  rw [hseq]
  cases s.seq with
  | varint signed b q =>
    dsimp only
    split_ifs
    · exact .raise h _ fun _ => hn
    · exact .complete ((h.withResult _).withPos _) false hn
  | idle | issued | yay0 => exact .refused _ _

theorem exec_command_alike {i : Instr} (hi : i.isCommand = true) : AnswersAlike (exec i s) (exec i s') := by
  cases i with
  | nop => exact execNop_alike h hn
  | crc b => exact execCrc_alike h hn
  | crcchk b ign => exact execCrcchk_alike h hn
  | yay0 b => exact execYay0_alike h hn
  | varu b => exact .checked h hn (.varu b) (varintStart_alike h hn false)
  | vars b => exact .checked h hn (.vars b) (varintStart_alike h hn true)
  | swap16 b => exact execSwap16_alike h hn
  | rd b be k => exact execRd_alike h hn
  | lit | copy | lcopy | vbCont | vbEnd => cases hi

theorem exec_varintByte_alike {i : Instr} (hi : IsVarintByte i) : AnswersAlike (exec i s) (exec i s') := by
  obtain ⟨v, rfl⟩ | ⟨v, rfl⟩ := hi
  · exact execVbCont_alike h hn
  · exact execVbEnd_alike h hn

end

/-! ### The operations of a Yay0 stream -/

/-- The copy reads below the output position only, so it writes the same bytes in both. -/
theorem copyLoop_alike {d size k op : Nat} {m m' m₁ : Memory} (hd : d + 1 ≤ op)
    (hm : ∀ a, a < op → m'.byteAt .out a = m.byteAt .out a) (h : copyLoop d size k m op = some m₁) :
    ∃ m₁', copyLoop d size k m' op = some m₁' ∧ ∀ a, a < op + k → m₁'.byteAt .out a = m₁.byteAt .out a := by
  induction k generalizing m m' op with
  | zero =>
    cases h
    exact ⟨m', rfl, hm⟩
  | succ k ih =>
    rw [copyLoop] at h ⊢
    split at h
    · cases h
    · next hsize =>
      rw [if_neg hsize, hm (op - d - 1) (by omega)]
      have hwrite (x : Byte) (a : Nat) (ha : a < op + 1) :
          (m'.write op x).byteAt .out a = (m.write op x).byteAt .out a := by
        by_cases haop : a = op
        · rw [haop, Memory.byteAt_write_same, Memory.byteAt_write_same]
        · rw [Memory.byteAt_write_other _ _ _ haop, Memory.byteAt_write_other _ _ _ haop, hm a (by omega)]
      obtain ⟨m₁', hloop, hsame⟩ := ih (by omega) (hwrite _) h
      exact ⟨m₁', hloop, fun a ha => hsame a (by omega)⟩

theorem copyLoop_none_alike {d size k op : Nat} {m : Memory} (m' : Memory) (h : copyLoop d size k m op = none) :
    copyLoop d size k m' op = none := by
  cases h' : copyLoop d size k m' op with
  | none => rfl
  | some m₁ =>
    have hover := copyLoop_none h
    obtain ⟨m₂, h₂⟩ := copyLoop_isSome (d := d) (m := m) (copyLoop_some h')
    exact absurd (h.symm.trans h₂) nofun

section
variable {b : Buf} {q : Yay0Seq} (h : SameUpTo q.op s s')
include h

theorem yay0Copy_alike {q' : Yay0Seq} (hop : q'.op = q.op) (k d : Nat) :
    AnswersAlike (.next (s.yay0Copy b q' k d)) (.next (s'.yay0Copy b q' k d)) := by
  unfold State.yay0Copy
  split
  · exact .raise h _ fun hk => absurd hk q'.outEffect_ne_kept
  · next hd =>
    cases hloop : copyLoop d q'.size k s.out q'.op with
    | none =>
      rw [copyLoop_none_alike s'.out hloop]
      exact .raise h _ nofun
    | some m =>
      obtain ⟨m', hloop', hsame⟩ := copyLoop_alike (m := s.out) (m' := s'.out) (Nat.not_lt.1 hd) (fun a ha => h.out a (hop ▸ ha)) hloop
      rw [hloop']
      exact .yay0Go (q := q'.produce k) (h.withOut hsame)

theorem exec_yay0Op_alike {i : Instr} (hi : IsYay0Op i) (hq : s.seq = .yay0 b q) :
    AnswersAlike (exec i s) (exec i s') := by
  obtain ⟨hseq, -⟩ := h.fields
  have hq' := hseq.trans hq
  obtain ⟨k, rfl⟩ | ⟨f, d, rfl⟩ | ⟨d, e, rfl⟩ := hi
  · rw [exec_lit k hq, exec_lit k hq']
    refine .yay0Go (q := q.takeBit.takeChunk.produce 1) (h.withOut fun a ha => ?_)
    rcases Nat.lt_or_ge a q.op with hlt | hge
    · rw [Memory.byteAt_write_other _ _ _ (by omega), Memory.byteAt_write_other _ _ _ (by omega)]
      exact h.out a hlt
    · have haop : a = q.op := Nat.le_antisymm (Nat.lt_succ_iff.1 ha) hge
      rw [haop, Memory.byteAt_write_same, Memory.byteAt_write_same]
  · rw [exec_copy f d hq, exec_copy f d hq']
    exact yay0Copy_alike h (q' := q.takeBit.takePair) rfl _ _
  · rw [exec_lcopy d e hq, exec_lcopy d e hq']
    exact yay0Copy_alike h (q' := q.takeBit.takePair.takeChunk) rfl _ _

/-- An input buffer is read alike, however much of OUT is declared. -/
theorem yay0Fetch_alike (hb : b ≠ .out) (q' : Yay0Seq) : s'.yay0Fetch b q' = s.yay0Fetch b q' := by
  simp only [State.yay0Fetch, State.yay0Refill, h.memRead fun hout => absurd hout hb]

end

end

/-- The input of a YAY0 in flight is not OUT (R94). -/
theorem State.Inv.input_of_yay0 {s : State} {b : Buf} {q : Yay0Seq} (hs : s.Inv) (hq : s.seq = .yay0 b q) : b ≠ .out := by
  obtain ⟨hwf, -⟩ := decode_command_iff.1 (hs.decode_of_yay0 hq)
  exact isInput_iff.1 hwf

theorem blockStep_alike {s s' : State} (hs : s.Inv) (h : SameDeclared s s') :
    AnswersAlike (blockStep s) (blockStep s') := by
  rw [sameDeclared_iff] at h
  obtain ⟨hseq, hcmd, -⟩ := h.fields
  cases hq : s.seq with
  | idle =>
    rw [blockStep_idle hq, blockStep_idle (hseq.trans hq)]
    exact .next h (Nat.le_refl _)
  | issued =>
    have hn : s.outLen.toNat ≤ s.declaredOut := by simp only [State.declaredOut, hq, Nat.le_refl]
    cases hd : decode (.command s.cmd) with
    | ok i =>
      rw [blockStep_issued hq hd, blockStep_issued (hseq.trans hq) (hcmd ▸ hd)]
      exact exec_command_alike h hn (decodeCommand_isCommand hd)
    | error r =>
      rw [blockStep_illegal hq hd, blockStep_illegal (hseq.trans hq) (hcmd ▸ hd)]
      exact .raise h _ fun _ => hn
  | yay0 b q =>
    have hop : s.declaredOut = q.op := by simp only [State.declaredOut, hq]
    rw [hop] at h
    have hfetch := yay0Fetch_alike h (hs.input_of_yay0 hq) q
    obtain ⟨e, hf, hstep⟩ | ⟨c, q', i, hf, hd, hstep⟩ := blockStep_yay0 hq
    · rw [hstep, blockStep_yay0_of_error (hseq.trans hq) (hfetch.trans hf)]
      exact .raise h _ fun hk => absurd hk q.outEffect_ne_kept
    · obtain ⟨hrefill, -⟩ := State.yay0Fetch_ok hf
      obtain ⟨-, hop', -, -⟩ := State.yay0Refill_frame hrefill
      rw [hstep, blockStep_yay0_of_fetch (hseq.trans hq) (hfetch.trans hf) hd]
      exact exec_yay0Op_alike (q := q') (hop' ▸ h.withSeq _) (isYay0Op_of_fetch hf hd) rfl
  | varint signed b q =>
    have hn : s.outLen.toNat ≤ s.declaredOut := by simp only [State.declaredOut, hq, Nat.le_refl]
    obtain ⟨hlt, hstep⟩ | ⟨hle, hstep⟩ := blockStep_varint hq
    · rw [hstep, blockStep_varint_of_truncated (hseq.trans hq) ((h.bufLen b).trans_lt hlt)]
      exact .raise h _ fun _ => hn
    · rw [hstep, blockStep_varint_of_byte (hseq.trans hq) (hle.trans_eq (h.bufLen b).symm), h.byte (fun _ => hn) hle]
      exact exec_varintByte_alike h hn (isVarintByte_decodeVarintByte _)

/-- Settles O58: what the block reads is declared valid, and it declares valid only what it has written alike. -/
theorem undeclaredBytesDoNotMatter : Obligations.UndeclaredBytesDoNotMatter := by
  intro s s' t hs h hh hstep
  obtain ⟨-, -, -, -, -, -, hhost, -⟩ := (sameDeclared_iff.1 h).fields
  obtain ⟨t', ht', hsame⟩ := blockStep_alike hs h t ((step_of_host_nil hh).symm.trans hstep)
  exact ⟨t', (step_of_host_nil (hhost.trans hh)).trans ht', hsame⟩

end Sys2Proof.Machine


/-! PROOFS. A whole YAY0 command is the pure decompressor (R96, R170): each stream operation of the machine is one of `refLoop`. -/

namespace Sys2Proof.Machine

/-! ### The pure decompressor, one operation at a time -/

/-- COPY and LCOPY in the pure decompressor: `n` bytes from distance `d + 1`, and the loop from there (R167, R168). -/
def refCopied (inp : Nat → Byte) (L base size fuel k pp kp d n : Nat) (xs : List Byte) : Except ErrKind (List Byte) :=
  if xs.length < d + 1 then .error .badReference
  else (refCopy size d n xs).bind (refLoop inp L base size fuel (k + 1) pp kp)

section
variable {inp : Nat → Byte} {L base size fuel k pp kp : Nat} {xs : List Byte}

theorem refLoop_of_done (h : size ≤ xs.length) : refLoop inp L base size fuel k pp kp xs = .ok xs := by
  cases fuel with
  | zero => rfl
  | succ fuel => rw [refLoop, if_pos h]

/-- The `k`-th operation of the pure decompressor. -/
theorem refLoop_succ (h : xs.length < size) :
    refLoop inp L base size (fuel + 1) k pp kp xs =
      if L < base + 16 + 4 * (k / 32) + 4 then .error .truncatedInput
      else if (ref32 inp (base + 16 + 4 * (k / 32))).testBit (31 - k % 32) then
        if L < kp + 1 then .error .truncatedInput
        else refLoop inp L base size fuel (k + 1) pp (kp + 1) (xs ++ [inp kp])
      else if L < pp + 2 then .error .truncatedInput
      else if ref16 inp pp / 4096 = 0 then
        if L < kp + 1 then .error .truncatedInput
        else refCopied inp L base size fuel k (pp + 2) (kp + 1) (ref16 inp pp % 4096) ((inp kp).toNat + 18) xs
      else refCopied inp L base size fuel k (pp + 2) kp (ref16 inp pp % 4096) (ref16 inp pp / 4096 + 2) xs := by
  rw [refLoop, if_neg (Nat.not_le.2 h)]
  unfold refCopied
  dsimp only
  cases refCopy size (ref16 inp pp % 4096) ((inp kp).toNat + 18) xs <;>
    cases refCopy size (ref16 inp pp % 4096) (ref16 inp pp / 4096 + 2) xs <;> rfl

end

/-! ### OUT while YAY0 runs -/

/-- `m` holds the bytes `xs` from offset 0 on, and beyond them what `m₀` holds. -/
def Holds (m₀ m : Memory) (xs : List Byte) : Prop := ∀ a, m.byteAt .out a = (xs[a]?).getD (m₀.byteAt .out a)

section
variable {m₀ m : Memory} {xs : List Byte}

theorem Holds.nil (m : Memory) : Holds m m [] := fun _ => rfl

theorem Holds.below (h : Holds m₀ m xs) {a : Nat} (ha : a < xs.length) : m.byteAt .out a = xs[a] := by
  rw [h a, List.getElem?_eq_getElem ha, Option.getD_some]

theorem Holds.beyond (h : Holds m₀ m xs) {a : Nat} (ha : xs.length ≤ a) : m.byteAt .out a = m₀.byteAt .out a := by
  rw [h a, List.getElem?_eq_none ha, Option.getD_none]

theorem Holds.append (h : Holds m₀ m xs) (v : Byte) : Holds m₀ (m.write xs.length v) (xs ++ [v]) := by
  intro a
  rcases Nat.lt_trichotomy a xs.length with hlt | rfl | hgt
  · rw [Memory.byteAt_write_other _ _ _ hlt.ne, List.getElem?_append_left hlt, h a]
  · rw [Memory.byteAt_write_same, List.getElem?_concat_length, Option.getD_some]
  · rw [Memory.byteAt_write_other _ _ _ hgt.ne', h.beyond hgt.le, List.getElem?_eq_none (by simpa using hgt),
      Option.getD_none]

/-- A copy beyond the declared size is the error of the pure copy. -/
theorem copyLoop_of_refCopy_error {d size n : Nat} {e : ErrKind} (h : refCopy size d n xs = .error e) :
    e = .boundsViolation ∧ copyLoop d size n m xs.length = none := by
  induction n generalizing xs m with
  | zero => cases h
  | succ n ih =>
    rw [refCopy] at h
    rw [copyLoop]
    split at h
    · next hle =>
      cases h
      exact ⟨rfl, if_pos hle⟩
    · next hlt =>
      obtain ⟨he, hnone⟩ := ih (m := m.write xs.length (m.byteAt .out (xs.length - d - 1))) h
      rw [List.length_append, List.length_singleton] at hnone
      exact ⟨he, by rw [if_neg hlt, hnone]⟩

/-- A copy inside the declared size leaves the bytes the pure copy gives. -/
theorem copyLoop_of_refCopy_ok {d size n : Nat} {ys : List Byte} (hm : Holds m₀ m xs) (hd : d + 1 ≤ xs.length)
    (h : refCopy size d n xs = .ok ys) :
    ys.length = xs.length + n ∧ ∃ m', copyLoop d size n m xs.length = some m' ∧ Holds m₀ m' ys := by
  induction n generalizing xs m with
  | zero =>
    cases h
    exact ⟨rfl, m, rfl, hm⟩
  | succ n ih =>
    rw [refCopy] at h
    rw [copyLoop]
    split at h
    · cases h
    · next hlt =>
      have hread : m.byteAt .out (xs.length - d - 1) = xs.getD (xs.length - d - 1) 0 := by
        rw [hm.below (by omega), List.getD_eq_getElem _ _ (by omega)]
      obtain ⟨hlen, m', hloop, hholds⟩ := ih (hm.append _) (by rw [List.length_append]; omega) h
      rw [List.length_append, List.length_singleton] at hlen hloop
      exact ⟨by omega, m', by rw [if_neg hlt, hread, hloop], hholds⟩

end

/-! ### The control word -/

/-- Where the control word of the `k`-th operation stands (R96). -/
def State.controlAt (s : State) (k : Nat) : Nat := s.pos.toNat + 16 + 4 * (k / 32)

/-- The control word of the `k`-th operation is loaded, its bit the foremost one. -/
structure ControlLoaded (s : State) (b : Buf) (k : Nat) (q : Yay0Seq) : Prop where
  cb : q.cb = 32 - k % 32
  cp : q.cp = s.controlAt k + 4
  inside : s.controlAt k + 4 ≤ s.bufLen b
  cw : q.cw = be32 (s.bytes b (s.controlAt k) 4) <<< (k % 32)

/-- Before the `k`-th operation: its control word is loaded, or is the next to be read. -/
def ControlReady (s : State) (b : Buf) (k : Nat) (q : Yay0Seq) : Prop :=
  (k % 32 = 0 ∧ q.cb = 0 ∧ q.cp = s.controlAt k) ∨ (k % 32 ≠ 0 ∧ ControlLoaded s b k q)

section
variable {s : State} {b : Buf} {k : Nat} {q : Yay0Seq}

/-- The foremost bit is the one the pure decompressor tests. -/
theorem ControlLoaded.bit (h : ControlLoaded s b k q) :
    q.cw.getLsbD 31 = (ref32 (s.byte b) (s.pos.toNat + 16 + 4 * (k / 32))).testBit (31 - k % 32) := by
  have hk : ¬31 < k % 32 := by omega
  have hword : be32 (s.bytes b (s.controlAt k) 4) = BitVec.ofNat 32 (ref32 (s.byte b) (s.controlAt k)) := by
    rw [be32, beNat_bytes_four]
  rw [h.cw, hword, BitVec.getLsbD_shiftLeft, BitVec.getLsbD_ofNat]
  simp only [hk, decide_false, Bool.not_false, Bool.and_true, decide_true, Bool.true_and, State.controlAt,
    show 31 < 32 by decide, show 31 - k % 32 < 32 by omega]

/-- Taking the bit leads to the next operation: after the last of a word, the next word follows. -/
theorem ControlLoaded.takeBit (h : ControlLoaded s b k q) : ControlReady s b (k + 1) q.takeBit := by
  obtain ⟨hcb, hcp, hin, hcw⟩ := h
  unfold ControlReady State.controlAt
  unfold State.controlAt at hcp hin hcw
  rcases Nat.lt_or_ge (k % 32) 31 with hlt | hge
  · have hword : (k + 1) / 32 = k / 32 := by omega
    have hbit : (k + 1) % 32 = k % 32 + 1 := by omega
    refine .inr ⟨by omega, ?_, ?_, ?_, ?_⟩ <;> simp only [State.controlAt, hword, hbit]
    · rw [Yay0Seq.takeBit_cb]
      omega
    · exact hcp
    · exact hin
    · rw [Yay0Seq.takeBit_cw, hcw, BitVec.shiftLeft_add]
  · refine .inl ⟨by omega, ?_, ?_⟩
    · rw [Yay0Seq.takeBit_cb]
      omega
    · rw [Yay0Seq.takeBit_cp]
      omega

/-- The other cursors do not matter. -/
theorem ControlReady.of_eq {q' : Yay0Seq} (h : ControlReady s b k q) (hcb : q'.cb = q.cb) (hcp : q'.cp = q.cp)
    (hcw : q'.cw = q.cw) : ControlReady s b k q' := by
  obtain ⟨hk, hcb', hcp'⟩ | ⟨hk, hcb', hcp', hin, hcw'⟩ := h
  · exact .inl ⟨hk, hcb.trans hcb', hcp.trans hcp'⟩
  · exact .inr ⟨hk, hcb.trans hcb', hcp.trans hcp', hin, hcw.trans hcw'⟩

/-- The refill reads the control word of the operation, or there is none. -/
theorem ControlReady.refill (h : ControlReady s b k q) :
    (s.bufLen b < s.controlAt k + 4 ∧ s.yay0Refill b q = .error .truncatedInput) ∨
      ∃ q', s.yay0Refill b q = .ok q' ∧ ControlLoaded s b k q' := by
  obtain ⟨hk, hcb, hcp⟩ | ⟨hk, hloaded⟩ := h
  · rcases Nat.lt_or_ge (s.bufLen b) (s.controlAt k + 4) with hlt | hle
    · exact .inl ⟨hlt, State.yay0Refill_of_truncated hcb (hcp ▸ hlt)⟩
    · refine .inr ⟨_, State.yay0Refill_of_no_bit hcb (hcp ▸ hle), ?_, ?_, hle, ?_⟩
      · rw [hk]
      · rw [hcp]
      · rw [hcp, hk, BitVec.shiftLeft_zero]
  · refine .inr ⟨q, State.yay0Refill_of_bits ?_, hloaded⟩
    rw [hloaded.cb]
    omega

end

/-! ### The machine in flight beside the pure decompressor -/

/-- The sequencer's cursors and OUT, when `xs` has been produced of `size` bytes. -/
structure Produced (s : State) (size pp kp : Nat) (xs : List Byte) (q : Yay0Seq) (m : Memory) : Prop where
  declared : q.size = size
  pp : q.pp = pp
  kp : q.kp = kp
  op : q.op = xs.length
  bounded : xs.length ≤ size
  out : Holds s.out m xs

/-- The machine before the `k`-th operation. -/
structure Tracks (s : State) (b : Buf) (size k pp kp : Nat) (xs : List Byte) (q : Yay0Seq) (m : Memory) : Prop where
  produced : Produced s size pp kp xs q m
  control : ControlReady s b k q

/-- The state after one operation from `n` bytes on, and what the pure decompressor answers from there: the same error, or what
it answers from the next operation on. -/
inductive OpAgrees (s : State) (b : Buf) (size fuel k n : Nat) (m : Memory) (r : Except ErrKind (List Byte)) : State → Prop
  | fails {e : ErrKind} {o : OutEffect} (ho : o ≠ .kept) (hr : r = .error e) :
      OpAgrees s b size fuel k n m r ((s.withMem .out m).raise e o)
  | produces {pp kp : Nat} {ys : List Byte} {q : Yay0Seq} {m' : Memory} (h : Tracks s b size (k + 1) pp kp ys q m')
      (hlt : n < ys.length)
      (hr : r = refLoop (s.byte b) (s.bufLen b) s.pos.toNat size fuel (k + 1) pp kp ys) :
      OpAgrees s b size fuel k n m r ((s.withMem .out m').yay0Go b q)

section
variable {s : State} {b : Buf} {size fuel k pp kp : Nat} {xs : List Byte} {q : Yay0Seq} {m : Memory}

theorem Produced.append (h : Produced s size pp kp xs q m) (hlt : xs.length < size) (v : Byte) :
    Produced s size pp kp (xs ++ [v]) (q.produce 1) (m.write xs.length v) := by
  obtain ⟨hsize, hpp, hkp, hop, -, hout⟩ := h
  refine ⟨hsize, hpp, hkp, ?_, ?_, hout.append v⟩
  · rw [Yay0Seq.produce_op, hop, List.length_append, List.length_singleton]
  · rw [List.length_append, List.length_singleton]
    exact hlt

theorem Produced.takeChunk (h : Produced s size pp kp xs q m) : Produced s size pp (kp + 1) xs q.takeChunk m :=
  ⟨h.declared, h.pp, congrArg (· + 1) h.kp, h.op, h.bounded, h.out⟩

theorem Produced.takePair (h : Produced s size pp kp xs q m) : Produced s size (pp + 2) kp xs q.takePair m :=
  ⟨h.declared, congrArg (· + 2) h.pp, h.kp, h.op, h.bounded, h.out⟩

/-- LIT, its cursors past the operation. -/
theorem Tracks.lit_agrees (h : Tracks s b size (k + 1) pp kp xs q m) (hlt : xs.length < size) (v : Byte) :
    OpAgrees s b size fuel k xs.length m
      (refLoop (s.byte b) (s.bufLen b) s.pos.toNat size fuel (k + 1) pp kp (xs ++ [v]))
      ((s.withMem .out (m.write q.op v)).yay0Go b (q.produce 1)) := by
  rw [h.produced.op]
  exact .produces ⟨h.produced.append hlt v, h.control.of_eq rfl rfl rfl⟩ (by simp) rfl

/-- COPY and LCOPY, their cursors past the operation. -/
theorem Tracks.copy_agrees (h : Tracks s b size (k + 1) pp kp xs q m) {d n : Nat} (hn : n ≠ 0) :
    OpAgrees s b size fuel k xs.length m
      (refCopied (s.byte b) (s.bufLen b) s.pos.toNat size fuel k pp kp d n xs)
      ((s.withMem .out m).yay0Copy b q n d) := by
  obtain ⟨⟨hsize, hpp, hkp, hop, hbound, hout⟩, hcontrol⟩ := h
  unfold refCopied State.yay0Copy
  rw [hop, hsize, State.withMem_out_out]
  split
  · exact .fails q.outEffect_ne_kept rfl
  · next hd =>
    cases hc : refCopy size d n xs with
    | error e =>
      obtain ⟨rfl, hnone⟩ := copyLoop_of_refCopy_error (m := m) hc
      rw [hnone]
      exact .fails nofun rfl
    | ok ys =>
      obtain ⟨hlen, m', hloop, hholds⟩ := copyLoop_of_refCopy_ok hout (Nat.not_lt.1 hd) hc
      have hfits := copyLoop_some hloop
      rw [hloop]
      refine .produces (q := q.produce n) (m' := m') ⟨⟨hsize, hpp, hkp, ?_, ?_, hholds⟩, hcontrol.of_eq rfl rfl rfl⟩ ?_ rfl
      · rw [Yay0Seq.produce_op, hop, hlen]
      · omega
      · omega

/-- The state of a YAY0 in flight that was issued in `s`. -/
def State.inFlight (s : State) (b : Buf) (q : Yay0Seq) (m : Memory) : State := (s.withMem .out m).withSeq (.yay0 b q)

/-- What is written to OUT does not change what the input buffers say. -/
theorem State.inFlight_yay0Fetch (s : State) (q q' : Yay0Seq) (m : Memory) (hb : b ≠ .out) :
    (s.inFlight b q m).yay0Fetch b q' = s.yay0Fetch b q' :=
  yay0Fetch_alike (s := s.withSeq (.yay0 b q)) (s' := s.inFlight b q m) (q := s.yay0Start b)
    ⟨rfl, fun _ _ => rfl, fun _ _ => rfl, fun _ ha => absurd ha (Nat.not_lt_zero _)⟩ hb q'

theorem State.yay0Go_withSeq (s : State) (x : Sequencer) (b : Buf) (q : Yay0Seq) :
    (s.withSeq x).yay0Go b q = s.yay0Go b q := by
  unfold State.yay0Go
  split <;> rfl

theorem State.inFlight_lit (s : State) (b : Buf) (q : Yay0Seq) (m : Memory) (v : Byte) :
    exec (.lit v) (s.inFlight b q m) =
      .next ((s.withMem .out (m.write q.op v)).yay0Go b (q.takeBit.takeChunk.produce 1)) := by
  rw [exec_lit v rfl, ← State.yay0Go_withSeq (s.withMem .out (m.write q.op v)) (.yay0 b q)]
  rfl

theorem State.inFlight_copy (s : State) (b : Buf) (q : Yay0Seq) (m : Memory) (f : BitVec 4) (d : BitVec 12) :
    exec (.copy f d) (s.inFlight b q m) =
      .next ((s.withMem .out m).yay0Copy b q.takeBit.takePair (f.toNat + 2) d.toNat) := by
  rw [exec_copy f d rfl, State.inFlight, State.yay0Copy_withSeq]

theorem State.inFlight_lcopy (s : State) (b : Buf) (q : Yay0Seq) (m : Memory) (d : BitVec 12) (e : Byte) :
    exec (.lcopy d e) (s.inFlight b q m) =
      .next ((s.withMem .out m).yay0Copy b q.takeBit.takePair.takeChunk (e.toNat + 18) d.toNat) := by
  rw [exec_lcopy d e rfl, State.inFlight, State.yay0Copy_withSeq]

theorem toNat_pairF (p0 p1 : Byte) : (pairF (pairOf p0 p1)).toNat = pairOf p0 p1 / 4096 := by
  have hp := pairOf_lt p0 p1
  rw [pairF, BitVec.toNat_ofNat]
  omega

theorem toNat_pairD (p0 p1 : Byte) : (pairD (pairOf p0 p1)).toNat = pairOf p0 p1 % 4096 := by
  rw [pairD, BitVec.toNat_ofNat]
  omega

theorem State.blockStep_inFlight_of_error {e : ErrKind} (hb : b ≠ .out) (m : Memory) (hf : s.yay0Fetch b q = .error e) :
    blockStep (s.inFlight b q m) = .next ((s.withMem .out m).raise e q.outEffect) := by
  rw [blockStep_yay0_of_error (q := q) rfl ((s.inFlight_yay0Fetch q q m hb).trans hf), State.inFlight, State.raise_withSeq]

theorem State.blockStep_inFlight_of_fetch {c : Code} {q' : Yay0Seq} {i : Instr} (hb : b ≠ .out) (m : Memory)
    (hf : s.yay0Fetch b q = .ok (c, q')) (hd : decode c = .ok i) :
    blockStep (s.inFlight b q m) = exec i (s.inFlight b q' m) :=
  blockStep_yay0_of_fetch (q := q) rfl ((s.inFlight_yay0Fetch q q m hb).trans hf) hd

/-- The next step of the block from `q` agrees with what the pure decompressor answers. -/
def StepAgrees (s : State) (b : Buf) (size fuel k n : Nat) (q : Yay0Seq) (m : Memory) (r : Except ErrKind (List Byte)) :
    Prop := ∃ t, blockStep (s.inFlight b q m) = .next t ∧ OpAgrees s b size fuel k n m r t

theorem StepAgrees.of_error {n : Nat} {e : ErrKind} (hb : b ≠ .out) (hf : s.yay0Fetch b q = .error e) :
    StepAgrees s b size fuel k n q m (.error e) :=
  ⟨_, State.blockStep_inFlight_of_error hb m hf, .fails q.outEffect_ne_kept rfl⟩

section
variable {q' : Yay0Seq} (hb : b ≠ .out) (hrefill : s.yay0Refill b q = .ok q')
  (hproduced : Produced s size pp kp xs q'.takeBit m) (hcontrol : ControlReady s b (k + 1) q'.takeBit)
include hb hrefill hproduced hcontrol

/-- With control bit 1 (R166). -/
theorem stepAgrees_literal (hlt : xs.length < size) (hbit : q'.cw.getLsbD 31 = true) :
    StepAgrees s b size fuel k xs.length q m
      (if s.bufLen b < kp + 1 then .error .truncatedInput
      else refLoop (s.byte b) (s.bufLen b) s.pos.toNat size fuel (k + 1) pp (kp + 1) (xs ++ [s.byte b kp])) := by
  have hfetch := State.yay0Fetch_of_refill hrefill
  rw [if_pos hbit, show q'.kp = kp from hproduced.kp] at hfetch
  split_ifs at hfetch ⊢
  · exact .of_error hb hfetch
  · have hops : Tracks s b size (k + 1) pp (kp + 1) xs q'.takeBit.takeChunk m :=
      ⟨hproduced.takeChunk, hcontrol.of_eq rfl rfl rfl⟩
    exact ⟨_, (State.blockStep_inFlight_of_fetch hb m hfetch (decode_lit _)).trans (s.inFlight_lit b q' m _),
      hops.lit_agrees hlt _⟩

/-- With control bit 0 (R167). -/
theorem stepAgrees_pair (hbit : q'.cw.getLsbD 31 = false) :
    StepAgrees s b size fuel k xs.length q m
      (if s.bufLen b < pp + 2 then .error .truncatedInput
      else if ref16 (s.byte b) pp / 4096 = 0 then
        if s.bufLen b < kp + 1 then .error .truncatedInput
        else refCopied (s.byte b) (s.bufLen b) s.pos.toNat size fuel k (pp + 2) (kp + 1) (ref16 (s.byte b) pp % 4096)
          ((s.byte b kp).toNat + 18) xs
      else refCopied (s.byte b) (s.bufLen b) s.pos.toNat size fuel k (pp + 2) kp (ref16 (s.byte b) pp % 4096)
        (ref16 (s.byte b) pp / 4096 + 2) xs) := by
  have hpair : ref16 (s.byte b) pp = pairOf (s.byte b pp) (s.byte b (pp + 1)) := rfl
  have hfetch := State.yay0Fetch_of_refill hrefill
  rw [hbit, if_neg Bool.false_ne_true, show q'.kp = kp from hproduced.kp, show q'.pp = pp from hproduced.pp] at hfetch
  rw [hpair]
  split_ifs at hfetch ⊢ with _ hf
  · exact .of_error hb hfetch
  · exact .of_error hb hfetch
  · have hops : Tracks s b size (k + 1) (pp + 2) (kp + 1) xs q'.takeBit.takePair.takeChunk m :=
      ⟨hproduced.takePair.takeChunk, hcontrol.of_eq rfl rfl rfl⟩
    have hstep := State.blockStep_inFlight_of_fetch hb m hfetch (decode_lcopy_of_pair _ hf)
    rw [s.inFlight_lcopy, toNat_pairD] at hstep
    exact ⟨_, hstep, hops.copy_agrees (Nat.succ_ne_zero _)⟩
  · have hops : Tracks s b size (k + 1) (pp + 2) kp xs q'.takeBit.takePair m :=
      ⟨hproduced.takePair, hcontrol.of_eq rfl rfl rfl⟩
    have hstep := State.blockStep_inFlight_of_fetch hb m hfetch (decode_copy_of_pair hf)
    rw [s.inFlight_copy, toNat_pairD, toNat_pairF] at hstep
    exact ⟨_, hstep, hops.copy_agrees (Nat.succ_ne_zero _)⟩

end

/-- One step of the block is one operation of the pure decompressor. -/
theorem Tracks.stepAgrees (h : Tracks s b size k pp kp xs q m) (hb : b ≠ .out) (hlt : xs.length < size) :
    StepAgrees s b size fuel k xs.length q m
      (refLoop (s.byte b) (s.bufLen b) s.pos.toNat size (fuel + 1) k pp kp xs) := by
  obtain ⟨⟨hsize, hpp, hkp, hop, hbound, hout⟩, hcontrol⟩ := h
  rw [refLoop_succ hlt]
  obtain ⟨hshort, hrefill⟩ | ⟨q', hrefill, hloaded⟩ := hcontrol.refill
  · rw [if_pos (show s.bufLen b < s.pos.toNat + 16 + 4 * (k / 32) + 4 from hshort)]
    exact .of_error hb (by simp only [State.yay0Fetch, hrefill])
  · obtain ⟨hsize', hop', hpp', hkp'⟩ := State.yay0Refill_frame hrefill
    have hproduced : Produced s size pp kp xs q'.takeBit m :=
      ⟨hsize'.trans hsize, hpp'.trans hpp, hkp'.trans hkp, hop'.trans hop, hbound, hout⟩
    rw [if_neg (show ¬s.bufLen b < s.pos.toNat + 16 + 4 * (k / 32) + 4 from Nat.not_lt.2 hloaded.inside), ← hloaded.bit]
    split
    · next hbit => exact stepAgrees_literal hb hrefill hproduced hloaded.takeBit hlt hbit
    · next hbit =>
      exact stepAgrees_pair hb hrefill hproduced hloaded.takeBit (Bool.eq_false_iff.2 hbit)

end

/-! ### The whole command -/

/-- The command issued in `s` has ended in `t` as the pure decompressor's answer says. -/
def EndsAs (s t : State) : Except ErrKind (List Byte) → Prop
  | .ok xs =>
    t = { s.afterSuccess false with out := t.out, outLen := t.outLen, result := t.result } ∧
      t.outLen.toNat = xs.length ∧ t.result.toNat = xs.length ∧
      (∀ i, i < xs.length → xs[i]? = some (t.byte .out i)) ∧ ∀ a, xs.length ≤ a → t.byte .out a = s.byte .out a
  | .error e =>
    t = { s.afterOwnError e with out := t.out, freeCount := t.freeCount } ∧
      ∀ a, s.outCap.toNat ≤ a → t.byte .out a = s.byte .out a

section
variable {s : State} {b : Buf} {size fuel k pp kp : Nat} {xs : List Byte} {q : Yay0Seq} {m : Memory}

/-- The declared size is produced (R169). -/
theorem Produced.endsAs_ok (h : Produced s size pp kp xs q m) (hsize : size < 2 ^ 32) (hdone : size ≤ xs.length) :
    EndsAs s ((s.withMem .out m).yay0Go b q) (.ok xs) := by
  obtain ⟨rfl, -, -, hop, hbound, hout⟩ := h
  have hend : q.op = q.size := by omega
  obtain ⟨hmem, -, hends⟩ := State.yay0Go_spec (s := s) (b := b) m hsize
  obtain ⟨hstate, hlen, hresult⟩ := hends hend
  have hbyte (a : Nat) : ((s.withMem .out m).yay0Go b q).byte .out a = m.byteAt .out a :=
    congrArg (fun mem => Memory.byteAt .out mem a) hmem
  refine ⟨hstate, by omega, by omega, fun i hi => ?_, fun a ha => ?_⟩
  · rw [hbyte, hout.below hi, List.getElem?_eq_getElem hi]
  · rw [hbyte, hout.beyond ha]
    rfl

/-- An error in flight: what was produced lies below OUT_CAP (R233). -/
theorem Produced.endsAs_error (h : Produced s size pp kp xs q m) (hcap : size ≤ s.outCap.toNat) (e : ErrKind)
    {o : OutEffect} (ho : o ≠ .kept) : EndsAs s ((s.withMem .out m).raise e o) (.error e) := by
  refine ⟨?_, fun a ha => ?_⟩
  · cases o with
    | kept => exact absurd rfl ho
    | emptied => rfl
    | voided => rfl
  · refine ((s.withMem .out m).raise_byte_out_above e o ha).trans ?_
    exact h.out.beyond (h.bounded.trans (hcap.trans ha))

/-- The loop of the machine ends as the loop of the pure decompressor: each step is an operation and produces a byte. -/
theorem runs_refLoop (hb : b ≠ .out) (hh : s.host = []) (hcap : size ≤ s.outCap.toNat) (hfuel : size ≤ xs.length + fuel)
    (h : Tracks s b size k pp kp xs q m) :
    ∃ n t, n ≤ size - xs.length ∧ runSteps n ((s.withMem .out m).yay0Go b q) = .next t ∧
      EndsAs s t (refLoop (s.byte b) (s.bufLen b) s.pos.toNat size fuel k pp kp xs) := by
  have hsize : size < 2 ^ 32 := hcap.trans_lt s.outCap.isLt
  induction fuel generalizing k pp kp xs q m with
  | zero =>
    rw [refLoop_of_done hfuel]
    exact ⟨0, _, Nat.zero_le _, rfl, h.produced.endsAs_ok hsize hfuel⟩
  | succ fuel ih =>
    rcases Nat.lt_or_ge xs.length size with hlt | hge
    · have hgo : (s.withMem .out m).yay0Go b q = s.inFlight b q m :=
        State.yay0Go_of_lt (by rw [h.produced.op, h.produced.declared]; exact hlt)
      obtain ⟨t, hblock, hagrees⟩ := h.stepAgrees (fuel := fuel) hb hlt
      have hstep : step (s.inFlight b q m) = .next t := (step_of_host_nil (s := s.inFlight b q m) hh).trans hblock
      rw [hgo]
      cases hagrees with
      | fails ho hr =>
        rw [hr]
        exact ⟨1, _, by omega, (runSteps_one _).trans hstep, h.produced.endsAs_error hcap _ ho⟩
      | produces h' hlonger hr =>
        obtain ⟨n, u, hn, hrun, hends⟩ := ih (by omega) h'
        rw [hr]
        exact ⟨n + 1, u, by have := h'.produced.bounded; omega, (runSteps_succ_of_next n hstep).trans hrun, hends⟩
    · rw [refLoop_of_done hge]
      exact ⟨0, _, Nat.zero_le _, rfl, h.produced.endsAs_ok hsize hge⟩

theorem tracks_yay0Start (s : State) (b : Buf) :
    Tracks s b (s.yay0Start b).size 0 (s.yay0Start b).pp (s.yay0Start b).kp [] (s.yay0Start b) s.out :=
  ⟨⟨rfl, rfl, rfl, rfl, Nat.zero_le _, .nil _⟩, .inl ⟨rfl, rfl, rfl⟩⟩

/-- What the header says decides as it does in the pure decompressor (R161, R162). -/
theorem refYay0_of_yay0Header (s : State) (b : Buf) :
    (∃ e, s.yay0Header b = .error e ∧ refYay0 (s.byte b) (s.bufLen b) s.pos.toNat s.outCap.toNat = .error e) ∨
      (s.yay0Header b = .ok (s.yay0Start b) ∧ (s.yay0Start b).size ≤ s.outCap.toNat ∧
        refYay0 (s.byte b) (s.bufLen b) s.pos.toNat s.outCap.toNat =
          refLoop (s.byte b) (s.bufLen b) s.pos.toNat (s.yay0Start b).size (s.yay0Start b).size 0 (s.yay0Start b).pp
            (s.yay0Start b).kp []) := by
  simp only [refYay0]
  split_ifs with h4 hm h16 hcap
  · exact .inl ⟨_, State.yay0Header_of_short h4, rfl⟩
  · exact .inl ⟨_, (State.yay0Header_of_magic (Nat.not_lt.1 h4) hm).trans (if_pos h16), rfl⟩
  · have hheader := (State.yay0Header_of_magic (Nat.not_lt.1 h4) hm).trans (if_neg h16)
    exact .inl ⟨_, hheader.trans (if_pos hcap), rfl⟩
  · have hheader := (State.yay0Header_of_magic (Nat.not_lt.1 h4) hm).trans (if_neg h16)
    exact .inr ⟨hheader.trans (if_neg hcap), Nat.not_lt.1 hcap, rfl⟩
  · exact .inl ⟨_, State.yay0Header_of_no_magic (Nat.not_lt.1 h4) hm, rfl⟩

theorem exec_yay0_endsAs (hin : b.isInput = true) (hh : s.host = []) (hs : s.operandsOk = true) :
    ∃ u, exec (.yay0 b) s = .next u ∧ ∃ n t, n ≤ s.outCap.toNat ∧ runSteps n u = .next t ∧
      EndsAs s t (refYay0 (s.byte b) (s.bufLen b) s.pos.toNat s.outCap.toNat) := by
  obtain ⟨e, hheader, href⟩ | ⟨hheader, hcap, href⟩ := refYay0_of_yay0Header s b
  · rw [href]
    exact ⟨_, exec_yay0_of_error hin hs hheader, 0, _, Nat.zero_le _, rfl, rfl, fun _ _ => rfl⟩
  · rw [href]
    obtain ⟨n, t, hn, hrun, hends⟩ :=
      runs_refLoop (isInput_iff.1 hin) hh hcap (Nat.zero_add _).ge (tracks_yay0Start s b)
    exact ⟨_, exec_yay0_of_header hin hs hheader, n, t, hn.trans hcap, hrun, hends⟩

end

/-- Settles O40: the first step runs the header's checks, each later one an operation of the stream. -/
theorem yay0RunsToReference : Obligations.Yay0RunsToReference := by
  intro b s hh hq hd hs
  obtain ⟨hin, -⟩ := decode_command_iff.1 hd
  obtain ⟨u, hexec, n, t, hn, hrun, hends⟩ := exec_yay0_endsAs hin hh hs
  have hstep : step s = .next u := (step_of_host_nil hh).trans ((blockStep_issued hq hd).trans hexec)
  refine ⟨⟨u, hexec, hstep⟩, n + 1, t, Nat.succ_le_succ hn, (runSteps_succ_of_next n hstep).trans hrun, ?_⟩
  cases href : refYay0 (s.byte b) (s.bufLen b) s.pos.toNat s.outCap.toNat with
  | ok xs => exact href ▸ hends
  | error e => exact href ▸ hends

end Sys2Proof.Machine
